-- ==== Sys2Proof/Word.lean ====
section
/-! DEFINITION. The word types of the core (00_scope.md section 4, 10_state.md R20). All numbers are unsigned. -/

namespace Sys2Proof

/-- A Symbol, also a stream byte and a sample: 8 bits (R20). -/
abbrev Sym := BitVec 8

/-- A Code: 16 bits (R20). -/
abbrev Code := BitVec 16

/-- A register word: 32 bits (`REG_W`, 20_memory.md R66). -/
abbrev Word := BitVec 32

end Sys2Proof
end

