-- ==== Sys2Proof/Config.lean ====
section
/-! DEFINITION. The fixed parameters of 00_scope.md section 4, the open parameter `REG_BASE`, and the
free values: constants with no body, of which nothing can be proved. -/

namespace Sys2Proof.Config

/-- `NLIT` = `FIRST_DYN`: the number of hardwired one-symbol entries and the first assigned code (R21, R23). -/
abbrev firstDyn : Nat := 256

/-- `DICT_CAP`: the most entries the dictionary can hold (R21). -/
abbrev dictCap : Nat := 65536

/-- `HDR_BYTES`: the length of the frame header (30_encoding.md R94). -/
abbrev hdrBytes : Nat := 8

/-- `MAXSEQ`: the longest sequence an entry can stand for (10_state.md R29). -/
abbrev maxSeq : Nat := 65281

/-- `REG_BASE`: where the register block sits in the host's address space; open (00_scope.md section 4,
92_eei_decisions.md D4). No rule depends on it. -/
opaque regBase : Nat

/-- Free value: what `W` holds after the n-th Reset event (70_reset_and_hazards.md R250, 93 I13). -/
opaque freeW : Nat → Code

/-- Free value: what `HB` holds after the n-th Reset event (R250, 93 I13). -/
opaque freeHB : Nat → BitVec 8

/-- Free value: what `HDR` holds after the n-th Reset event (R250, 93 I13). -/
opaque freeHDR : Nat → BitVec 64

end Sys2Proof.Config
end

