-- ==== Sys2Proof/Syntax.lean ====
section
/-! DEFINITION. The syntax of the core: its 23 instructions (one per row of spec/opcode_table.json), the
input and output alphabets (00_scope.md R2, R3), and the encoded forms (30_encoding.md). -/

namespace Sys2Proof

/-- The instructions: one constructor per row of the opcode table, in the table's order. -/
inductive Instr where
  /-- `NOP`, CMD32 word 0 (40_commands.md R128). -/
  | nop
  /-- `ENC`, CMD32 word 1: start a raw encode (R124). -/
  | enc
  /-- `DEC`, CMD32 word 2: start a raw decode (R125). -/
  | dec
  /-- `CMP`, CMD32 word 3: start a framed compress (R126). -/
  | cmp
  /-- `DCMP`, CMD32 word 4: start a framed decompress (R127). -/
  | dcmp
  /-- `CMD.RESERVED`: every other CMD32 word `v` (R129). -/
  | cmdReserved (v : Word)
  /-- `ENC.IN`: a data beat in `MODE = ENC` (41_encode.md R140 to R143). -/
  | encIn (b : Sym)
  /-- `ENC.END`: the end beat in `MODE = ENC` (R144, R145). -/
  | encEnd
  /-- `DEC.IN`: a data beat in `MODE = DEC` (42_decode.md R160, R161). -/
  | decIn (b : Sym)
  /-- `DEC.END`: the end beat in `MODE = DEC` (R168 to R170). -/
  | decEnd
  /-- `CMP.IN`: a data beat in `MODE = CMP` (43_frame.md R191). -/
  | cmpIn (b : Sym)
  /-- `CMP.END`: the end beat in `MODE = CMP` (R192). -/
  | cmpEnd
  /-- `DCMP.IN`: a data beat in `MODE = DCMP` (R193 to R195). -/
  | dcmpIn (b : Sym)
  /-- `DCMP.END`: the end beat in `MODE = DCMP` (R196). -/
  | dcmpEnd
  /-- `DRAIN.IN`: a data beat after a fault (40_commands.md R133). -/
  | drainIn (b : Sym)
  /-- `DRAIN.END`: the end beat after a fault (R133, R132). -/
  | drainEnd
  /-- `LIT`: a code below 256, that is `0x00 ‖ c` (R162, R164, R165). -/
  | lit (c : Sym)
  /-- `REF`: a code `256 ≤ k < NEXT` (R164, R165). -/
  | ref (k : Code)
  /-- `KWK`: the code `k = NEXT` (R166, R163). -/
  | kwk (k : Code)
  /-- `BAD`: a code `k > NEXT` (R167, R163). -/
  | bad (k : Code)
  /-- `HDR`: a frame header (30_encoding.md R94, 43_frame.md R193, R194). -/
  | hdr (rows cols : Word)
  /-- `RD`: a register read at byte offset `off` (40_commands.md R120). -/
  | rd (off : BitVec 8)
  /-- `WR`: a register write at byte offset `off ≠ 0` (R121, R122). -/
  | wr (off : BitVec 8) (v : Word)
deriving DecidableEq, Repr

/-- The operation in progress, `MODE` (10_state.md R35); values 5 to 7 are never held (log 19). -/
inductive Mode where
  | idle | enc | dec | cmp | dcmp
deriving DecidableEq, Repr

/-- The error codes of 60_exceptions.md R220; codes 6 and 7 are never held. -/
inductive ErrCode where
  | none | malformedStream | dictionaryUnderflow | sizeMismatch | divideByZero | gridMismatch
deriving DecidableEq, Repr

/-- The input alphabet (00_scope.md R2). -/
inductive Event where
  /-- `Reset` (70_reset_and_hazards.md R250). -/
  | reset
  /-- `RegWrite(off, v)`. -/
  | regWrite (off : BitVec 8) (v : Word)
  /-- `RegRead(off)`. -/
  | regRead (off : BitVec 8)
  /-- `In(b)`: one byte arriving on the input stream. -/
  | inByte (b : Sym)
  /-- `End`: the end-of-buffer marker on the input stream. -/
  | endMark
deriving DecidableEq, Repr

/-- The output alphabet (00_scope.md R3). -/
inductive OutEvent where
  /-- `Out(b)`. -/
  | out (b : Sym)
  /-- `OutEnd(e)`. -/
  | outEnd (e : ErrCode)
deriving DecidableEq, Repr

/-- An encoded form, by the formats of 30_encoding.md and the `REG` format of the opcode table. -/
inductive Encoding where
  /-- Format `CMD32`: the word written to `CTRL` (R96). -/
  | cmd32 (v : Word)
  /-- Format `BEAT`: `in_end ‖ in_data[7:0]` (R99, 20_memory.md R72). -/
  | beat (x : BitVec 9)
  /-- Format `CODE16` (R90). -/
  | code16 (k : Code)
  /-- Format `HDR64` (R94). -/
  | hdr64 (h : BitVec 64)
  /-- Format `REG`, read: `off[7:0]`. -/
  | regRead (a : BitVec 8)
  /-- Format `REG`, write: `off[7:0] ‖ v[31:0]`. -/
  | regWrite (x : BitVec 40)
deriving DecidableEq, Repr

/-- The four classes of a code word (30_encoding.md R91). -/
inductive CodeClass where
  | lit | ref | kwk | bad
deriving DecidableEq, Repr

/-- The part of the state that tells rows with one bit pattern apart: `MODE` and `ERR` for beats
(40_commands.md R135), `NEXT` for code words (30_encoding.md R91). -/
structure Ctx where
  mode : Mode
  err  : ErrCode
  next : BitVec 17
deriving DecidableEq, Repr

/-- Why an encoded form is no instruction. -/
inductive DecodeError where
  /-- A beat while idle has no step (40_commands.md R131). -/
  | beatWhileIdle
  /-- A register offset that is no multiple of 4 (20_memory.md R65, R66; 93 I14). -/
  | misaligned (off : BitVec 8)
deriving DecidableEq, Repr

end Sys2Proof
end

