-- ==== Sys2Proof/WellFormed.lean ====
section
/-! DEFINITION. Which terms of the syntax are instructions: the operand conditions of the rows of
spec/opcode_table.json that the bits alone decide. -/

namespace Sys2Proof

/-- A register offset is a multiple of 4 (40_commands.md R120; accesses are whole aligned words, 20_memory.md R66). -/
def aligned (off : BitVec 8) : Bool := off.toNat % 4 == 0

/-- The operand conditions of each row. `CMD.RESERVED` is every CTRL word but the five commands
(R129); `REF` and `KWK` are codes from 256 on and `BAD` a code above `NEXT ≥ 256` (R91); `RD` and `WR` are aligned,
and a `WR` at offset 0 is a command word instead. -/
def Instr.wellFormed : Instr → Bool
  | .nop | .enc | .dec | .cmp | .dcmp => true
  | .cmdReserved v => 5 ≤ v.toNat
  | .encIn _ | .encEnd | .decIn _ | .decEnd => true
  | .cmpIn _ | .cmpEnd | .dcmpIn _ | .dcmpEnd => true
  | .drainIn _ | .drainEnd => true
  | .lit _ => true
  | .ref k | .kwk k => 256 ≤ k.toNat
  | .bad k => 257 ≤ k.toNat
  | .hdr _ _ => true
  | .rd off => aligned off
  | .wr off _ => aligned off && off != 0

/-- The events a bus in front of the core can present: register accesses are aligned (20_memory.md R65). -/
def Event.wellFormed : Event → Bool
  | .regWrite off _ | .regRead off => aligned off
  | .reset | .inByte _ | .endMark => true

end Sys2Proof
end

