-- ==== Sys2Proof/Decode.lean ====
section
/-! DEFINITION. Decoding and encoding (30_encoding.md, spec/opcode_table.json). Decoding is total and
rejects by name; where one bit pattern serves several rows the context `Ctx` tells them apart. -/

namespace Sys2Proof

/-! ## Names in bits -/

/-- `MODE` and `OP` as bits (10_state.md R35). -/
def Mode.bits : Mode → BitVec 3
  | .idle => 0
  | .enc => 1
  | .dec => 2
  | .cmp => 3
  | .dcmp => 4

/-- `ERR` as bits (60_exceptions.md R220). -/
def ErrCode.bits : ErrCode → BitVec 3
  | .none => 0
  | .malformedStream => 1
  | .dictionaryUnderflow => 2
  | .sizeMismatch => 3
  | .divideByZero => 4
  | .gridMismatch => 5

/-! ## Fields and byte order (big-endian, 20_memory.md R64) -/

/-- `k[15:8]`, the byte of a code that travels first (R90). -/
def codeHigh (k : Code) : Sym := k.extractLsb' 8 8

/-- `k[7:0]`, the byte of a code that travels second (R90). -/
def codeLow (k : Code) : Sym := k.extractLsb' 0 8

/-- `BE_4(v)`: the four bytes of a word, most significant first (00_scope.md section 6). -/
def wordBytes (v : Word) : List Sym :=
  [v.extractLsb' 24 8, v.extractLsb' 16 8, v.extractLsb' 8 8, v.extractLsb' 0 8]

/-- `BE_2(k)`: the two stream bytes of a code (R90). -/
def codeBytes (k : Code) : List Sym := [codeHigh k, codeLow k]

/-- `HdrBytes(r, c) = BE_4(r) ‖ BE_4(c)` (R94). -/
def hdrBytes (rows cols : Word) : List Sym := wordBytes rows ++ wordBytes cols

/-- `HDR[63:32]` (R94). -/
def hdrRows (h : BitVec 64) : Word := h.extractLsb' 32 32

/-- `HDR[31:0]` (R94). -/
def hdrCols (h : BitVec 64) : Word := h.extractLsb' 0 32

/-! ## Decoding -/

/-- The command word (R96, R97): `v[2:0]` is the opcode and `v[31:3]` must be 0; every other word is reserved (R98). -/
def decodeCmd (v : Word) : Instr :=
  if v.extractLsb' 3 29 = 0 then
    if v.extractLsb' 0 3 = 0#3 then .nop
    else if v.extractLsb' 0 3 = 1#3 then .enc
    else if v.extractLsb' 0 3 = 2#3 then .dec
    else if v.extractLsb' 0 3 = 3#3 then .cmp
    else if v.extractLsb' 0 3 = 4#3 then .dcmp
    else .cmdReserved v
  else .cmdReserved v

/-- A data beat (40_commands.md R135): a latched error selects the drain row in every busy mode. -/
def decodeInByte (c : Ctx) (b : Sym) : Except DecodeError Instr :=
  match c.mode with
  | .idle => .error .beatWhileIdle
  | .enc => .ok (if c.err = .none then .encIn b else .drainIn b)
  | .dec => .ok (if c.err = .none then .decIn b else .drainIn b)
  | .cmp => .ok (if c.err = .none then .cmpIn b else .drainIn b)
  | .dcmp => .ok (if c.err = .none then .dcmpIn b else .drainIn b)

/-- The end beat (R135). -/
def decodeEndMark (c : Ctx) : Except DecodeError Instr :=
  match c.mode with
  | .idle => .error .beatWhileIdle
  | .enc => .ok (if c.err = .none then .encEnd else .drainEnd)
  | .dec => .ok (if c.err = .none then .decEnd else .drainEnd)
  | .cmp => .ok (if c.err = .none then .cmpEnd else .drainEnd)
  | .dcmp => .ok (if c.err = .none then .dcmpEnd else .drainEnd)

/-- A beat's nine bits (R99, 20_memory.md R72): bit 8 is `in_end`, and the data of an end beat is ignored. -/
def decodeBeat (c : Ctx) (x : BitVec 9) : Except DecodeError Instr :=
  if x.extractLsb' 8 1 = 1#1 then decodeEndMark c else decodeInByte c (x.extractLsb' 0 8)

/-- The class of a code word (30_encoding.md R91); `NEXT` is compared as a 17-bit number, `k` zero-extended. -/
def classify (next : BitVec 17) (k : Code) : CodeClass :=
  if k.toNat < Config.firstDyn then .lit
  else if k.toNat < next.toNat then .ref
  else if k.toNat = next.toNat then .kwk
  else .bad

/-- The row of a code word (R91). -/
def decodeCode (next : BitVec 17) (k : Code) : Instr :=
  match classify next k with
  | .lit => .lit (codeLow k)
  | .ref => .ref k
  | .kwk => .kwk k
  | .bad => .bad k

/-- The header word (R94): every 64-bit pattern is legal. -/
def decodeHdr (h : BitVec 64) : Instr := .hdr (hdrRows h) (hdrCols h)

/-- A register read (40_commands.md R120). -/
def decodeRead (off : BitVec 8) : Except DecodeError Instr :=
  if aligned off then .ok (.rd off) else .error (.misaligned off)

/-- A register write (R121 to R123): at offset 0x00 it is a command word. -/
def decodeWrite (off : BitVec 8) (v : Word) : Except DecodeError Instr :=
  if aligned off then
    .ok (if off = 0#8 then decodeCmd v else .wr off v)
  else .error (.misaligned off)

/-- The decoder, over every encoded form. -/
def decode (c : Ctx) : Encoding → Except DecodeError Instr
  | .cmd32 v => .ok (decodeCmd v)
  | .beat x => decodeBeat c x
  | .code16 k => .ok (decodeCode c.next k)
  | .hdr64 h => .ok (decodeHdr h)
  | .regRead a => decodeRead a
  | .regWrite x => decodeWrite (x.extractLsb' 32 8) (x.extractLsb' 0 32)

/-- The "condition" column of the opcode table: the contexts in which a row's words decode to that row. -/
def Instr.admitted (c : Ctx) : Instr → Bool
  | .nop | .enc | .dec | .cmp | .dcmp | .cmdReserved _ => true
  | .encIn _ | .encEnd => c.mode = .enc && c.err = .none
  | .decIn _ | .decEnd => c.mode = .dec && c.err = .none
  | .cmpIn _ | .cmpEnd => c.mode = .cmp && c.err = .none
  | .dcmpIn _ | .dcmpEnd => c.mode = .dcmp && c.err = .none
  | .drainIn _ | .drainEnd => c.mode ≠ .idle && c.err ≠ .none
  | .lit _ => true
  | .ref k => k.toNat < c.next.toNat
  | .kwk k => k.toNat = c.next.toNat
  | .bad k => c.next.toNat < k.toNat
  | .hdr _ _ | .rd _ | .wr _ _ => true

/-! ## Encoding -/

/-- A data beat (R99): bit 8 is 0. -/
def encodeInByte (b : Sym) : Encoding := .beat (0#1 ++ b)

/-- The end beat (R99): bit 8 is 1; the ignored data bits are written as 0 (log 11). -/
def encodeEndMark : Encoding := .beat (1#1 ++ 0#8)

/-- The encoder: the words of an instruction, from the encodings of 30_encoding.md. -/
def encode : Instr → Encoding
  | .nop => .cmd32 0
  | .enc => .cmd32 1
  | .dec => .cmd32 2
  | .cmp => .cmd32 3
  | .dcmp => .cmd32 4
  | .cmdReserved v => .cmd32 v
  | .encIn b | .decIn b | .cmpIn b | .dcmpIn b | .drainIn b => encodeInByte b
  | .encEnd | .decEnd | .cmpEnd | .dcmpEnd | .drainEnd => encodeEndMark
  | .lit c => .code16 (0#8 ++ c)
  | .ref k | .kwk k | .bad k => .code16 k
  | .hdr rows cols => .hdr64 (rows ++ cols)
  | .rd off => .regRead off
  | .wr off v => .regWrite (off ++ v)

/-- How many bits the opcode table gives a format. -/
def Encoding.width : Encoding → Nat
  | .cmd32 _ => 32
  | .beat _ => 9
  | .code16 _ => 16
  | .hdr64 _ => 64
  | .regRead _ => 8
  | .regWrite _ => 40

/-- The event a beat's nine bits are (R99). -/
def beatEvent (x : BitVec 9) : Event :=
  if x.extractLsb' 8 1 = 1#1 then .endMark else .inByte (x.extractLsb' 0 8)

/-- The events an encoded form travels as: a command or register access is one bus event, a beat one
stream event, a code two data beats (R90) and a header eight (R94), high byte first. -/
def Encoding.events : Encoding → List Event
  | .cmd32 v => [.regWrite 0 v]
  | .beat x => [beatEvent x]
  | .code16 k => (codeBytes k).map .inByte
  | .hdr64 h => (hdrBytes (hdrRows h) (hdrCols h)).map .inByte
  | .regRead a => [.regRead a]
  | .regWrite x => [.regWrite (x.extractLsb' 32 8) (x.extractLsb' 0 32)]

/-- The encoded form an event presents to the decoder; `Reset` has none (30_encoding.md section 2). -/
def Event.encoding : Event → Option Encoding
  | .reset => none
  | .regWrite off v => some (.regWrite (off ++ v))
  | .regRead off => some (.regRead off)
  | .inByte b => some (encodeInByte b)
  | .endMark => some encodeEndMark

/-- The output beat's nine bits `out_end ‖ out_data[7:0]` (R99, 20_memory.md R72): an end beat carries the error code in its low three data bits. -/
def OutEvent.beat : OutEvent → BitVec 9
  | .out b => 0#1 ++ b
  | .outEnd e => 1#1 ++ (0#5 ++ e.bits)

/-! ## Words as the opcode table numbers them -/

/-- The encoded form of the `nbits` low bits of `w`. Sixteen bits are read as a code word: a beat's nine
bits, padded to two bytes, could be meant as well (log 10). -/
def tableEncoding (nbits w : Nat) : Option Encoding :=
  match nbits with
  | 8 => some (.regRead (BitVec.ofNat 8 w))
  | 16 => some (.code16 (BitVec.ofNat 16 w))
  | 32 => some (.cmd32 (BitVec.ofNat 32 w))
  | 40 => some (.regWrite (BitVec.ofNat 40 w))
  | 64 => some (.hdr64 (BitVec.ofNat 64 w))
  | _ => none

/-- The context right after reset (10_state.md R41). -/
def resetCtx : Ctx := { mode := .idle, err := .none, next := 256#17 }

/-- The instruction the decoder reads from an instruction word as the opcode table numbers its bits, in the context right after reset. -/
def decodeTableWord (nbits w : Nat) : Option Instr :=
  match tableEncoding nbits w with
  | none => none
  | some e => (decode resetCtx e).toOption

end Sys2Proof
end

