-- ==== Sys2Proof/Machine/State.lean ====
section
/-! DEFINITION. The machine's state (10_state.md), as plain data, its reset state (R41), and the reasons a step can stop. -/

namespace Sys2Proof.Machine

/-- One 24-bit word of the dictionary RAM (10_state.md R22): the pair `(prefix, suffix)`. -/
structure Entry where
  /-- `prefix`, a Code. -/
  pre : Code
  /-- `suffix`, a Symbol. -/
  suf : Sym
deriving DecidableEq, Repr

/-- The dictionary RAM: the words that hold a value, by code, codes strictly rising. A word that is not
listed holds no value (log 6). -/
abbrev Memory := List (Nat × Entry)

/-- The state. The first part is the tuple of 10_state.md; the second is the host side of the two streams
and the register port; `freeIx` is the model's own. -/
structure State where
  /-- `MODE` (R35). -/
  mode    : Mode
  /-- `OP`: the `MODE` value of the current or last operation (R36). -/
  op      : Mode
  /-- `DONE` (R36). -/
  done    : Bool
  /-- `ERR` (R36). -/
  err     : ErrCode
  /-- `Z` (R36). -/
  z       : Bool
  /-- `ERRINFO` (R37). -/
  errinfo : Word
  /-- `ROWS` (R33). -/
  rows    : Word
  /-- `COLS` (R33). -/
  cols    : Word
  /-- `ICNT` (R34), an unbounded natural (log 5). -/
  icnt    : Nat
  /-- `OCNT` (R34), an unbounded natural (log 5). -/
  ocnt    : Nat
  /-- `NEXT` (R21). -/
  next    : BitVec 17
  /-- `DICT` (R22). -/
  dict    : Memory
  /-- `W` (R30). -/
  w       : Code
  /-- `WV` (R30). -/
  wv      : Bool
  /-- `HB` (R31). -/
  hb      : BitVec 8
  /-- `HBV` (R31). -/
  hbv     : Bool
  /-- `HDR` (R32). -/
  hdr     : BitVec 64
  /-- `HCNT` (R32). -/
  hcnt    : BitVec 4
  /-- The events the host has presented and the core has not taken, oldest first (00_scope.md R2, log 1). -/
  pending : List Event
  /-- Every output beat emitted, oldest first (00_scope.md R3, log 7). -/
  outs    : List OutEvent
  /-- Every word a register read has returned, oldest first (40_commands.md R120, log 7). -/
  reads   : List Word
  /-- The model's own counter: which free value the next Reset event takes (log 4). -/
  freeIx  : Nat
deriving DecidableEq, Repr

/-- Why the machine stops with a fault. No well-formed state reaches one (10_state.md R45, log 16). -/
inductive Fault where
  /-- Raised by a read of a dictionary word that is not present, `k ≥ NEXT`, or that holds no value
  (10_state.md R26: "reading it is a model bug, to be made a fault"). Safe. -/
  | absentEntry (k : Code)
  /-- Raised by an append at `NEXT = 65536`, which would address a word that does not exist
  (20_memory.md R62, 42_decode.md R176); every rule tests for it first. Safe. -/
  | dictionaryFull
  /-- Raised by an expansion whose chain of prefixes does not come down (10_state.md R27 excludes it). Safe. -/
  | endlessChain (k : Code)
deriving DecidableEq, Repr

/-- Why an instruction has no meaning in a state. -/
inductive Refusal where
  /-- No meaning written yet, by mnemonic. Raised by `exec` only. Safe. -/
  | notModelled (mnemonic : String)
  /-- A register access that is not a whole aligned word: outside the core (20_memory.md R65, 93 I14
  `refuse`, log 9). Raised by `RD`, `WR` and the step's decoder. Safe. -/
  | misalignedAccess (off : BitVec 8)
  /-- The condition of the instruction's row does not hold, so the event is not this row (40_commands.md
  R131, R135). Raised by the meanings of the beat, code and header rows and of ill-formed terms; the step
  never asks for one (log 8). Safe. -/
  | outsideCondition (mnemonic : String)
deriving DecidableEq, Repr

/-- The outcome of a meaning. -/
abbrev Result := Host.Outcome State Fault Refusal

/-- The state after reset (10_state.md R41). `W`, `HB`, `HDR` are unspecified there and 0 here (DESIGN
CHOICE, log 2); `freeIx` is the model's own (DESIGN CHOICE, log 4). -/
def State.reset : State where
  mode := .idle
  op := .idle
  done := false
  err := .none
  z := false
  errinfo := 0
  rows := 0
  cols := 0
  icnt := 0
  ocnt := 0
  next := 256#17
  dict := []
  w := 0
  wv := false
  hb := 0
  hbv := false
  hdr := 0
  hcnt := 0
  pending := []
  outs := []
  reads := []
  freeIx := 0

end Sys2Proof.Machine
end

