-- ==== Sys2Proof/Machine/Flags.lean ====
section
/-! DEFINITION. The status flags, the `STATUS` word and the level outputs (10_state.md R36, 60_exceptions.md R230). -/

namespace Sys2Proof.Machine

/-- `BUSY`: `MODE ≠ IDLE`, not a stored bit (R35, R36). -/
def State.busy (s : State) : Bool := s.mode ≠ .idle

/-- The `Z` flag of an operation that ends now: `OCNT = 0` (40_commands.md R132). -/
def zFlag (s : State) : Bool := s.ocnt = 0

/-- The `STATUS` word (R36): `OP` [10:8], `Z` [5], `ERR` [4:2], `DONE` [1], `BUSY` [0], the rest 0. -/
def statusWord (s : State) : Word :=
  0#21 ++ s.op.bits ++ 0#2 ++ BitVec.ofBool s.z ++ s.err.bits ++ BitVec.ofBool s.done ++ BitVec.ofBool s.busy

/-- The level output `done_o` (60_exceptions.md R230). -/
def State.doneO (s : State) : Bool := s.done

/-- The level output `err_o` (R230). -/
def State.errO (s : State) : Bool := s.err ≠ .none

/-- What the decoder reads of the state to tell rows apart (40_commands.md R135, 30_encoding.md R91). -/
def State.ctx (s : State) : Ctx := { mode := s.mode, err := s.err, next := s.next }

/-- A code word can be executed: a DEC payload, or a DCMP payload after the eighth header byte, with no
fault latched (42_decode.md R160, R161). -/
def State.payloadOpen (s : State) : Bool :=
  s.err = .none && (s.mode = .dec || (s.mode = .dcmp && s.hcnt = 8#4))

/-- The matcher's input is open: `MODE ∈ {ENC, CMP}` and no fault latched (41_encode.md). -/
def State.samplesOpen (s : State) : Bool :=
  s.err = .none && (s.mode = .enc || s.mode = .cmp)

end Sys2Proof.Machine
end

