-- ==== Sys2Proof/Machine/Operands.lean ====
section
/-! DEFINITION. How operands are assembled from beats and read from the register block: the half-code
latch, the header shift register, the register map, the grid size. -/

namespace Sys2Proof.Machine

/-- `k = HB ‖ b`: the code completed by its low byte (42_decode.md R161). -/
def codeOf (hb b : BitVec 8) : Code := hb ++ b

/-- `zext_16(c)`: the literal code of a symbol (41_encode.md R140). -/
def literal (c : Sym) : Code := c.setWidth 16

/-- The header register after one more byte (43_frame.md R193): the first byte is zero-extended, a later
one is shifted in below `HDR[55:0]`. -/
def hdrShift (hcnt : BitVec 4) (hdr : BitVec 64) (b : Sym) : BitVec 64 :=
  if hcnt = 0 then b.setWidth 64 else hdr.extractLsb' 0 56 ++ b

/-- `ROWS × COLS`, the exact product (43_frame.md R200). -/
def gridSize (s : State) : Nat := s.rows.toNat * s.cols.toNat

/-- Bits `[31:0]` of a 64-bit counter (10_state.md R38). -/
def counterLow (n : Nat) : Word := (BitVec.ofNat 64 n).extractLsb' 0 32

/-- Bits `[63:32]` of a 64-bit counter (R38). -/
def counterHigh (n : Nat) : Word := (BitVec.ofNat 64 n).extractLsb' 32 32

/-- The register map (10_state.md R38, R39, R40): what a read at byte offset `off` returns; `CTRL` and the
reserved offsets read 0. -/
def regWord (s : State) (off : BitVec 8) : Word :=
  if off = 0x04#8 then statusWord s
  else if off = 0x08#8 then s.rows
  else if off = 0x0C#8 then s.cols
  else if off = 0x10#8 then counterLow s.icnt
  else if off = 0x14#8 then counterHigh s.icnt
  else if off = 0x18#8 then counterLow s.ocnt
  else if off = 0x1C#8 then counterHigh s.ocnt
  else if off = 0x20#8 then s.next.setWidth 32
  else if off = 0x24#8 then s.errinfo
  else 0#32

/-- Where a register stands in the host's address space (00_scope.md section 4). -/
def regAddress (off : BitVec 8) : Nat := Config.regBase + off.toNat

end Sys2Proof.Machine
end

