-- ==== Sys2Proof/Machine/Ops.lean ====
section
/-! DEFINITION. The named operations every meaning is written over: the dictionary RAM (20_memory.md),
sequences, the matcher, the outputs, the start and end of an operation, the fault entry, reset. -/

namespace Sys2Proof.Machine

/-- Runs `f` on the next state; a fault or refusal stops the rest of a rule's pseudocode. -/
def andThen (r : Result) (f : State → Result) : Result :=
  match r with
  | .next s => f s
  | .fault e => .fault e
  | .refused e => .refused e

/-! ## The dictionary RAM -/

/-- The words from code `lo` up are listed by strictly rising code, each a code of the RAM. -/
def Memory.sortedFrom : Nat → Memory → Bool
  | _, [] => true
  | lo, (a, _) :: m => decide (lo ≤ a) && decide (a < Config.dictCap) && Memory.sortedFrom (a + 1) m

/-- The canonical form: codes strictly rising, all from 256 to 65535 (10_state.md R22). -/
def Memory.wf (m : Memory) : Bool := Memory.sortedFrom Config.firstDyn m

/-- The word at code `a`; a word that is not listed holds no value (log 6). -/
def Memory.get (m : Memory) (a : Nat) : Option Entry :=
  match m with
  | [] => none
  | (b, e) :: m => if a = b then some e else Memory.get m a

/-- Writes the word at code `a`, keeping the codes rising. -/
def Memory.set (m : Memory) (a : Nat) (e : Entry) : Memory :=
  match m with
  | [] => [(a, e)]
  | (b, f) :: m =>
    if a < b then (a, e) :: (b, f) :: m
    else if a = b then (a, e) :: m
    else (b, f) :: Memory.set m a e

/-- `DictRead(k)` (20_memory.md R61): a present dynamic entry; any other read is a fault (10_state.md R26). -/
def dictRead (d : Memory) (next : Nat) (k : Code) : Except Fault Entry :=
  if Config.firstDyn ≤ k.toNat ∧ k.toNat < next then
    match d.get k.toNat with
    | some e => .ok e
    | none => .error (.absentEntry k)
  else .error (.absentEntry k)

/-- `DictAppend(p, c)` (R62): word `NEXT` receives `(p, c)` and `NEXT` rises by 1; a full dictionary has no word to write. -/
def dictAppend (p : Code) (c : Sym) (s : State) : Result :=
  if s.next.toNat < Config.dictCap then
    .next { s with dict := s.dict.set s.next.toNat ⟨p, c⟩, next := s.next + 1#17 }
  else .fault .dictionaryFull

/-- `Match(w, c)` (R63): the least present dynamic code that holds `(w, c)`. -/
def matchEntry (d : Memory) (next : Nat) (w : Code) (c : Sym) : Option Code :=
  (d.find? fun x => decide (Config.firstDyn ≤ x.1) && decide (x.1 < next) && decide (x.2 = ⟨w, c⟩)).map
    fun x => BitVec.ofNat 16 x.1

/-! ## Sequences (10_state.md R24, R25)

The recursion follows the chain of prefixes, which comes down by R27; `fuel` bounds it. -/

/-- `Seq(k)` by recursion along the prefixes (R24). -/
def seqAux (d : Memory) (next : Nat) : Nat → Code → Except Fault (List Sym)
  | 0, k => .error (.endlessChain k)
  | fuel + 1, k =>
    if k.toNat < Config.firstDyn then .ok [codeLow k]
    else
      match dictRead d next k with
      | .error f => .error f
      | .ok e =>
        match seqAux d next fuel e.pre with
        | .error f => .error f
        | .ok l => .ok (l ++ [e.suf])

/-- `First(k)` by recursion along the prefixes (R25). -/
def firstAux (d : Memory) (next : Nat) : Nat → Code → Except Fault Sym
  | 0, k => .error (.endlessChain k)
  | fuel + 1, k =>
    if k.toNat < Config.firstDyn then .ok (codeLow k)
    else
      match dictRead d next k with
      | .error f => .error f
      | .ok e => firstAux d next fuel e.pre

/-- `Len(k)` by recursion along the prefixes (R25). -/
def lenAux (d : Memory) (next : Nat) : Nat → Code → Except Fault Nat
  | 0, k => .error (.endlessChain k)
  | fuel + 1, k =>
    if k.toNat < Config.firstDyn then .ok 1
    else
      match dictRead d next k with
      | .error f => .error f
      | .ok e =>
        match lenAux d next fuel e.pre with
        | .error f => .error f
        | .ok n => .ok (n + 1)

/-- `Seq(k)`: the sequence entry `k` stands for (R24). -/
def seqOf (s : State) (k : Code) : Except Fault (List Sym) := seqAux s.dict s.next.toNat (k.toNat + 1) k

/-- `First(k)`: its first symbol (R25). -/
def firstOf (s : State) (k : Code) : Except Fault Sym := firstAux s.dict s.next.toNat (k.toNat + 1) k

/-- `Len(k)`: its length (R25). -/
def lenOf (s : State) (k : Code) : Except Fault Nat := lenAux s.dict s.next.toNat (k.toNat + 1) k

/-! ## Outputs (00_scope.md section 6) -/

/-- `Emit(b)` for each byte, in order. -/
def emitBytes (bs : List Sym) (s : State) : State := { s with outs := s.outs ++ bs.map .out }

/-- `EmitEnd(e)`. -/
def emitEnd (e : ErrCode) (s : State) : State := { s with outs := s.outs ++ [.outEnd e] }

/-- `EmitCode(k)` (30_encoding.md R92). -/
def emitCode (k : Code) (s : State) : State :=
  { emitBytes (codeBytes k) s with ocnt := s.ocnt + 2 }

/-- `EmitSeq(k)` (42_decode.md R171): the symbols of `Seq(k)`, first first, and `OCNT <- OCNT + Len(k)`. -/
def emitSeq (k : Code) (s : State) : Result :=
  match seqOf s k with
  | .error f => .fault f
  | .ok l =>
    match lenOf s k with
    | .error f => .fault f
    | .ok n => .next { emitBytes l s with ocnt := s.ocnt + n }

/-- One input byte is counted: `ICNT <- ICNT + 1`. -/
def countIn (s : State) : State := { s with icnt := s.icnt + 1 }

/-! ## Starting and ending an operation -/

/-- START, the common part (40_commands.md R123). -/
def startOp (m : Mode) (s : State) : State :=
  { s with
    mode := m, op := m
    done := false, err := .none, z := false, errinfo := 0
    icnt := 0, ocnt := 0
    next := 256#17
    wv := false, hbv := false, hcnt := 0 }

/-- A command that starts `m`: taken while idle (R123), ignored while busy (R130). -/
def startWhenIdle (m : Mode) (s : State) : State :=
  if s.busy then s else startOp m s

/-- The end of an operation, the common last part of every `End` step (R132). -/
def endOp (s : State) : State :=
  emitEnd s.err { s with z := zFlag s, done := true, mode := .idle }

/-! ## Faults of the core (60_exceptions.md) -/

/-- The fault entry `raise <Error>(info)` (R226): `ERR` and `ERRINFO` are latched and nothing else changes. -/
def raiseError (e : ErrCode) (info : Word) (s : State) : State :=
  { s with err := e, errinfo := info }

/-- `raise DictionaryUnderflow(k)` (R222): `ERRINFO <- zext_32(k)`. -/
def raiseUnderflow (k : Code) (s : State) : State :=
  raiseError .dictionaryUnderflow (k.setWidth 32) s

/-! ## Reset (70_reset_and_hazards.md R250) -/

/-- The `Reset` event: every field at its reset value (10_state.md R41); `W`, `HB` and `HDR` are unspecified
and take free values (log 3); what the host has presented and what has left the core stay as they are (log 15). -/
def resetEvent (s : State) : State :=
  { State.reset with
    w := Config.freeW s.freeIx
    hb := Config.freeHB s.freeIx
    hdr := Config.freeHDR s.freeIx
    pending := s.pending
    outs := s.outs
    reads := s.reads
    freeIx := s.freeIx + 1 }

/-! ## Taking an event -/

/-- The event is a beat of the input stream. -/
def isBeat : Event → Bool
  | .inByte _ | .endMark => true
  | .reset | .regWrite _ _ | .regRead _ => false

/-- The first event that has a step, and the events left: while busy every event has one; while idle a beat
has none and waits, in order (40_commands.md R131, log 1). -/
def takeEvent (busy : Bool) : List Event → Option (Event × List Event)
  | [] => none
  | e :: es =>
    if busy || !isBeat e then some (e, es)
    else
      match takeEvent busy es with
      | none => none
      | some (x, rest) => some (x, e :: rest)

/-- The host presents more events. -/
def State.present (s : State) (es : List Event) : State := { s with pending := s.pending ++ es }

end Sys2Proof.Machine
end

