-- ==== Sys2Proof/Machine/Commands.lean ====
section
/-! DEFINITION. The host commands (40_commands.md R123 to R130): the meanings of `NOP`, `ENC`, `DEC`, `CMP`, `DCMP` and `CMD.RESERVED`. -/

namespace Sys2Proof.Machine

/-- `NOP` (R128): no effect in any state. -/
def execNop (s : State) : Result := .next s

/-- `ENC` (R124). -/
def execEnc (s : State) : Result := .next (startWhenIdle .enc s)

/-- `DEC` (R125). -/
def execDec (s : State) : Result := .next (startWhenIdle .dec s)

/-- `CMP` (R126): START, then the header bytes, which `OCNT` does not count. -/
def execCmp (s : State) : Result :=
  if s.busy then .next s
  else .next (emitBytes (hdrBytes s.rows s.cols) (startOp .cmp s))

/-- `DCMP` (R127). -/
def execDcmp (s : State) : Result := .next (startWhenIdle .dcmp s)

/-- `CMD.RESERVED` (R129): ignored. A word that is one of the five commands is no reserved word. -/
def execCmdReserved (v : Word) (s : State) : Result :=
  if (Instr.cmdReserved v).wellFormed then .next s else .refused (.outsideCondition "CMD.RESERVED")

end Sys2Proof.Machine
end

