-- ==== Sys2Proof/Machine/Decoder.lean ====
section
/-! DEFINITION. The decoder (42_decode.md): the meanings of the four code-word rows, the parser that
assembles codes from bytes, and the meanings of `DEC.IN` and `DEC.END`. -/

namespace Sys2Proof.Machine

/-- An existing entry as a later code: R164 while the dictionary is not full, R165 when it is. -/
def existingEntry (k : Code) (s : State) : Result :=
  andThen (emitSeq k s) fun t =>
    if t.next.toNat < Config.dictCap then
      match firstOf t k with
      | .error f => .fault f
      | .ok c => andThen (dictAppend t.w c t) fun u => .next { u with w := k }
    else .next { t with w := k }

/-- The first code of a stream, a literal (R162). -/
def firstLiteral (c : Sym) (s : State) : State :=
  { emitBytes [c] s with ocnt := s.ocnt + 1, w := literal c, wv := true }

/-- `KWK` as a later code (R166): the entry `w ‖ w[0]` is appended first and expanded second. -/
def undefinedYet (k : Code) (s : State) : Result :=
  match firstOf s s.w with
  | .error f => .fault f
  | .ok c =>
    andThen (dictAppend s.w c s) fun t =>
      andThen (emitSeq k t) fun u => .next { u with w := k }

/-- The condition of a code-word row: a payload is open and the code is of that class (30_encoding.md R91). -/
def codeAdmitted (cl : CodeClass) (k : Code) (s : State) : Bool :=
  s.payloadOpen && decide (classify s.next k = cl)

/-- `LIT` (R162, R164, R165). -/
def execLit (c : Sym) (s : State) : Result :=
  if codeAdmitted .lit (literal c) s then
    if s.wv then existingEntry (literal c) s else .next (firstLiteral c s)
  else .refused (.outsideCondition "LIT")

/-- `REF` (R164, R165); as a first code it is no literal (R163, log 18). -/
def execRef (k : Code) (s : State) : Result :=
  if codeAdmitted .ref k s then
    if s.wv then existingEntry k s else .next (raiseUnderflow k s)
  else .refused (.outsideCondition "REF")

/-- `KWK` (R166); as a first code, `DictionaryUnderflow` (R163). -/
def execKwk (k : Code) (s : State) : Result :=
  if codeAdmitted .kwk k s then
    if s.wv then undefinedYet k s else .next (raiseUnderflow k s)
  else .refused (.outsideCondition "KWK")

/-- `BAD` (R167, R163): `DictionaryUnderflow`. -/
def execBad (k : Code) (s : State) : Result :=
  if codeAdmitted .bad k s then .next (raiseUnderflow k s)
  else .refused (.outsideCondition "BAD")

/-- Executes a complete code by its class (R161, 30_encoding.md R91). -/
def runCode (k : Code) (s : State) : Result :=
  match classify s.next k with
  | .lit => execLit (codeLow k) s
  | .ref => execRef k s
  | .kwk => execKwk k s
  | .bad => execBad k s

/-- One payload byte reaches the parser: the high byte is latched (R160), the low byte completes a code,
which is executed in the same step (R161). -/
def parserStep (b : Sym) (s : State) : Result :=
  if s.hbv then runCode (codeOf s.hb b) { countIn s with hbv := false }
  else .next { countIn s with hb := b, hbv := true }

/-- `DEC.IN` (R160, R161). -/
def execDecIn (b : Sym) (s : State) : Result :=
  if (Instr.decIn b).admitted s.ctx then parserStep b s else .refused (.outsideCondition "DEC.IN")

/-- `DEC.END` (R168 to R170, R132): half a code pending is `MalformedStream`; an empty stream is none. -/
def execDecEnd (s : State) : Result :=
  if Instr.decEnd.admitted s.ctx then
    .next (endOp (if s.hbv then raiseError .malformedStream 0 s else s))
  else .refused (.outsideCondition "DEC.END")

end Sys2Proof.Machine
end

