-- ==== Sys2Proof/Machine/Drain.lean ====
section
/-! DEFINITION. The drain after a fault (40_commands.md R133): the meanings of `DRAIN.IN` and `DRAIN.END`. -/

namespace Sys2Proof.Machine

/-- `DRAIN.IN` (R133): the byte is taken and discarded. -/
def execDrainIn (b : Sym) (s : State) : Result :=
  if (Instr.drainIn b).admitted s.ctx then .next s else .refused (.outsideCondition "DRAIN.IN")

/-- `DRAIN.END` (R133): R132 alone, with the latched error. -/
def execDrainEnd (s : State) : Result :=
  if Instr.drainEnd.admitted s.ctx then .next (endOp s) else .refused (.outsideCondition "DRAIN.END")

end Sys2Proof.Machine
end

