-- ==== Sys2Proof/Machine/Encoder.lean ====
section
/-! DEFINITION. The encoder (41_encode.md): the matcher's step and the flush, and the meanings of `ENC.IN` and `ENC.END`. -/

namespace Sys2Proof.Machine

/-- One symbol reaches the matcher: rules R140 to R143, chosen by `WV`, `Match(W, c)` and `NEXT`. -/
def matcherStep (c : Sym) (s : State) : Result :=
  if s.wv then
    match matchEntry s.dict s.next.toNat s.w c with
    | some k => .next { countIn s with w := k }
    | none =>
      if s.next.toNat < Config.dictCap then
        andThen (dictAppend s.w c (emitCode s.w (countIn s))) fun t => .next { t with w := literal c }
      else .next { emitCode s.w (countIn s) with w := literal c }
  else .next { countIn s with w := literal c, wv := true }

/-- The flush (R144): the code of a non-empty working sequence is emitted; an empty one emits nothing (R145). -/
def flush (s : State) : State :=
  if s.wv then { emitCode s.w s with wv := false } else s

/-- `ENC.IN` (R140 to R143). -/
def execEncIn (c : Sym) (s : State) : Result :=
  if (Instr.encIn c).admitted s.ctx then matcherStep c s else .refused (.outsideCondition "ENC.IN")

/-- `ENC.END` (R144, R145, R132). -/
def execEncEnd (s : State) : Result :=
  if Instr.encEnd.admitted s.ctx then .next (endOp (flush s)) else .refused (.outsideCondition "ENC.END")

end Sys2Proof.Machine
end

