-- ==== Sys2Proof/Machine/Framed.lean ====
section
/-! DEFINITION. The framed operations (43_frame.md): the meanings of `CMP.IN`, `CMP.END`, `DCMP.IN`, `DCMP.END` and `HDR`. -/

namespace Sys2Proof.Machine

/-- `CMP.IN` (R191): a sample is handled exactly as a symbol of `ENC.IN`. -/
def execCmpIn (c : Sym) (s : State) : Result :=
  if (Instr.cmpIn c).admitted s.ctx then matcherStep c s else .refused (.outsideCondition "CMP.IN")

/-- `CMP.END` (R192): a wrong sample count is `GridMismatch` and flushes nothing. -/
def execCmpEnd (s : State) : Result :=
  if Instr.cmpEnd.admitted s.ctx then
    .next (endOp (if s.icnt ≠ gridSize s then raiseError .gridMismatch 0 s else flush s))
  else .refused (.outsideCondition "CMP.END")

/-- `HDR`: the header is complete (R194). The header word stands in `HDR`, its eight bytes are counted
(R193), and `ROWS` and `COLS` take its halves. -/
def execHdr (rows cols : Word) (s : State) : Result :=
  if s.mode = .dcmp ∧ s.err = .none ∧ s.hcnt.toNat < Config.hdrBytes then
    .next { s with hdr := rows ++ cols, hcnt := 8#4, rows := rows, cols := cols }
  else .refused (.outsideCondition "HDR")

/-- One header byte (R193): shifted into `HDR` and counted; the eighth completes the header (R194). -/
def headerStep (b : Sym) (s : State) : Result :=
  if s.hcnt.toNat + 1 = Config.hdrBytes then
    execHdr (hdrRows (hdrShift s.hcnt s.hdr b)) (hdrCols (hdrShift s.hcnt s.hdr b)) s
  else .next { s with hdr := hdrShift s.hcnt s.hdr b, hcnt := s.hcnt + 1#4 }

/-- `DCMP.IN` (R193 to R195): a header byte while `HCNT < 8`, a payload byte afterwards. -/
def execDcmpIn (b : Sym) (s : State) : Result :=
  if (Instr.dcmpIn b).admitted s.ctx then
    if s.hcnt.toNat < Config.hdrBytes then headerStep b s else parserStep b s
  else .refused (.outsideCondition "DCMP.IN")

/-- The checks at the end of a frame (R196): the first true test decides. -/
def frameCheck (s : State) : ErrCode :=
  if s.hcnt.toNat < Config.hdrBytes then .malformedStream
  else if s.hbv then .malformedStream
  else if s.icnt = 0 ∧ 0 < gridSize s then .malformedStream
  else if s.ocnt ≠ gridSize s then .sizeMismatch
  else .none

/-- `DCMP.END` (R196, R132). -/
def execDcmpEnd (s : State) : Result :=
  if Instr.dcmpEnd.admitted s.ctx then
    .next (endOp (if frameCheck s = .none then s else raiseError (frameCheck s) 0 s))
  else .refused (.outsideCondition "DCMP.END")

end Sys2Proof.Machine
end

