-- ==== Sys2Proof/Machine/Registers.lean ====
section
/-! DEFINITION. Register accesses (40_commands.md R120 to R122): the meanings of `RD` and `WR`. -/

namespace Sys2Proof.Machine

/-- `RD` (R120): the word at `off` is handed to the host; the core's state does not change. -/
def execRd (off : BitVec 8) (s : State) : Result :=
  if aligned off then .next { s with reads := s.reads ++ [regWord s off] }
  else .refused (.misalignedAccess off)

/-- The effect of a register write at any offset but `CTRL` (R121, R122): `ROWS` and `COLS` are written while
idle; every other write is ignored. -/
def writeReg (off : BitVec 8) (v : Word) (s : State) : State :=
  if s.busy then s
  else if off = 0x08#8 then { s with rows := v }
  else if off = 0x0C#8 then { s with cols := v }
  else s

/-- `WR` (R121, R122); at offset 0 a write is a command word, not this row. -/
def execWr (off : BitVec 8) (v : Word) (s : State) : Result :=
  if aligned off then
    if off = 0#8 then .refused (.outsideCondition "WR") else .next (writeReg off v s)
  else .refused (.misalignedAccess off)

end Sys2Proof.Machine
end

