-- ==== Sys2Proof/Machine/Dispatch.lean ====
section
/-! DEFINITION. The meaning of every instruction, one arm each. -/

namespace Sys2Proof.Machine

def exec (i : Instr) (s : State) : Host.Outcome State Fault Refusal :=
  match i with
  | .nop => Sys2Proof.Machine.execNop s
  | .enc => Sys2Proof.Machine.execEnc s
  | .dec => Sys2Proof.Machine.execDec s
  | .cmp => Sys2Proof.Machine.execCmp s
  | .dcmp => Sys2Proof.Machine.execDcmp s
  | .cmdReserved v => Sys2Proof.Machine.execCmdReserved v s
  | .encIn b => Sys2Proof.Machine.execEncIn b s
  | .encEnd => Sys2Proof.Machine.execEncEnd s
  | .decIn b => Sys2Proof.Machine.execDecIn b s
  | .decEnd => Sys2Proof.Machine.execDecEnd s
  | .cmpIn b => Sys2Proof.Machine.execCmpIn b s
  | .cmpEnd => Sys2Proof.Machine.execCmpEnd s
  | .dcmpIn b => Sys2Proof.Machine.execDcmpIn b s
  | .dcmpEnd => Sys2Proof.Machine.execDcmpEnd s
  | .drainIn b => Sys2Proof.Machine.execDrainIn b s
  | .drainEnd => Sys2Proof.Machine.execDrainEnd s
  | .lit c => Sys2Proof.Machine.execLit c s
  | .ref k => Sys2Proof.Machine.execRef k s
  | .kwk k => Sys2Proof.Machine.execKwk k s
  | .bad k => Sys2Proof.Machine.execBad k s
  | .hdr rows cols => Sys2Proof.Machine.execHdr rows cols s
  | .rd off => Sys2Proof.Machine.execRd off s
  | .wr off v => Sys2Proof.Machine.execWr off v s

end Sys2Proof.Machine
end

