-- ==== Sys2Proof/Machine/Step.lean ====
section
/-! DEFINITION. One step (00_scope.md R1): take the first event that has a step, decode it in the state's
context, run its meaning. With no such event the machine waits. -/

namespace Sys2Proof.Machine

/-- The refusal that reports a decoding error. -/
def decodeRefusal : DecodeError → Refusal
  | .beatWhileIdle => .outsideCondition "BEAT"
  | .misaligned off => .misalignedAccess off

/-- The step of one event, already taken from the pending events. -/
def stepEvent (e : Event) (s : State) : Host.Outcome State Fault Refusal :=
  match e.encoding with
  | none => .next (resetEvent s)
  | some x =>
    match decode s.ctx x with
    | .ok i => exec i s
    | .error d => .refused (decodeRefusal d)

/-- One step of the machine. -/
def step (s : State) : Host.Outcome State Fault Refusal :=
  match takeEvent s.busy s.pending with
  | none => .next s
  | some (e, rest) => stepEvent e { s with pending := rest }

/-- An open decode operation whose half-code latch holds `hb` (the place where a code word is fetched). -/
def atHalfCode (hb : BitVec 8) (s : State) : State :=
  { s with mode := .dec, op := .dec, done := false, err := .none, z := false, errinfo := 0, hb := hb, hbv := true, hcnt := 0 }

/-- An open framed decompress that has taken all header bytes but the last (the place where a header is fetched). -/
def atLastHeaderByte (h : BitVec 64) (s : State) : State :=
  { s with
    mode := .dcmp, op := .dcmp, done := false, err := .none, z := false, errinfo := 0
    hbv := false, hcnt := 7#4, hdr := 0#8 ++ h.extractLsb' 8 56 }

/-- Puts an encoded form where the next step fetches: a bus access or a beat at the head of the pending
events; a code or header with all its bytes but the last already parsed and the last one at the head (log 10). -/
def placeEncoding (x : Encoding) (s : State) : State :=
  match x with
  | .cmd32 v => { s with pending := .regWrite 0#8 v :: s.pending }
  | .beat b => { s with pending := beatEvent b :: s.pending }
  | .code16 k => atHalfCode (codeHigh k) { s with pending := .inByte (codeLow k) :: s.pending }
  | .hdr64 h => atLastHeaderByte h { s with pending := .inByte (h.extractLsb' 0 8) :: s.pending }
  | .regRead a => { s with pending := .regRead a :: s.pending }
  | .regWrite x => { s with pending := .regWrite (x.extractLsb' 32 8) (x.extractLsb' 0 32) :: s.pending }

/-- The state with the instruction word `w`, its bits numbered as the opcode table numbers them, where the next step fetches it. -/
def State.withFetchWord (s : State) (nbits w : Nat) : State :=
  match tableEncoding nbits w with
  | none => s
  | some x => placeEncoding x s

end Sys2Proof.Machine
end

