-- ==== Sys2Proof/Machine/Grid.lean ====
section
/-! DEFINITION. What a host computes around the framed operations: the row-major sample order (43_frame.md
R190) and the compression ratio (R198, 60_exceptions.md R224). -/

namespace Sys2Proof.Machine

/-- The number of the sample of row `r`, column `c` (R190). -/
def sampleIndex (cols r c : Nat) : Nat := r * cols + c

/-- The row of sample `i` (R190). -/
def sampleRow (cols i : Nat) : Nat := i / cols

/-- The column of sample `i` (R190). -/
def sampleCol (cols i : Nat) : Nat := i % cols

/-- The flat sequence of a grid, row by row (R190). -/
def flattenGrid (rows cols : Nat) (g : Nat → Nat → Sym) : List Sym :=
  (List.range rows).flatMap fun r => (List.range cols).map (g r)

/-- What asking for the compression ratio gives. -/
inductive RatioResult where
  /-- The exact rational of R198. -/
  | ratio (q : Rat)
  /-- The error of R224. -/
  | error (e : ErrCode)
  /-- R198 defines the ratio only after a `CMP` that ended with `ERR = 0` (log 14). -/
  | noResult
deriving DecidableEq

/-- The compression ratio `(ROWS × COLS) / OCNT` (R198); with `Z = 1` it is `DivideByZero` (R224). -/
def compressionRatio (s : State) : RatioResult :=
  if s.op = .cmp ∧ s.done = true ∧ s.err = .none then
    if s.z then .error .divideByZero else .ratio ((gridSize s : Rat) / (s.ocnt : Rat))
  else .noResult

end Sys2Proof.Machine
end

