-- ==== Sys2Proof/Machine/Trace.lean ====
section
/-! DEFINITION. The trace notation's pseudo-operations (30_encoding.md R101), the frame layout (R95), and
the result of an operation as the source's function would return it (60_exceptions.md R237). -/

namespace Sys2Proof.Machine

/-- `INB b0 … bn`: one data beat a byte (R101). -/
def bytesIn (bs : List Sym) : List Event := bs.map .inByte

/-- `CODE k`: the two data beats of a code (R101, R90). -/
def codeIn (k : Code) : List Event := bytesIn (codeBytes k)

/-- `HDR r, c`: the eight data beats of a header (R101, R94). -/
def hdrIn (rows cols : Word) : List Event := bytesIn (hdrBytes rows cols)

/-- `GRID r, c`: `WR ROWS, r` and `WR COLS, c` (R101). -/
def gridEvents (rows cols : Word) : List Event := [.regWrite 0x08 rows, .regWrite 0x0C cols]

/-- `START <op>`: the write of the operation's command word (R101, R97). -/
def startEvent (m : Mode) : Event := .regWrite 0x00 (m.bits.setWidth 32)

/-- One operation: START, the whole input buffer, one `End` (00_scope.md R5). -/
def operationEvents (m : Mode) (input : List Sym) : List Event :=
  startEvent m :: (bytesIn input ++ [.endMark])

/-- The stream bytes of a code stream (R90). -/
def streamBytes (ks : List Code) : List Sym := ks.flatMap codeBytes

/-- A frame: the header, then the code stream (R95). -/
def frameBytes (rows cols : Word) (ks : List Code) : List Sym := hdrBytes rows cols ++ streamBytes ks

/-- The data bytes among output beats, in order. -/
def outBytes : List OutEvent → List Sym
  | [] => []
  | .out b :: l => b :: outBytes l
  | .outEnd _ :: l => outBytes l

/-- What the `Ok` of an operation carries (R237). -/
inductive OperationValue where
  /-- `out`: the bytes of an `ENC`, `DEC` or `CMP`. -/
  | bytes (out : List Sym)
  /-- `out` with `(ROWS, COLS)`: the samples of a `DCMP`, in row-major order, and the frame's dimensions
  (43_frame.md R197). -/
  | grid (out : List Sym) (rows cols : Word)
deriving DecidableEq, Repr

/-- The value of the operation that ended in `s` and emitted the bytes `out` (R237): for `DCMP` it carries
`(ROWS, COLS)` as well. -/
def operationValue (s : State) (out : List Sym) : OperationValue :=
  match s.op with
  | .dcmp => .grid out s.rows s.cols
  | .idle | .enc | .dec | .cmp => .bytes out

/-- The result of the operation that ended in `s` with the outputs `l` (R237): `Ok` when its end beat carries
code 0, `Err` of the code otherwise; outputs that do not end in an end beat are no result (R257, log 20). -/
def operationResult (s : State) (l : List OutEvent) : Option (Except ErrCode OperationValue) :=
  match l.getLast? with
  | some (.outEnd e) => some (if e = .none then .ok (operationValue s (outBytes l)) else .error e)
  | _ => none

end Sys2Proof.Machine
end

