-- ==== Sys2Proof/Machine/Source.lean ====
section
/-! DEFINITION. The source's own formulation of the codec, over whole sequences (the algorithms quoted at the
head of 41_encode.md and 42_decode.md, with the cap of 42_decode.md R165 and the first-code rule R163). The
machine is compared with it: 41_encode.md R151, 42_decode.md R175, 60_exceptions.md R237. -/

namespace Sys2Proof.Source

/-- Step 1 of both algorithms: the 256 singleton sequences, index = code. -/
def singletons : List (List Sym) := (List.range Config.firstDyn).map fun i => [BitVec.ofNat 8 i]

/-- The code of a present sequence: its index. -/
def codeOf (dict : List (List Sym)) (w : List Sym) : Code := BitVec.ofNat 16 (dict.idxOf w)

/-- Inserts with the next sequential code, only below the cap. -/
def insert (dict : List (List Sym)) (e : List Sym) : List (List Sym) :=
  if dict.length < Config.dictCap then dict ++ [e] else dict

/-- Steps 3 and 4 of the encoder, from dictionary `dict` and working sequence `w`. -/
def encodeLoop (dict : List (List Sym)) (w : List Sym) : List Sym → List Code
  | [] => if w = [] then [] else [codeOf dict w]
  | c :: cs =>
    if w ++ [c] ∈ dict then encodeLoop dict (w ++ [c]) cs
    else codeOf dict w :: encodeLoop (insert dict (w ++ [c])) [c] cs

/-- The source's `encode`, as a list of codes. -/
def encode (input : List Sym) : List Code := encodeLoop singletons [] input

/-- The entry a later code stands for: an existing one, the "not yet defined" one, or none. -/
def entryOf (dict : List (List Sym)) (w : List Sym) (k : Code) : Option (List Sym) :=
  match dict[k.toNat]? with
  | some e => some e
  | none => if k.toNat = dict.length then some (w ++ w.take 1) else none

/-- Step 3 of the decoder, from dictionary `dict` and previous entry `w`; a code out of range is the error. -/
def decodeLoop (dict : List (List Sym)) (w : List Sym) : List Code → Except Code (List Sym)
  | [] => .ok []
  | k :: ks =>
    match entryOf dict w k with
    | none => .error k
    | some e =>
      match decodeLoop (insert dict (w ++ e.take 1)) e ks with
      | .error j => .error j
      | .ok l => .ok (e ++ l)

/-- The source's `decode`, from a list of codes. -/
def decode : List Code → Except Code (List Sym)
  | [] => .ok []
  | k :: ks =>
    match singletons[k.toNat]? with
    | none => .error k
    | some w =>
      match decodeLoop singletons w ks with
      | .error j => .error j
      | .ok l => .ok (w ++ l)

/-- The source's `compress` of a grid of `rows × cols` samples: the header, then the encoded samples
(43_frame.md R192). -/
def compress (rows cols : Word) (samples : List Sym) : List Sym :=
  Machine.frameBytes rows cols (encode samples)

/-- The source's `decompress` of a frame whose header is `rows`, `cols` and whose payload is the code list `ks`
(43_frame.md R196, R197): an empty payload for a non-empty grid is malformed, and the samples must fill the grid. -/
def decompress (rows cols : Word) (ks : List Code) : Except ErrCode Machine.OperationValue :=
  match decode ks with
  | .error _ => .error .dictionaryUnderflow
  | .ok l =>
    if ks = [] ∧ 0 < rows.toNat * cols.toNat then .error .malformedStream
    else if l.length ≠ rows.toNat * cols.toNat then .error .sizeMismatch
    else .ok (.grid l rows cols)

end Sys2Proof.Source
end

