-- ==== Sys2Proof/Safety.lean ====
section
/-! DEFINITION. What counts as a well-formed state and as a safe run: the invariant of 10_state.md R45 with
the invariants it names, runs of the step, and reachability. -/

namespace Sys2Proof.Machine

/-- The well-formed states (10_state.md R45), with `OP` and `MODE` in step (R36), the errors each operation
can latch (60_exceptions.md R225) and the form of the dictionary's list. -/
structure State.Inv (s : State) : Prop where
  /-- The dictionary's list is canonical, its codes those of the RAM (R22). -/
  memForm : s.dict.wf = true
  /-- `256 ≤ NEXT` (R21). -/
  nextLow : 256 ≤ s.next.toNat
  /-- `NEXT ≤ 65536` (R21). -/
  nextHigh : s.next.toNat ≤ 65536
  /-- Every present dynamic entry holds a pair, and its prefix is smaller than its code (R26, R27). -/
  entries : ∀ k, 256 ≤ k → k < s.next.toNat → ∃ e, s.dict.get k = some e ∧ e.pre.toNat < k
  /-- `WV = 1` implies `W < NEXT` (R30). -/
  working : s.wv = true → s.w.toNat < s.next.toNat
  /-- An operation that has not met its first code or symbol has no dynamic entry (R91, "cannot occur"). -/
  firstCode : s.mode ≠ .idle → s.wv = false → s.next.toNat = 256
  /-- `HCNT ≤ 8` (R32). -/
  headerCount : s.hcnt.toNat ≤ 8
  /-- `HCNT ≠ 0` only in or after a `DCMP` (R45). -/
  headerOwner : s.hcnt.toNat ≠ 0 → s.mode = .dcmp ∨ (s.mode = .idle ∧ s.op = .dcmp)
  /-- `HBV = 1` only when the current or last operation is `DEC` or `DCMP` (R45). -/
  halfOwner : s.hbv = true → s.op = .dec ∨ s.op = .dcmp
  /-- `OP` is the `MODE` value of the operation in progress (R36). -/
  opMode : s.mode ≠ .idle → s.op = s.mode
  /-- `DONE` is clear while an operation is in progress (R36). -/
  doneIdle : s.done = true → s.mode = .idle
  /-- `ERRINFO` is 0 unless `ERR` is `DictionaryUnderflow` (R37). -/
  infoOnly : s.err ≠ .dictionaryUnderflow → s.errinfo = 0
  /-- The encoder never holds one pair twice (R28). -/
  unique : s.mode = .enc ∨ s.mode = .cmp → ∀ j k e,
    256 ≤ j → j < s.next.toNat → 256 ≤ k → k < s.next.toNat →
    s.dict.get j = some e → s.dict.get k = some e → j = k

/-- What the encoder's counters say (41_encode.md R147 to R149). While a matcher is fed: `OCNT` is even, each
code emitted has appended one entry until the dictionary is full, and no more codes leave than symbols
arrive. After an `ENC`: `OCNT` is even, 0 exactly when `ICNT` is, and at most two bytes a symbol. -/
def State.EncoderCounts (s : State) : Prop :=
  (s.mode = .enc ∨ s.mode = .cmp → s.err = .none →
    s.ocnt % 2 = 0 ∧ s.next.toNat = min (256 + s.ocnt / 2) 65536 ∧
    (s.wv = false ↔ s.icnt = 0) ∧ (s.wv = false → s.ocnt = 0) ∧
    (s.wv = true → s.ocnt / 2 + 1 ≤ s.icnt)) ∧
  (s.mode = .idle → s.done = true → s.op = .enc → s.err = .none →
    s.ocnt % 2 = 0 ∧ (s.ocnt = 0 ↔ s.icnt = 0) ∧ s.ocnt / 2 ≤ s.icnt)

/-- What the decoder's counters say (42_decode.md R174). While codes are parsed: `HBV` is the parity of
`ICNT`, `NEXT` follows the number of codes, and every code has emitted at least one symbol. After a
fault-free `DEC`: a code emitted at least one symbol each, and nothing was emitted exactly when nothing came. -/
def State.DecoderCounts (s : State) : Prop :=
  (s.mode = .dec ∨ s.mode = .dcmp → s.err = .none →
    (s.hbv = true ↔ s.icnt % 2 = 1) ∧ (s.wv = false ↔ s.icnt / 2 = 0) ∧
    s.next.toNat = max 256 (min (255 + s.icnt / 2) 65536) ∧
    s.icnt / 2 ≤ s.ocnt ∧ (s.wv = false → s.ocnt = 0)) ∧
  (s.mode = .idle → s.done = true → s.op = .dec → s.err = .none →
    s.icnt % 2 = 0 ∧ s.icnt / 2 ≤ s.ocnt ∧ (s.ocnt = 0 ↔ s.icnt = 0))

/-- Every event the host has presented is one the bus can carry (20_memory.md R65, R66). -/
def State.hostOk (s : State) : Prop := ∀ e ∈ s.pending, e.wellFormed = true

/-- The commands that start an operation (40_commands.md R123). -/
def startsOperation : Instr → Bool
  | .enc | .dec | .cmp | .dcmp => true
  | .nop | .cmdReserved _ | .encIn _ | .encEnd | .decIn _ | .decEnd | .cmpIn _ | .cmpEnd
  | .dcmpIn _ | .dcmpEnd | .drainIn _ | .drainEnd | .lit _ | .ref _ | .kwk _ | .bad _
  | .hdr _ _ | .rd _ | .wr _ _ => false

/-- The end beats, which end an operation (R132). -/
def endsOperation : Instr → Bool
  | .encEnd | .decEnd | .cmpEnd | .dcmpEnd | .drainEnd => true
  | .nop | .enc | .dec | .cmp | .dcmp | .cmdReserved _ | .encIn _ | .decIn _ | .cmpIn _
  | .dcmpIn _ | .drainIn _ | .lit _ | .ref _ | .kwk _ | .bad _ | .hdr _ _ | .rd _ | .wr _ _ => false

/-- The beats. -/
def isBeatRow : Instr → Bool
  | .encIn _ | .encEnd | .decIn _ | .decEnd | .cmpIn _ | .cmpEnd | .dcmpIn _ | .dcmpEnd
  | .drainIn _ | .drainEnd => true
  | .nop | .enc | .dec | .cmp | .dcmp | .cmdReserved _ | .lit _ | .ref _ | .kwk _ | .bad _
  | .hdr _ _ | .rd _ | .wr _ _ => false

/-- The errors an operation can end with (60_exceptions.md, the table after R225). -/
def errorOf : Mode → ErrCode → Bool
  | .idle, e | .enc, e => e = .none
  | .dec, e => e = .none || e = .malformedStream || e = .dictionaryUnderflow
  | .cmp, e => e = .none || e = .gridMismatch
  | .dcmp, e => e = .none || e = .malformedStream || e = .dictionaryUnderflow || e = .sizeMismatch

/-- `n` steps, stopping at the first fault or refusal. -/
def stepN : Nat → State → Result
  | 0, s => .next s
  | n + 1, s => andThen (step s) (stepN n)

/-- The run of one whole operation from `s`: its events are presented and each is taken by one step. -/
def runOperation (m : Mode) (input : List Sym) (s : State) : Result :=
  stepN (input.length + 2) { s with pending := operationEvents m input }

/-- The states a run from reset can reach, with the host presenting events as it likes. -/
inductive Reachable : State → Prop where
  | reset : Reachable State.reset
  | present {s : State} (es : List Event) : Reachable s → Reachable (s.present es)
  | step {s t : State} : Reachable s → step s = .next t → Reachable t

end Sys2Proof.Machine
end

