-- ==== Sys2Proof/Certificates/Slice0/Obligations.lean ====
section
/-! DEFINITION. The statements about the model, from the numbered rules of spec/. -/

open Sys2Proof Sys2Proof.Machine

/-! ## Encodings (30_encoding.md) -/

/-- Decoding the encoding of a well-formed instruction gives it back, in every context in which its row's
condition holds: no operand bit is dropped (R91, R94, R96, R97, R99, R135 and the opcode table). -/
def Obligations.DecodeOfEncodeIsIdentity : Prop :=
  ∀ (c : Ctx) (i : Instr), i.wellFormed = true → i.admitted c = true → decode c (encode i) = .ok i

/-- What decodes is a well-formed instruction whose row's condition holds, and the words of two different
instructions differ: but for an end beat's ignored data and a command written as a register write, the
encoded form is the instruction's own encoding. -/
def Obligations.DecodedIsWellFormedAndCanonical : Prop :=
  ∀ (c : Ctx) (x : Encoding) (i : Instr), 256 ≤ c.next.toNat → decode c x = .ok i →
    i.wellFormed = true ∧ i.admitted c = true ∧
    ((∀ b, x = .beat b → b.toNat < 256) → (∀ y, x = .regWrite y → 2 ^ 32 ≤ y.toNat) → encode i = x)

/-- Words written out from the spec's encodings decode to what they stand for: the command words of R97, the
reserved ones of R98, beats by R135 and R72, code words by R91, a header by R94, register accesses; and
output beats have the bits of R72. -/
def Obligations.WordsDecodeAsTheSpecSays : Prop :=
  (let c : Ctx := { mode := .dec, err := .none, next := 258#17 }
   decode c (.cmd32 0x00000000) = .ok .nop ∧ decode c (.cmd32 0x00000001) = .ok .enc ∧
   decode c (.cmd32 0x00000002) = .ok .dec ∧ decode c (.cmd32 0x00000003) = .ok .cmp ∧
   decode c (.cmd32 0x00000004) = .ok .dcmp ∧
   decode c (.cmd32 0x00000005) = .ok (.cmdReserved 5) ∧
   decode c (.cmd32 0x80000002) = .ok (.cmdReserved 0x80000002) ∧
   decode c (.beat 0b001000001) = .ok (.decIn 0x41) ∧ decode c (.beat 0b101010101) = .ok .decEnd ∧
   decode c (.code16 0x0041) = .ok (.lit 0x41) ∧ decode c (.code16 0x0101) = .ok (.ref 0x0101) ∧
   decode c (.code16 0x0102) = .ok (.kwk 0x0102) ∧ decode c (.code16 0x0103) = .ok (.bad 0x0103) ∧
   decode c (.hdr64 0x0000000200000003) = .ok (.hdr 2 3) ∧
   decode c (.regRead 0x24) = .ok (.rd 0x24) ∧ decode c (.regRead 0x06) = .error (.misaligned 0x06) ∧
   decode c (.regWrite 0x0800000002) = .ok (.wr 0x08 2) ∧
   decode c (.regWrite 0x0000000001) = .ok .enc) ∧
  decode { mode := .cmp, err := .gridMismatch, next := 256#17 } (.beat 0b001000001) = .ok (.drainIn 0x41) ∧
  decode { mode := .idle, err := .none, next := 256#17 } (.beat 0b001000001) = .error .beatWhileIdle ∧
  (OutEvent.out 0x41).beat = 0b001000001#9 ∧ (OutEvent.outEnd .gridMismatch).beat = 0b100000101#9

/-- The four classes partition the codes (R91), and with a full dictionary only `LIT` and `REF` occur. -/
def Obligations.CodeClassesPartition : Prop :=
  ∀ (next : BitVec 17) (k : Code), 256 ≤ next.toNat → next.toNat ≤ 65536 →
    (classify next k = .lit ↔ k.toNat < 256) ∧
    (classify next k = .ref ↔ 256 ≤ k.toNat ∧ k.toNat < next.toNat) ∧
    (classify next k = .kwk ↔ k.toNat = next.toNat) ∧
    (classify next k = .bad ↔ next.toNat < k.toNat) ∧
    (next.toNat = 65536 → classify next k = .lit ∨ classify next k = .ref)

/-! ## The step and the host interface -/

/-- A step runs the decoded instruction: the first event that has a step (after beats that wait, if the machine
is idle) is taken, and the outcome is `exec` of the instruction it decodes to (00_scope.md R1, R2). -/
def Obligations.StepRunsTheDecodedInstruction : Prop :=
  ∀ (s : State) (waiting rest : List Event) (e : Event) (x : Encoding) (i : Instr),
    s.pending = waiting ++ e :: rest →
    (∀ b ∈ waiting, isBeat b = true) → (s.mode ≠ .idle → waiting = []) →
    (s.mode = .idle → isBeat e = false) →
    e.encoding = some x → decode s.ctx x = .ok i →
    step s = exec i { s with pending := waiting ++ rest }

/-- The input stream is open only while busy (R131): idle, a machine that is presented only beats does not
move; beats that wait become the first input of the operation a START begins; busy, every beat is taken.
Where R131 says that a beat has no step, the step answers the same state, and the waiting beats stay in the
list `pending`: both are the model's choice (log 1). -/
def Obligations.BeatsWaitWhileIdle : Prop :=
  (∀ s : State, s.mode = .idle → (∀ b ∈ s.pending, isBeat b = true) → step s = .next s) ∧
  (∀ (s : State) (m : Mode) (waiting rest : List Event), s.mode = .idle → m ≠ .idle →
    (∀ b ∈ waiting, isBeat b = true) → s.pending = waiting ++ startEvent m :: rest →
    ∃ t, step s = .next t ∧ t.mode = m ∧ t.icnt = 0 ∧ t.pending = waiting ++ rest) ∧
  (∀ (s : State) (b : Event) (rest : List Event), s.Inv → s.mode ≠ .idle → isBeat b = true →
    s.pending = b :: rest → ∃ t, step s = .next t ∧ t.pending = rest)

/-- The `Reset` event (R250, R41), idle or busy, after any beats that wait: every piece of state has its reset
value, no dynamic entry can be read, nothing is emitted and the waiting beats stay. What `W`, `HB` and
`HDR` hold is left open. -/
def Obligations.ResetEventGivesResetState : Prop :=
  ∀ (s : State) (waiting rest : List Event),
    s.pending = waiting ++ .reset :: rest → (∀ b ∈ waiting, isBeat b = true) →
    (s.mode ≠ .idle → waiting = []) →
    ∃ t, step s = .next t ∧ t.mode = .idle ∧ t.op = .idle ∧ t.done = false ∧ t.err = .none ∧
      t.z = false ∧ t.errinfo = 0 ∧ t.rows = 0 ∧ t.cols = 0 ∧ t.icnt = 0 ∧ t.ocnt = 0 ∧
      t.next.toNat = 256 ∧ t.wv = false ∧ t.hbv = false ∧ t.hcnt = 0 ∧
      (∀ k, dictRead t.dict t.next.toNat k = .error (.absentEntry k)) ∧
      t.pending = waiting ++ rest ∧ t.outs = s.outs ∧ t.reads = s.reads

/-- The state after reset holds the values R41 gives, and the registers read as R38's reset column says. What
`W`, `HB` and `HDR` hold there is the model's choice (log 2) and is not stated. -/
def Obligations.ResetStateValues : Prop :=
  State.reset.mode = .idle ∧ State.reset.wv = false ∧ State.reset.hbv = false ∧
  State.reset.hcnt = 0 ∧ State.reset.next.toNat = 256 ∧
  regWord State.reset 0x04 = 0 ∧ regWord State.reset 0x08 = 0 ∧ regWord State.reset 0x0C = 0 ∧
  regWord State.reset 0x10 = 0 ∧ regWord State.reset 0x14 = 0 ∧ regWord State.reset 0x18 = 0 ∧
  regWord State.reset 0x1C = 0 ∧ regWord State.reset 0x20 = 0x00000100 ∧ regWord State.reset 0x24 = 0

/-- The reset state is well-formed (R45). -/
def Obligations.ResetIsWellFormed : Prop := State.reset.Inv ∧ State.reset.hostOk

/-- Every step preserves well-formedness (R45, with the invariants R21, R26, R27, R28, R30, R36, R37). -/
def Obligations.StepKeepsWellFormed : Prop :=
  ∀ s t : State, s.Inv → step s = .next t → t.Inv

/-- From a well-formed state, with aligned register accesses, a step always answers a next state: no fault
and no refusal of the model is ever reached (R1 "total step function"). -/
def Obligations.StepNeverStops : Prop :=
  ∀ s : State, s.Inv → s.hostOk → ∃ t, step s = .next t ∧ t.hostOk

/-- Where each conditional row runs and where it does not; the refusals are the model's choice (log 8), and no
step reaches one. A beat row answers a next state from every well-formed state in which its condition holds
(R135: exactly one rule applies to each beat while busy), and is refused by name where it does not hold; so are a
code outside an open payload, a header outside the header phase, a register write to `CTRL` and a reserved
command with a command's word. -/
def Obligations.RowsRunUnderTheirCondition : Prop :=
  (∀ (s : State) (i : Instr), s.Inv → isBeatRow i = true → i.admitted s.ctx = true → ∃ t, exec i s = .next t) ∧
  (∀ (s : State) (i : Instr), isBeatRow i = true → i.admitted s.ctx = false →
    ∃ m, exec i s = .refused (.outsideCondition m)) ∧
  (∀ (s : State) (k : Code),
    s.err ≠ .none ∨ (s.mode ≠ .dec ∧ ¬ (s.mode = .dcmp ∧ s.hcnt = 8#4)) →
    ∃ m, exec (decodeCode s.next k) s = .refused (.outsideCondition m)) ∧
  (∀ (s : State) (r c v : Word),
    (s.mode ≠ .dcmp ∨ s.err ≠ .none ∨ 8 ≤ s.hcnt.toNat → exec (.hdr r c) s = .refused (.outsideCondition "HDR")) ∧
    exec (.wr 0x00 v) s = .refused (.outsideCondition "WR") ∧
    (v.toNat < 5 → exec (.cmdReserved v) s = .refused (.outsideCondition "CMD.RESERVED")))

/-! ## Commands (40_commands.md) -/

/-- START while idle (R123, R126): the fields R123 names and no others, for each of the four operations;
`CMP` also emits the eight header bytes, which `OCNT` does not count. -/
def Obligations.StartCommands : Prop :=
  ∀ s : State, s.mode = .idle →
    exec .enc s = .next { s with
      mode := .enc, op := .enc, done := false, err := .none, z := false, errinfo := 0, icnt := 0, ocnt := 0
      next := 256#17, wv := false, hbv := false, hcnt := 0 } ∧
    exec .dec s = .next { s with
      mode := .dec, op := .dec, done := false, err := .none, z := false, errinfo := 0, icnt := 0, ocnt := 0
      next := 256#17, wv := false, hbv := false, hcnt := 0 } ∧
    exec .cmp s = .next { s with
      mode := .cmp, op := .cmp, done := false, err := .none, z := false, errinfo := 0, icnt := 0, ocnt := 0
      next := 256#17, wv := false, hbv := false, hcnt := 0
      outs := s.outs ++
        [.out (s.rows.extractLsb' 24 8), .out (s.rows.extractLsb' 16 8),
         .out (s.rows.extractLsb' 8 8), .out (s.rows.extractLsb' 0 8),
         .out (s.cols.extractLsb' 24 8), .out (s.cols.extractLsb' 16 8),
         .out (s.cols.extractLsb' 8 8), .out (s.cols.extractLsb' 0 8)] } ∧
    exec .dcmp s = .next { s with
      mode := .dcmp, op := .dcmp, done := false, err := .none, z := false, errinfo := 0, icnt := 0, ocnt := 0
      next := 256#17, wv := false, hbv := false, hcnt := 0 }

/-- `NOP` and every reserved command word change nothing in any state (R128, R129). -/
def Obligations.NopAndReservedCommandsIgnored : Prop :=
  ∀ (s : State) (v : Word),
    exec .nop s = .next s ∧ exec (decodeCmd 0) s = .next s ∧
    (5 ≤ v.toNat → exec (.cmdReserved v) s = .next s) ∧
    (v.toNat % 8 = 5 ∨ v.toNat % 8 = 6 ∨ v.toNat % 8 = 7 ∨ v.toNat / 8 ≠ 0 →
      decodeCmd v = .cmdReserved v ∧ exec (decodeCmd v) s = .next s)

/-- A command while busy changes nothing, whatever the word written, and an operation ends only by its end beat
(R130). -/
def Obligations.CommandsIgnoredWhileBusy : Prop :=
  (∀ (s : State) (v : Word), s.mode ≠ .idle → exec (decodeCmd v) s = .next s) ∧
  (∀ (i : Instr) (s t : State), s.mode ≠ .idle → exec i s = .next t → t.mode ≠ s.mode →
    endsOperation i = true)

/-- The mode machine (R134): an instruction leaves `MODE` as it is, or is a START taken while idle, or is an
end beat, which leaves the machine idle with `DONE` set. -/
def Obligations.ModeMachine : Prop :=
  ∀ (i : Instr) (s t : State), exec i s = .next t →
    (startsOperation i = true ∧ s.mode = .idle ∧ t.mode = t.op ∧ t.mode ≠ .idle ∧ t.done = false) ∨
    (endsOperation i = true ∧ s.mode ≠ .idle ∧ t.mode = .idle ∧ t.done = true ∧ t.op = s.op) ∨
    (t.mode = s.mode ∧ t.done = s.done ∧ t.op = s.op ∧ t.z = s.z)

/-! ## Registers (10_state.md, 40_commands.md) -/

/-- A register read returns the word of the register map and changes nothing of the core (R120, R38). The list
`reads`, to which the returned word is appended, is the model's choice (log 7). -/
def Obligations.RegisterReadReturnsTheMap : Prop :=
  ∀ (s : State) (off : BitVec 8), off.toNat % 4 = 0 → ∃ v : Word,
    exec (.rd off) s = .next { s with reads := s.reads ++ [v] } ∧
    (off = 0x00#8 → v = 0) ∧ (off = 0x04#8 → v = statusWord s) ∧
    (off = 0x08#8 → v = s.rows) ∧ (off = 0x0C#8 → v = s.cols) ∧
    (off = 0x10#8 → v.toNat = s.icnt % 2 ^ 32) ∧ (off = 0x14#8 → v.toNat = s.icnt / 2 ^ 32 % 2 ^ 32) ∧
    (off = 0x18#8 → v.toNat = s.ocnt % 2 ^ 32) ∧ (off = 0x1C#8 → v.toNat = s.ocnt / 2 ^ 32 % 2 ^ 32) ∧
    (off = 0x20#8 → v.toNat = s.next.toNat) ∧ (off = 0x24#8 → v = s.errinfo) ∧
    (0x28 ≤ off.toNat → v = 0)

/-- The `STATUS` word bit by bit (R36), and the level outputs that mirror it (60_exceptions.md R230). -/
def Obligations.StatusWordLayout : Prop :=
  ∀ s : State,
    (statusWord s).getLsbD 0 = decide (s.mode ≠ .idle) ∧ (statusWord s).getLsbD 1 = s.done ∧
    (statusWord s).extractLsb' 2 3 = s.err.bits ∧ (statusWord s).getLsbD 5 = s.z ∧
    (statusWord s).extractLsb' 6 2 = 0 ∧ (statusWord s).extractLsb' 8 3 = s.op.bits ∧
    (statusWord s).extractLsb' 11 21 = 0 ∧
    s.doneO = (statusWord s).getLsbD 1 ∧ s.errO = decide ((statusWord s).extractLsb' 2 3 ≠ 0)

/-- Register writes: `ROWS` and `COLS` are written while idle and ignored while busy (R121); a write to a
read-only or reserved offset changes nothing (R122). -/
def Obligations.RegisterWrites : Prop :=
  ∀ (s : State) (v : Word),
    (s.mode = .idle → exec (.wr 0x08 v) s = .next { s with rows := v } ∧
      exec (.wr 0x0C v) s = .next { s with cols := v }) ∧
    (s.mode ≠ .idle → exec (.wr 0x08 v) s = .next s ∧ exec (.wr 0x0C v) s = .next s) ∧
    (∀ off : BitVec 8, off.toNat % 4 = 0 → off ≠ 0x00#8 → off ≠ 0x08#8 → off ≠ 0x0C#8 →
      exec (.wr off v) s = .next s)

/-- A misaligned register access is outside the core and refused by name (R65, 93 I14): by the two rows and by
the step. -/
def Obligations.MisalignedAccessRefused : Prop :=
  ∀ (s : State) (off : BitVec 8) (v : Word) (rest : List Event), off.toNat % 4 ≠ 0 →
    exec (.rd off) s = .refused (.misalignedAccess off) ∧
    exec (.wr off v) s = .refused (.misalignedAccess off) ∧
    (s.pending = .regRead off :: rest → step s = .refused (.misalignedAccess off)) ∧
    (s.pending = .regWrite off v :: rest → step s = .refused (.misalignedAccess off))

/-- `ROWS` and `COLS` change only by a host write while idle or by a `DCMP` header (R33, R194). -/
def Obligations.DimensionsChangeOnlyAsStated : Prop :=
  ∀ (i : Instr) (s t : State), exec i s = .next t → (t.rows ≠ s.rows ∨ t.cols ≠ s.cols) →
    (s.mode = .idle ∧ ∃ v, i = .wr 0x08 v ∨ i = .wr 0x0C v) ∨
    (s.mode = .dcmp ∧ s.err = .none ∧
      ((∃ b, i = .dcmpIn b ∧ s.hcnt.toNat = 7) ∨ ∃ r c, i = .hdr r c))

/-! ## The encoder (41_encode.md), also for `CMP.IN` (43_frame.md R191) -/

/-- The first symbol (R140). -/
def Obligations.EncoderFirstSymbol : Prop :=
  ∀ (s : State) (c : Sym), s.err = .none → s.wv = false →
    (s.mode = .enc → exec (.encIn c) s =
      .next { s with icnt := s.icnt + 1, w := c.setWidth 16, wv := true }) ∧
    (s.mode = .cmp → exec (.cmpIn c) s =
      .next { s with icnt := s.icnt + 1, w := c.setWidth 16, wv := true })

/-- The match is extended (R141): when a present dynamic word `k` holds `(W, c)`. -/
def Obligations.EncoderExtendsMatch : Prop :=
  ∀ (s : State) (c : Sym) (k : Code), s.Inv → s.err = .none → s.wv = true →
    256 ≤ k.toNat → k.toNat < s.next.toNat → s.dict.get k.toNat = some ⟨s.w, c⟩ →
    (s.mode = .enc → exec (.encIn c) s = .next { s with icnt := s.icnt + 1, w := k }) ∧
    (s.mode = .cmp → exec (.cmpIn c) s = .next { s with icnt := s.icnt + 1, w := k })

/-- The match has ended and there is room (R142): the code of `w` leaves, high byte first, the word at `NEXT`
receives `(W, c)`, and `w` is the symbol. -/
def Obligations.EncoderInsertsEntry : Prop :=
  ∀ (s : State) (c : Sym), s.Inv → s.err = .none → s.wv = true → s.next.toNat < 65536 →
    (∀ k, 256 ≤ k → k < s.next.toNat → s.dict.get k ≠ some ⟨s.w, c⟩) →
    (s.mode = .enc → exec (.encIn c) s = .next { s with
      icnt := s.icnt + 1, ocnt := s.ocnt + 2
      outs := s.outs ++ [.out (s.w.extractLsb' 8 8), .out (s.w.extractLsb' 0 8)]
      dict := s.dict.set s.next.toNat ⟨s.w, c⟩, next := s.next + 1#17, w := c.setWidth 16 }) ∧
    (s.mode = .cmp → exec (.cmpIn c) s = .next { s with
      icnt := s.icnt + 1, ocnt := s.ocnt + 2
      outs := s.outs ++ [.out (s.w.extractLsb' 8 8), .out (s.w.extractLsb' 0 8)]
      dict := s.dict.set s.next.toNat ⟨s.w, c⟩, next := s.next + 1#17, w := c.setWidth 16 })

/-- The match has ended and the dictionary is full (R143): nothing is appended. -/
def Obligations.EncoderFrozenWhenFull : Prop :=
  ∀ (s : State) (c : Sym), s.Inv → s.err = .none → s.wv = true → s.next.toNat = 65536 →
    (∀ k, 256 ≤ k → k < 65536 → s.dict.get k ≠ some ⟨s.w, c⟩) →
    (s.mode = .enc → exec (.encIn c) s = .next { s with
      icnt := s.icnt + 1, ocnt := s.ocnt + 2
      outs := s.outs ++ [.out (s.w.extractLsb' 8 8), .out (s.w.extractLsb' 0 8)]
      w := c.setWidth 16 }) ∧
    (s.mode = .cmp → exec (.cmpIn c) s = .next { s with
      icnt := s.icnt + 1, ocnt := s.ocnt + 2
      outs := s.outs ++ [.out (s.w.extractLsb' 8 8), .out (s.w.extractLsb' 0 8)]
      w := c.setWidth 16 })

/-- The end of an `ENC` (R144, R145, R132): the code of a non-empty `w` is flushed and nothing is appended; with
no symbol received nothing but the end beat leaves, and `Z` is set (the counters' invariant is a statement of
its own, `EncoderCountsInvariant`). -/
def Obligations.EncoderEnd : Prop :=
  ∀ s : State, s.mode = .enc → s.err = .none →
    (s.wv = true → exec .encEnd s = .next { s with
      ocnt := s.ocnt + 2, wv := false, z := false, done := true, mode := .idle
      outs := s.outs ++ [.out (s.w.extractLsb' 8 8), .out (s.w.extractLsb' 0 8), .outEnd .none] }) ∧
    (s.wv = false → s.EncoderCounts → exec .encEnd s = .next { s with
      z := true, done := true, mode := .idle, outs := s.outs ++ [.outEnd .none] }) ∧
    (s.wv = false → exec .encEnd s = .next { s with
      z := decide (s.ocnt = 0), done := true, mode := .idle, outs := s.outs ++ [.outEnd .none] })

/-- The end of a `CMP` (R192): a wrong sample count is `GridMismatch` without a flush; otherwise as `ENC.END`. -/
def Obligations.CompressEnd : Prop :=
  ∀ s : State, s.mode = .cmp → s.err = .none →
    (s.icnt ≠ s.rows.toNat * s.cols.toNat → exec .cmpEnd s = .next { s with
      err := .gridMismatch, errinfo := 0, z := decide (s.ocnt = 0), done := true, mode := .idle
      outs := s.outs ++ [.outEnd .gridMismatch] }) ∧
    (s.icnt = s.rows.toNat * s.cols.toNat → s.wv = true → exec .cmpEnd s = .next { s with
      ocnt := s.ocnt + 2, wv := false, z := false, done := true, mode := .idle
      outs := s.outs ++ [.out (s.w.extractLsb' 8 8), .out (s.w.extractLsb' 0 8), .outEnd .none] }) ∧
    (s.icnt = s.rows.toNat * s.cols.toNat → s.wv = false → exec .cmpEnd s = .next { s with
      z := decide (s.ocnt = 0), done := true, mode := .idle, outs := s.outs ++ [.outEnd .none] })

/-! ## The decoder (42_decode.md), also for `DCMP.IN` (43_frame.md R195) -/

/-- The high byte of a code is latched (R160). -/
def Obligations.DecoderLatchesHighByte : Prop :=
  ∀ (s : State) (b : Sym), s.err = .none → s.hbv = false →
    (s.mode = .dec → exec (.decIn b) s = .next { s with icnt := s.icnt + 1, hb := b, hbv := true }) ∧
    (s.mode = .dcmp → s.hcnt = 8#4 →
      exec (.dcmpIn b) s = .next { s with icnt := s.icnt + 1, hb := b, hbv := true })

/-- The low byte completes a code, which is executed in the same step as the row its class names (R161, R91). -/
def Obligations.DecoderLowByteRunsTheCode : Prop :=
  ∀ (s : State) (b : Sym), s.err = .none → s.hbv = true →
    (s.mode = .dec → exec (.decIn b) s =
      exec (decodeCode s.next (s.hb ++ b)) { s with icnt := s.icnt + 1, hbv := false }) ∧
    (s.mode = .dcmp → s.hcnt = 8#4 → exec (.dcmpIn b) s =
      exec (decodeCode s.next (s.hb ++ b)) { s with icnt := s.icnt + 1, hbv := false })

/-- A literal as the first code (R162). -/
def Obligations.DecoderFirstLiteral : Prop :=
  ∀ (s : State) (c : Sym), s.err = .none → s.mode = .dec ∨ (s.mode = .dcmp ∧ s.hcnt = 8#4) →
    s.wv = false → exec (.lit c) s = .next { s with
      outs := s.outs ++ [.out c], ocnt := s.ocnt + 1, w := c.setWidth 16, wv := true }

/-- A first code that is no literal is `DictionaryUnderflow`, whatever its class (R163, R222, R226). -/
def Obligations.DecoderFirstCodeNotLiteral : Prop :=
  ∀ (s : State) (k : Code), s.err = .none → s.mode = .dec ∨ (s.mode = .dcmp ∧ s.hcnt = 8#4) →
    s.wv = false → 256 ≤ k.toNat →
    exec (decodeCode s.next k) s =
      .next { s with err := .dictionaryUnderflow, errinfo := k.setWidth 32 } ∧
    (k.toNat < s.next.toNat → decodeCode s.next k = .ref k) ∧
    (k.toNat = s.next.toNat → decodeCode s.next k = .kwk k) ∧
    (s.next.toNat < k.toNat → decodeCode s.next k = .bad k)

/-- An existing entry, dictionary not full (R164): its symbols leave first to last, the word at `NEXT`
receives the old `W` and the entry's first symbol, and `W` is the code. -/
def Obligations.DecoderExistingEntry : Prop :=
  ∀ (s : State) (k : Code), s.Inv → s.err = .none → s.mode = .dec ∨ (s.mode = .dcmp ∧ s.hcnt = 8#4) →
    s.wv = true → k.toNat < s.next.toNat → s.next.toNat < 65536 →
    ∃ (c : Sym) (l : List Sym) (t : State), seqOf s k = .ok (c :: l) ∧
      t = { s with
        outs := s.outs ++ (c :: l).map .out, ocnt := s.ocnt + (c :: l).length
        dict := s.dict.set s.next.toNat ⟨s.w, c⟩, next := s.next + 1#17, w := k } ∧
      (k.toNat < 256 → exec (.lit (k.extractLsb' 0 8)) s = .next t) ∧
      (256 ≤ k.toNat → exec (.ref k) s = .next t)

/-- An existing entry, dictionary full (R165): nothing is appended. -/
def Obligations.DecoderExistingEntryFull : Prop :=
  ∀ (s : State) (k : Code), s.Inv → s.err = .none → s.mode = .dec ∨ (s.mode = .dcmp ∧ s.hcnt = 8#4) →
    s.wv = true → s.next.toNat = 65536 →
    ∃ (l : List Sym) (t : State), seqOf s k = .ok l ∧ l ≠ [] ∧
      t = { s with outs := s.outs ++ l.map .out, ocnt := s.ocnt + l.length, w := k } ∧
      (k.toNat < 256 → exec (.lit (k.extractLsb' 0 8)) s = .next t) ∧
      (256 ≤ k.toNat → exec (.ref k) s = .next t)

/-- The "not yet defined" code (R166): the word at `NEXT = k` receives `(W, First(W))`, and the entry just
appended is what is expanded, `Seq(W) ‖ First(W)`. -/
def Obligations.DecoderNotYetDefined : Prop :=
  ∀ (s : State) (k : Code), s.Inv → s.err = .none → s.mode = .dec ∨ (s.mode = .dcmp ∧ s.hcnt = 8#4) →
    s.wv = true → k.toNat = s.next.toNat →
    ∃ (c : Sym) (l : List Sym) (t : State), seqOf s s.w = .ok (c :: l) ∧ exec (.kwk k) s = .next t ∧
      t = { s with
        outs := s.outs ++ (c :: l ++ [c]).map .out, ocnt := s.ocnt + (l.length + 2)
        dict := s.dict.set s.next.toNat ⟨s.w, c⟩, next := s.next + 1#17, w := k } ∧
      seqOf t k = .ok (c :: l ++ [c])

/-- A bad code (R167): `DictionaryUnderflow`, and nothing else changes (R226, R229). -/
def Obligations.DecoderBadCode : Prop :=
  ∀ (s : State) (k : Code), s.Inv → s.err = .none → s.mode = .dec ∨ (s.mode = .dcmp ∧ s.hcnt = 8#4) →
    s.wv = true → s.next.toNat < k.toNat →
    exec (.bad k) s = .next { s with err := .dictionaryUnderflow, errinfo := k.setWidth 32 }

/-- The end of a `DEC` (R168, R169, R170, R132): half a code pending is `MalformedStream`; otherwise success, with
`Z` clear after a non-empty stream and set after an empty one (the counters' invariant is a statement of its
own, `DecoderCountsInvariant`). -/
def Obligations.DecoderEnd : Prop :=
  ∀ s : State, s.mode = .dec → s.err = .none →
    (s.hbv = true → exec .decEnd s = .next { s with
      err := .malformedStream, errinfo := 0, z := decide (s.ocnt = 0), done := true, mode := .idle
      outs := s.outs ++ [.outEnd .malformedStream] }) ∧
    (s.hbv = false → s.DecoderCounts → 0 < s.icnt → exec .decEnd s = .next { s with
      z := false, done := true, mode := .idle, outs := s.outs ++ [.outEnd .none] }) ∧
    (s.hbv = false → s.DecoderCounts → s.icnt = 0 → exec .decEnd s = .next { s with
      z := true, done := true, mode := .idle, outs := s.outs ++ [.outEnd .none] }) ∧
    (s.hbv = false → exec .decEnd s = .next { s with
      z := decide (s.ocnt = 0), done := true, mode := .idle, outs := s.outs ++ [.outEnd .none] })

/-! ## The framed decompress (43_frame.md) -/

/-- Header bytes (R193, R194): the byte is shifted in from the right and counted, `ICNT` is not; the eighth
sets `ROWS` and `COLS`. -/
def Obligations.HeaderBytes : Prop :=
  ∀ (s : State) (b : Sym), s.mode = .dcmp → s.err = .none →
    (s.hcnt.toNat = 0 → exec (.dcmpIn b) s = .next { s with hdr := b.setWidth 64, hcnt := 1 }) ∧
    (0 < s.hcnt.toNat → s.hcnt.toNat < 7 → exec (.dcmpIn b) s = .next { s with
      hdr := (s.hdr <<< 8) ||| b.setWidth 64, hcnt := s.hcnt + 1 }) ∧
    (s.hcnt.toNat = 7 → exec (.dcmpIn b) s = .next { s with
      hdr := (s.hdr <<< 8) ||| b.setWidth 64, hcnt := 8
      rows := ((s.hdr <<< 8) ||| b.setWidth 64).extractLsb' 32 32
      cols := ((s.hdr <<< 8) ||| b.setWidth 64).extractLsb' 0 32 })

/-- The header row (R94, R193, R194): it sets `HDR`, `HCNT`, `ROWS` and `COLS` and nothing else, and eight
steps over the header's bytes do the same. -/
def Obligations.HeaderWordIsItsEightBytes : Prop :=
  (∀ (s : State) (r c : Word), s.mode = .dcmp → s.err = .none → s.hcnt.toNat < 8 →
    exec (.hdr r c) s = .next { s with hdr := r ++ c, hcnt := 8, rows := r, cols := c }) ∧
  (∀ (s : State) (r c : Word) (rest : List Event), s.mode = .dcmp → s.err = .none → s.hcnt = 0 →
    s.pending = hdrIn r c ++ rest → stepN 8 s = exec (.hdr r c) { s with pending := rest })

/-- The end of a `DCMP` (R196, R132): the four checks in order, then success. -/
def Obligations.DecompressEnd : Prop :=
  ∀ s : State, s.mode = .dcmp → s.err = .none →
    (s.hcnt.toNat < 8 → exec .dcmpEnd s = .next { s with
      err := .malformedStream, errinfo := 0, z := decide (s.ocnt = 0), done := true, mode := .idle
      outs := s.outs ++ [.outEnd .malformedStream] }) ∧
    (8 ≤ s.hcnt.toNat → s.hbv = true → exec .dcmpEnd s = .next { s with
      err := .malformedStream, errinfo := 0, z := decide (s.ocnt = 0), done := true, mode := .idle
      outs := s.outs ++ [.outEnd .malformedStream] }) ∧
    (8 ≤ s.hcnt.toNat → s.hbv = false → s.icnt = 0 → 0 < s.rows.toNat * s.cols.toNat →
      exec .dcmpEnd s = .next { s with
        err := .malformedStream, errinfo := 0, z := decide (s.ocnt = 0), done := true, mode := .idle
        outs := s.outs ++ [.outEnd .malformedStream] }) ∧
    (8 ≤ s.hcnt.toNat → s.hbv = false → (s.icnt ≠ 0 ∨ s.rows.toNat * s.cols.toNat = 0) →
      s.ocnt ≠ s.rows.toNat * s.cols.toNat → exec .dcmpEnd s = .next { s with
        err := .sizeMismatch, errinfo := 0, z := decide (s.ocnt = 0), done := true, mode := .idle
        outs := s.outs ++ [.outEnd .sizeMismatch] }) ∧
    (8 ≤ s.hcnt.toNat → s.hbv = false → (s.icnt ≠ 0 ∨ s.rows.toNat * s.cols.toNat = 0) →
      s.ocnt = s.rows.toNat * s.cols.toNat → exec .dcmpEnd s = .next { s with
        z := decide (s.ocnt = 0), done := true, mode := .idle, outs := s.outs ++ [.outEnd .none] })

/-- The product `ROWS × COLS` is exact: as a 64-bit product of the two registers it does not wrap (R200). -/
def Obligations.GridProductIsExact : Prop :=
  ∀ s : State, (s.rows.setWidth 64 * s.cols.setWidth 64).toNat = gridSize s ∧
    gridSize s ≤ 0xFFFFFFFE00000001 ∧ gridSize s = s.rows.toNat * s.cols.toNat

/-! ## Faults of the core (60_exceptions.md) -/

/-- The drain (R133): a byte is discarded with no change at all, and the end beat ends the operation with the
latched error. -/
def Obligations.DrainAfterFault : Prop :=
  ∀ (s : State) (b : Sym), s.mode ≠ .idle → s.err ≠ .none →
    exec (.drainIn b) s = .next s ∧
    exec .drainEnd s = .next { s with
      z := decide (s.ocnt = 0), done := true, mode := .idle, outs := s.outs ++ [.outEnd s.err] }

/-- A latched fault (R226, R228). To the end of its operation, whatever runs, the error, the counters, the
dictionary, the working registers, `ROWS` and `COLS` keep their values and nothing but the end beat is
emitted; and no instruction but the next START clears it, in any state. -/
def Obligations.LatchedFaultStays : Prop :=
  (∀ (i : Instr) (s t : State), s.mode ≠ .idle → s.err ≠ .none → exec i s = .next t →
    t.err = s.err ∧ t.errinfo = s.errinfo ∧ t.icnt = s.icnt ∧ t.ocnt = s.ocnt ∧ t.next = s.next ∧
    t.dict = s.dict ∧ t.w = s.w ∧ t.wv = s.wv ∧ t.hb = s.hb ∧ t.hbv = s.hbv ∧ t.hdr = s.hdr ∧
    t.hcnt = s.hcnt ∧ t.rows = s.rows ∧ t.cols = s.cols ∧
    ((t.mode = s.mode ∧ t.outs = s.outs) ∨ (t.mode = .idle ∧ t.outs = s.outs ++ [.outEnd s.err]))) ∧
  (∀ (i : Instr) (s t : State), exec i s = .next t → s.err ≠ .none →
    (t.err = s.err ∧ t.errinfo = s.errinfo) ∨ (startsOperation i = true ∧ s.mode = .idle ∧ t.err = .none))

/-- The errors each operation can end with (the table after R225), as an invariant of the step. -/
def Obligations.ErrorsPerOperation : Prop :=
  errorOf State.reset.op State.reset.err = true ∧
  ∀ s t : State, s.Inv → errorOf s.op s.err = true → step s = .next t → errorOf t.op t.err = true

/-! ## The dictionary (10_state.md, 20_memory.md) -/

/-- `Seq`, `First` and `Len` of every present code (R24, R25, R27, R29): they end, they obey their defining
equations, and the length is bounded. -/
def Obligations.SequencesOfPresentCodes : Prop :=
  ∀ (s : State) (k : Code), s.Inv → k.toNat < s.next.toNat →
    ∃ (c : Sym) (l : List Sym), seqOf s k = .ok (c :: l) ∧ firstOf s k = .ok c ∧
      lenOf s k = .ok (c :: l).length ∧ (c :: l).length ≤ 65281 ∧
      (k.toNat < 256 → c :: l = [k.extractLsb' 0 8]) ∧
      (256 ≤ k.toNat → (c :: l).length ≤ k.toNat - 254 ∧
        ∃ (e : Entry) (l' : List Sym), s.dict.get k.toNat = some e ∧ e.pre.toNat < k.toNat ∧
          seqOf s e.pre = .ok l' ∧ c :: l = l' ++ [e.suf] ∧ firstOf s e.pre = .ok c)

/-- An entry at or above `NEXT` holds no value: reading it faults (R26); and right after a START every dynamic
entry is absent, whatever words the RAM still holds (R256). -/
def Obligations.AbsentEntriesCannotBeRead : Prop :=
  (∀ (s : State) (k : Code), 256 ≤ k.toNat → s.next.toNat ≤ k.toNat →
    dictRead s.dict s.next.toNat k = .error (.absentEntry k) ∧ seqOf s k = .error (.absentEntry k)) ∧
  (∀ (i : Instr) (s t : State), startsOperation i = true → s.mode = .idle → exec i s = .next t →
    ∀ (k w : Code) (c : Sym), matchEntry t.dict t.next.toNat w c = none ∧
      (256 ≤ k.toNat → seqOf t k = .error (.absentEntry k)) ∧ (k.toNat < 256 → seqOf t k = .ok [k.extractLsb' 0 8]))

/-- The dictionary is append-only (R62, R26, R21): an instruction changes no word but the one at `NEXT`, and
that one only together with `NEXT <- NEXT + 1` from below 65536; `NEXT` moves in no other way but to 256 at a
START. -/
def Obligations.DictionaryIsAppendOnly : Prop :=
  ∀ (i : Instr) (s t : State), exec i s = .next t →
    (∀ a, a ≠ s.next.toNat → t.dict.get a = s.dict.get a) ∧
    (t.dict ≠ s.dict → s.next.toNat < 65536 ∧ t.next.toNat = s.next.toNat + 1) ∧
    (t.next = s.next ∨
      (s.next.toNat < 65536 ∧ t.next.toNat = s.next.toNat + 1 ∧ ∃ e, t.dict = s.dict.set s.next.toNat e) ∨
      (startsOperation i = true ∧ s.mode = .idle ∧ t.next.toNat = 256))

/-- A dictionary word reads as the last pair written to it, a write leaves every other word alone, and the
list keeps its canonical form (R61, R62, R22). -/
def Obligations.DictionaryReadAfterWrite : Prop :=
  ∀ (m : Memory) (a b : Nat) (e : Entry),
    (m.set a e).get a = some e ∧ (b ≠ a → (m.set a e).get b = m.get b) ∧
    (m.wf = true → 256 ≤ a → a < 65536 → Memory.wf (m.set a e) = true) ∧
    (∀ n : Memory, m.wf = true → n.wf = true → (∀ x, m.get x = n.get x) → m = n)

/-- `Match(w, c)` (R63): the least present dynamic code that holds `(w, c)`, and `none` when there is none. -/
def Obligations.MatchAnswersTheLeastCode : Prop :=
  ∀ (s : State) (w : Code) (c : Sym), s.Inv →
    (∀ k, matchEntry s.dict s.next.toNat w c = some k ↔
      256 ≤ k.toNat ∧ k.toNat < s.next.toNat ∧ s.dict.get k.toNat = some ⟨w, c⟩ ∧
      ∀ j, 256 ≤ j → j < s.next.toNat → s.dict.get j = some ⟨w, c⟩ → k.toNat ≤ j) ∧
    (matchEntry s.dict s.next.toNat w c = none ↔
      ∀ j, 256 ≤ j → j < s.next.toNat → s.dict.get j ≠ some ⟨w, c⟩)

/-- In the encoder `Match(w, c)` answers whether `Seq(w) ‖ c` is a present sequence, and with its code (R63, R28, R151). -/
def Obligations.MatchIsSequenceMembership : Prop :=
  ∀ (s : State) (w k : Code) (c : Sym) (l : List Sym), s.Inv → s.mode = .enc ∨ s.mode = .cmp →
    w.toNat < s.next.toNat → k.toNat < s.next.toNat → seqOf s w = .ok l →
    (matchEntry s.dict s.next.toNat w c = some k ↔ seqOf s k = .ok (l ++ [c]))

/-- The hazards (R253, R254): the entry a symbol's step appends is matched and expanded right after it. -/
def Obligations.AppendIsVisibleAtOnce : Prop :=
  ∀ (s t : State) (c : Sym) (l : List Sym), s.Inv → s.mode = .enc → s.err = .none → s.wv = true →
    s.next.toNat < 65536 → matchEntry s.dict s.next.toNat s.w c = none → seqOf s s.w = .ok l →
    exec (.encIn c) s = .next t →
    matchEntry t.dict t.next.toNat s.w c = some (s.next.setWidth 16) ∧
    seqOf t (s.next.setWidth 16) = .ok (l ++ [c])

/-! ## Outputs (00_scope.md R3) -/

/-- Outputs are only appended (R3): data beats, then an end beat exactly when the operation ends, carrying
`ERR`; and a step's data beats are bounded (70_reset_and_hazards.md R255): 2 for a symbol, 8 for a `CMP`
START, at most 65281. -/
def Obligations.OutputsAreAppended : Prop :=
  ∀ (i : Instr) (s t : State), s.Inv → exec i s = .next t →
    ∃ (l : List Sym) (e : List OutEvent), t.outs = s.outs ++ l.map .out ++ e ∧ l.length ≤ 65281 ∧
      (e = [] ∨ e = [.outEnd t.err]) ∧
      (e = [.outEnd t.err] ↔ endsOperation i = true) ∧
      (s.mode = .enc ∨ s.mode = .cmp → l.length ≤ 2) ∧ (s.mode = .idle → l.length = 0 ∨ (l.length = 8 ∧ i = .cmp))

/-! ## Whole operations -/

/-- The encoder is the source's `encode` (R151) and the framed compress its `compress` (R192, R225, R237). From any
well-formed idle state a whole `ENC` emits the bytes of the code list the source's sequence-based algorithm
gives, then `OutEnd(0)`; a whole `CMP` results in the frame of its samples when they fill the grid, and in
`GridMismatch` when they do not. -/
def Obligations.EncoderRefinesSource : Prop :=
  (∀ (s : State) (input : List Sym), s.Inv → s.mode = .idle →
    ∃ t o, runOperation .enc input s = .next t ∧ t.mode = .idle ∧ t.err = .none ∧
      t.icnt = input.length ∧ t.ocnt = 2 * (Source.encode input).length ∧ t.outs = s.outs ++ o ∧
      o = (streamBytes (Source.encode input)).map .out ++ [.outEnd .none] ∧
      operationResult t o = some (.ok (.bytes (streamBytes (Source.encode input))))) ∧
  (∀ (s : State) (samples : List Sym), s.Inv → s.mode = .idle →
    ∃ t o, runOperation .cmp samples s = .next t ∧ t.mode = .idle ∧ t.outs = s.outs ++ o ∧
      t.rows = s.rows ∧ t.cols = s.cols ∧
      (samples.length = s.rows.toNat * s.cols.toNat →
        operationResult t o = some (.ok (.bytes (Source.compress s.rows s.cols samples)))) ∧
      (samples.length ≠ s.rows.toNat * s.cols.toNat → operationResult t o = some (.error .gridMismatch)))

/-- The decoder is the source's `decode` with the cap (R175) and the framed decompress its `decompress` (R196,
R197, R237). A whole `DEC` over the bytes of a code list gives the source's symbols, or `DictionaryUnderflow`
with the offending code; a whole `DCMP` over a frame sets `ROWS` and `COLS` to the header's values and results
in the source's samples together with them, or in the source's error. -/
def Obligations.DecoderRefinesSource : Prop :=
  (∀ (s : State) (ks : List Code), s.Inv → s.mode = .idle →
    ∃ t o, runOperation .dec (streamBytes ks) s = .next t ∧ t.mode = .idle ∧ t.outs = s.outs ++ o ∧
      (∀ l, Source.decode ks = .ok l →
        t.err = .none ∧ t.ocnt = l.length ∧ o = l.map .out ++ [.outEnd .none] ∧
        operationResult t o = some (.ok (.bytes l))) ∧
      (∀ k, Source.decode ks = .error k → t.err = .dictionaryUnderflow ∧ t.errinfo = k.setWidth 32 ∧
        operationResult t o = some (.error .dictionaryUnderflow))) ∧
  (∀ (s : State) (r c : Word) (ks : List Code), s.Inv → s.mode = .idle →
    ∃ t o, runOperation .dcmp (frameBytes r c ks) s = .next t ∧ t.mode = .idle ∧ t.outs = s.outs ++ o ∧
      t.rows = r ∧ t.cols = c ∧ operationResult t o = some (Source.decompress r c ks))

/-- Round trip (R173): for every finite symbol sequence, an `ENC` and then a `DEC` of its output end with
`ERR = 0` and give the sequence back. -/
def Obligations.RoundTrip : Prop :=
  ∀ (s s' : State) (input : List Sym), s.Inv → s.mode = .idle → s'.Inv → s'.mode = .idle →
    ∃ t o bytes t' o', runOperation .enc input s = .next t ∧ t.outs = s.outs ++ o ∧
      operationResult t o = some (.ok (.bytes bytes)) ∧
      runOperation .dec bytes s' = .next t' ∧ t'.outs = s'.outs ++ o' ∧ t'.err = .none ∧
      operationResult t' o' = some (.ok (.bytes input))

/-- Framed round trip (R199): a `CMP` of exactly `r × c` samples and then a `DCMP` of its output end with
`ERR = 0`, leave `ROWS = r` and `COLS = c`, and give the samples back, with the dimensions (R197, R237). -/
def Obligations.FramedRoundTrip : Prop :=
  ∀ (s s' : State) (samples : List Sym), s.Inv → s.mode = .idle → s'.Inv → s'.mode = .idle →
    samples.length = s.rows.toNat * s.cols.toNat →
    ∃ t o bytes t' o', runOperation .cmp samples s = .next t ∧ t.outs = s.outs ++ o ∧ t.err = .none ∧
      operationResult t o = some (.ok (.bytes bytes)) ∧
      runOperation .dcmp bytes s' = .next t' ∧ t'.outs = s'.outs ++ o' ∧ t'.err = .none ∧
      t'.rows = s.rows ∧ t'.cols = s.cols ∧
      operationResult t' o' = some (.ok (.grid samples s.rows s.cols))

/-- Nothing but `ROWS` and `COLS` survives from one operation to the next (R5, R6, R150): the outputs of a
whole operation are a function of its input and the two registers, whatever dictionary, working registers
and counters earlier operations left. -/
def Obligations.NothingElseSurvivesAnOperation : Prop :=
  ∀ (m : Mode) (input : List Sym) (r c : Word), m ≠ .idle →
    ∃ o : List OutEvent, ∀ s : State, s.Inv → s.mode = .idle → s.rows = r → s.cols = c →
      ∃ t, runOperation m input s = .next t ∧ t.outs = s.outs ++ o

/-- The encoder's counters (R147, R148, R149), as an invariant of the step. -/
def Obligations.EncoderCountsInvariant : Prop :=
  State.reset.EncoderCounts ∧
  ∀ s t : State, s.Inv → s.EncoderCounts → step s = .next t → t.EncoderCounts

/-- The decoder's counters (R174), as an invariant of the step. -/
def Obligations.DecoderCountsInvariant : Prop :=
  State.reset.DecoderCounts ∧
  ∀ s t : State, s.Inv → s.DecoderCounts → step s = .next t → t.DecoderCounts

/-! ## What the host computes (43_frame.md) -/

/-- The compression ratio (R198, R224): after a `CMP` that ended with `ERR = 0` it is `(ROWS × COLS) / OCNT`
when `Z = 0` and `DivideByZero` when `Z = 1`. -/
def Obligations.CompressionRatio : Prop :=
  ∀ s : State, s.op = .cmp → s.done = true → s.err = .none →
    (s.z = false → compressionRatio s = .ratio ((s.rows.toNat * s.cols.toNat : Nat) / (s.ocnt : Rat))) ∧
    (s.z = true → compressionRatio s = .error .divideByZero)

/-- Row-major order (R190): sample `(r, c)` is symbol number `r × COLS + c` of the flat sequence, which has
`ROWS × COLS` symbols, and symbol `i` is the sample of row `i div COLS`, column `i mod COLS`. -/
def Obligations.RowMajorOrder : Prop :=
  ∀ (rows cols : Nat) (g : Nat → Nat → Sym),
    (flattenGrid rows cols g).length = rows * cols ∧
    (∀ r c, r < rows → c < cols → (flattenGrid rows cols g)[sampleIndex cols r c]? = some (g r c) ∧
      sampleRow cols (sampleIndex cols r c) = r ∧ sampleCol cols (sampleIndex cols r c) = c) ∧
    (∀ i, i < rows * cols → sampleRow cols i < rows ∧ sampleCol cols i < cols ∧
      sampleIndex cols (sampleRow cols i) (sampleCol cols i) = i)
end

