-- ==== Sys2Proof/Laws/Bits.lean ====
section
/-! SUPPORT. Fields of concatenated bit vectors, as numbers: what the encoder writes is what the decoder reads. -/

namespace Sys2Proof

/-- A concatenation as a number: the left part in the more significant position. -/
theorem toNat_concat {m n : Nat} (a : BitVec m) (b : BitVec n) :
    (a ++ b).toNat = a.toNat * 2 ^ n + b.toNat := by
  rw [BitVec.toNat_append, Nat.shiftLeft_eq, Nat.mul_comm, ← Nat.two_pow_add_eq_or_of_lt b.isLt]

/-- A field as a number. -/
theorem toNat_field {w : Nat} (v : BitVec w) (lo n : Nat) :
    (v.extractLsb' lo n).toNat = v.toNat / 2 ^ lo % 2 ^ n := by
  rw [BitVec.extractLsb'_toNat, Nat.shiftRight_eq_div_pow]

@[simp] theorem wr_offset (off : BitVec 8) (v : Word) : (off ++ v).extractLsb' 32 8 = off := by
  apply BitVec.eq_of_toNat_eq
  rw [toNat_field, toNat_concat]
  have := v.isLt
  have := off.isLt
  omega

@[simp] theorem wr_value (off : BitVec 8) (v : Word) : (off ++ v).extractLsb' 0 32 = v := by
  apply BitVec.eq_of_toNat_eq
  rw [toNat_field, toNat_concat]
  have := v.isLt
  omega

@[simp] theorem hdrRows_concat (r c : Word) : hdrRows (r ++ c) = r := by
  apply BitVec.eq_of_toNat_eq
  rw [hdrRows, toNat_field, toNat_concat]
  have := c.isLt
  have := r.isLt
  omega

@[simp] theorem hdrCols_concat (r c : Word) : hdrCols (r ++ c) = c := by
  apply BitVec.eq_of_toNat_eq
  rw [hdrCols, toNat_field, toNat_concat]
  have := c.isLt
  omega

/-- `HDR` is its two halves (30_encoding.md R94). -/
theorem hdr_halves (h : BitVec 64) : hdrRows h ++ hdrCols h = h := by
  apply BitVec.eq_of_toNat_eq
  rw [toNat_concat, hdrRows, hdrCols, toNat_field, toNat_field]
  have := h.isLt
  omega

/-- A code is its two bytes (R90). -/
theorem code_halves (k : Code) : codeHigh k ++ codeLow k = k := by
  apply BitVec.eq_of_toNat_eq
  rw [toNat_concat, codeHigh, codeLow, toNat_field, toNat_field]
  have := k.isLt
  omega

@[simp] theorem beat_isData (b : Sym) : (0#1 ++ b).extractLsb' 8 1 = 0#1 := by
  apply BitVec.eq_of_toNat_eq
  rw [toNat_field, toNat_concat]
  have := b.isLt
  omega

@[simp] theorem beat_data (b : Sym) : (0#1 ++ b).extractLsb' 0 8 = b := by
  apply BitVec.eq_of_toNat_eq
  rw [toNat_field, toNat_concat]
  have := b.isLt
  omega

/-- A data beat decodes by its byte. -/
@[simp] theorem decode_inByte (c : Ctx) (b : Sym) : decode c (encodeInByte b) = decodeInByte c b := by
  simp [decode, encodeInByte, decodeBeat]

/-- An end beat decodes as an end beat. -/
@[simp] theorem decode_endMark (c : Ctx) : decode c encodeEndMark = decodeEndMark c := rfl

/-- A register write decodes by its offset and value. -/
@[simp] theorem decode_regWrite (c : Ctx) (off : BitVec 8) (v : Word) :
    decode c (.regWrite (off ++ v)) = decodeWrite off v := by
  simp [decode]

/-- Every word from 5 on is a reserved command (R97, R98). -/
theorem decodeCmd_reserved {v : Word} (h : 5 ≤ v.toNat) : decodeCmd v = .cmdReserved v := by
  unfold decodeCmd
  split
  · rename_i h0
    have e0 := congrArg BitVec.toNat h0
    rw [toNat_field] at e0
    have hv := v.isLt
    repeat' split
    all_goals first | rfl | skip
    all_goals
      rename_i h1
      have e1 := congrArg BitVec.toNat h1
      rw [toNat_field] at e1
      simp at e0 e1
      omega
  · rfl

/-- The command words (R97). -/
theorem decodeCmd_cases (v : Word) :
    (v = 0 ∧ decodeCmd v = .nop) ∨ (v = 1 ∧ decodeCmd v = .enc) ∨ (v = 2 ∧ decodeCmd v = .dec) ∨
    (v = 3 ∧ decodeCmd v = .cmp) ∨ (v = 4 ∧ decodeCmd v = .dcmp) ∨
    (5 ≤ v.toNat ∧ decodeCmd v = .cmdReserved v) := by
  by_cases h : 5 ≤ v.toNat
  · exact .inr (.inr (.inr (.inr (.inr ⟨h, decodeCmd_reserved h⟩))))
  · have cases5 : ∀ n < 5, v.toNat = n → v = BitVec.ofNat 32 n := fun n hn hv =>
      BitVec.eq_of_toNat_eq (by rw [hv, BitVec.toNat_ofNat]; omega)
    have : v.toNat = 0 ∨ v.toNat = 1 ∨ v.toNat = 2 ∨ v.toNat = 3 ∨ v.toNat = 4 := by omega
    rcases this with h | h | h | h | h <;> obtain rfl := cases5 _ (by omega) h <;> simp <;> rfl

end Sys2Proof
end

