-- ==== Sys2Proof/Laws/Memory.lean ====
section
/-! SUPPORT. The dictionary RAM's list: reading after writing, and the canonical form, which every operation keeps. -/

namespace Sys2Proof.Machine

@[simp] theorem Memory.get_nil (a : Nat) : Memory.get [] a = none := rfl

theorem Memory.get_cons (b : Nat) (e : Entry) (m : Memory) (a : Nat) :
    Memory.get ((b, e) :: m) a = if a = b then some e else Memory.get m a := rfl

/-- A read after a write to the same code gives the word written. -/
@[simp] theorem Memory.get_set_self (m : Memory) (a : Nat) (e : Entry) :
    (Memory.set m a e).get a = some e := by
  induction m with
  | nil => simp [Memory.set, Memory.get_cons]
  | cons x m ih =>
    obtain ⟨b, f⟩ := x
    simp only [Memory.set]
    split
    · simp [Memory.get_cons]
    · split
      · simp [Memory.get_cons]
      · rw [Memory.get_cons, if_neg ‹_›, ih]

/-- A write leaves every other word alone. -/
theorem Memory.get_set_of_ne (m : Memory) {a b : Nat} (e : Entry) (h : b ≠ a) :
    (Memory.set m a e).get b = m.get b := by
  induction m with
  | nil => simp [Memory.set, Memory.get_cons, h]
  | cons x m ih =>
    obtain ⟨c, f⟩ := x
    simp only [Memory.set]
    split
    · simp [Memory.get_cons, h]
    · split
      · simp [Memory.get_cons, h, ← ‹a = c›]
      · simp only [Memory.get_cons, ih]

theorem Memory.sortedFrom_cons (lo a : Nat) (e : Entry) (m : Memory) :
    Memory.sortedFrom lo ((a, e) :: m) = true ↔
      lo ≤ a ∧ a < 65536 ∧ Memory.sortedFrom (a + 1) m = true := by
  simp only [Memory.sortedFrom, Bool.and_eq_true, decide_eq_true_eq, and_assoc]

theorem Memory.sortedFrom_mono {lo hi : Nat} (m : Memory) (h : lo ≤ hi)
    (hm : Memory.sortedFrom hi m = true) : Memory.sortedFrom lo m = true := by
  cases m with
  | nil => rfl
  | cons x m =>
    obtain ⟨a, e⟩ := x
    rw [Memory.sortedFrom_cons] at hm ⊢
    exact ⟨by omega, hm.2⟩

/-- A write at a code of the RAM keeps the codes rising. -/
theorem Memory.sortedFrom_set {lo a : Nat} (m : Memory) (e : Entry) (hlo : lo ≤ a) (ha : a < 65536)
    (hm : Memory.sortedFrom lo m = true) : Memory.sortedFrom lo (Memory.set m a e) = true := by
  induction m generalizing lo with
  | nil =>
    rw [Memory.set, Memory.sortedFrom_cons]
    exact ⟨hlo, ha, rfl⟩
  | cons x m ih =>
    obtain ⟨b, f⟩ := x
    rw [Memory.sortedFrom_cons] at hm
    simp only [Memory.set]
    split
    · rw [Memory.sortedFrom_cons, Memory.sortedFrom_cons]
      exact ⟨hlo, ha, by omega, hm.2⟩
    · split
      · rw [Memory.sortedFrom_cons]
        exact ⟨hlo, ha, by simpa [‹a = b›] using hm.2.2⟩
      · rw [Memory.sortedFrom_cons]
        exact ⟨hm.1, hm.2.1, ih (by omega) hm.2.2⟩

/-- A listed word of a canonical list stands at a code of the RAM. -/
theorem Memory.get_bounds {lo a : Nat} {e : Entry} (m : Memory) (hm : Memory.sortedFrom lo m = true)
    (h : m.get a = some e) : lo ≤ a ∧ a < 65536 := by
  induction m generalizing lo with
  | nil => simp at h
  | cons x m ih =>
    obtain ⟨b, f⟩ := x
    rw [Memory.sortedFrom_cons] at hm
    rw [Memory.get_cons] at h
    split at h
    · omega
    · have := ih hm.2.2 h
      omega

/-- The first listed word that satisfies `p` is the least code whose word satisfies it. -/
theorem Memory.find_some {lo : Nat} {p : Nat × Entry → Bool} {x : Nat × Entry} (m : Memory)
    (hm : Memory.sortedFrom lo m = true) (h : m.find? p = some x) :
    m.get x.1 = some x.2 ∧ p x = true ∧ ∀ b f, m.get b = some f → p (b, f) = true → x.1 ≤ b := by
  induction m generalizing lo with
  | nil => simp at h
  | cons y m ih =>
    obtain ⟨a, e⟩ := y
    rw [Memory.sortedFrom_cons] at hm
    rw [List.find?_cons] at h
    split at h
    · cases h
      refine ⟨by simp [Memory.get_cons], ‹_›, fun b f hb _ => ?_⟩
      rw [Memory.get_cons] at hb
      split at hb
      · exact Nat.le_of_eq (by omega)
      · have := Memory.get_bounds m hm.2.2 hb
        show a ≤ b
        omega
    · obtain ⟨h1, h2, h3⟩ := ih hm.2.2 h
      have hx := Memory.get_bounds m hm.2.2 h1
      refine ⟨by rw [Memory.get_cons, if_neg (by omega), h1], h2, fun b f hb hp => ?_⟩
      rw [Memory.get_cons] at hb
      split at hb
      · cases hb
        subst_vars
        simp_all
      · exact h3 b f hb hp

/-- With no listed word that satisfies `p`, no word that is read satisfies it. -/
theorem Memory.find_none {p : Nat × Entry → Bool} (m : Memory) (h : m.find? p = none) :
    ∀ b f, m.get b = some f → p (b, f) = false := by
  induction m with
  | nil => simp
  | cons y m ih =>
    obtain ⟨a, e⟩ := y
    rw [List.find?_cons] at h
    split at h
    · cases h
    · intro b f hb
      rw [Memory.get_cons] at hb
      split at hb
      · cases hb
        subst_vars
        assumption
      · exact ih h b f hb

theorem Memory.wf_reset : Memory.wf State.reset.dict = true := rfl

/-- An append inside the RAM keeps the canonical form. -/
theorem Memory.wf_set {m : Memory} {a : Nat} (e : Entry) (hlo : 256 ≤ a) (ha : a < 65536)
    (hm : m.wf = true) : Memory.wf (m.set a e) = true :=
  Memory.sortedFrom_set m e hlo ha hm

/-- Equal reads at every code make canonical lists equal: equal memories are equal data. -/
theorem Memory.ext_of_get {lo : Nat} (m n : Memory) (hm : Memory.sortedFrom lo m = true)
    (hn : Memory.sortedFrom lo n = true) (h : ∀ a, m.get a = n.get a) : m = n := by
  induction m generalizing lo n with
  | nil =>
    cases n with
    | nil => rfl
    | cons y n =>
      have := h y.1
      rw [show y = (y.1, y.2) from rfl, Memory.get_cons, if_pos rfl] at this
      cases this
  | cons x m ih =>
    obtain ⟨a, e⟩ := x
    cases n with
    | nil =>
      have := h a
      simp [Memory.get_cons] at this
    | cons y n =>
      obtain ⟨b, f⟩ := y
      rw [Memory.sortedFrom_cons] at hm hn
      have hab : a = b := by
        by_contra hne
        have ha := h a
        have hb := h b
        rw [Memory.get_cons, Memory.get_cons, if_pos rfl, if_neg hne] at ha
        rw [Memory.get_cons, Memory.get_cons, if_pos rfl, if_neg (Ne.symm hne)] at hb
        have h1 := Memory.get_bounds n hn.2.2 ha.symm
        have h2 := Memory.get_bounds m hm.2.2 hb
        omega
      subst hab
      have hef : e = f := by
        have := h a
        simpa [Memory.get_cons] using this
      subst hef
      rw [ih n hm.2.2 hn.2.2 fun c => ?_]
      by_cases hc : c = a
      · subst hc
        have h1 : Memory.get m c = none := by
          cases hg : Memory.get m c with
          | none => rfl
          | some g => exact absurd (Memory.get_bounds m hm.2.2 hg) (by omega)
        have h2 : Memory.get n c = none := by
          cases hg : Memory.get n c with
          | none => rfl
          | some g => exact absurd (Memory.get_bounds n hn.2.2 hg) (by omega)
        rw [h1, h2]
      · have := h c
        simpa [Memory.get_cons, hc] using this

end Sys2Proof.Machine
end

