-- ==== Sys2Proof/Laws/Sequence.lean ====
section
/-! SUPPORT. Dictionary reads, sequences and the matcher: when the recursions of 10_state.md R24 and R25 end,
what they give, that an append leaves them alone, and what `Match` answers. -/

namespace Sys2Proof.Machine

/-- The prefixes come down (10_state.md R26, R27): what `Seq`, `First` and `Len` need to end. -/
def Chain (d : Memory) (next : Nat) : Prop :=
  ∀ k, 256 ≤ k → k < next → ∃ e, d.get k = some e ∧ e.pre.toNat < k

theorem State.Inv.chain {s : State} (h : s.Inv) : Chain s.dict s.next.toNat := h.entries

/-- A dictionary read succeeds exactly on a present dynamic word. -/
theorem dictRead_ok {d : Memory} {next : Nat} {k : Code} {e : Entry} :
    dictRead d next k = .ok e ↔ 256 ≤ k.toNat ∧ k.toNat < next ∧ d.get k.toNat = some e := by
  unfold dictRead Config.firstDyn
  split
  · cases h : d.get k.toNat <;> simp_all
  · simp; omega

/-- `Seq` of a literal code. -/
theorem seqAux_lit (d : Memory) (next fuel : Nat) {k : Code} (h : k.toNat < 256) :
    seqAux d next (fuel + 1) k = .ok [codeLow k] := by
  simp [seqAux, Config.firstDyn, h]

theorem firstAux_lit (d : Memory) (next fuel : Nat) {k : Code} (h : k.toNat < 256) :
    firstAux d next (fuel + 1) k = .ok (codeLow k) := by
  simp [firstAux, Config.firstDyn, h]

theorem lenAux_lit (d : Memory) (next fuel : Nat) {k : Code} (h : k.toNat < 256) :
    lenAux d next (fuel + 1) k = .ok 1 := by
  simp [lenAux, Config.firstDyn, h]

/-- `Seq` of a present dynamic code, one link down its chain. -/
theorem seqAux_dyn {d : Memory} {next : Nat} (fuel : Nat) {k : Code} {e : Entry}
    (h : dictRead d next k = .ok e) :
    seqAux d next (fuel + 1) k =
      match seqAux d next fuel e.pre with
      | .error f => .error f
      | .ok l => .ok (l ++ [e.suf]) := by
  have := (dictRead_ok.mp h).1
  rw [seqAux, if_neg (Nat.not_lt.mpr this)]
  generalize dictRead d next k = r at h ⊢
  subst h
  rfl

theorem firstAux_dyn {d : Memory} {next : Nat} (fuel : Nat) {k : Code} {e : Entry}
    (h : dictRead d next k = .ok e) :
    firstAux d next (fuel + 1) k = firstAux d next fuel e.pre := by
  have := (dictRead_ok.mp h).1
  simp [firstAux, Config.firstDyn, show ¬ k.toNat < 256 by omega, h]

theorem lenAux_dyn {d : Memory} {next : Nat} (fuel : Nat) {k : Code} {e : Entry}
    (h : dictRead d next k = .ok e) :
    lenAux d next (fuel + 1) k =
      match lenAux d next fuel e.pre with
      | .error f => .error f
      | .ok n => .ok (n + 1) := by
  have := (dictRead_ok.mp h).1
  rw [lenAux, if_neg (Nat.not_lt.mpr this)]
  generalize dictRead d next k = r at h ⊢
  subst h
  rfl

/-- A present dynamic code has a word, whose prefix is a smaller present code. -/
theorem Chain.read {d : Memory} {next : Nat} (h : Chain d next) {k : Code} (h1 : 256 ≤ k.toNat)
    (h2 : k.toNat < next) : ∃ e, dictRead d next k = .ok e ∧ e.pre.toNat < k.toNat := by
  obtain ⟨e, he, hp⟩ := h k.toNat h1 h2
  exact ⟨e, dictRead_ok.mpr ⟨h1, h2, he⟩, hp⟩

/-- With chains that come down, `Seq`, `First` and `Len` of a present code succeed and agree, and `Len` is
bounded (10_state.md R27, R29). -/
theorem Chain.sequence {d : Memory} {next : Nat} (h : Chain d next) :
    ∀ fuel (k : Code), k.toNat < fuel → k.toNat < next → ∃ c l,
      seqAux d next fuel k = .ok (c :: l) ∧ firstAux d next fuel k = .ok c ∧
      lenAux d next fuel k = .ok (l.length + 1) ∧
      (k.toNat < 256 → l = []) ∧ (256 ≤ k.toNat → 1 ≤ l.length ∧ l.length + 1 ≤ k.toNat - 254) := by
  intro fuel
  induction fuel with
  | zero => intro k hk; omega
  | succ fuel ih =>
    intro k hk hn
    by_cases hlit : k.toNat < 256
    · exact ⟨codeLow k, [], seqAux_lit d next fuel hlit, firstAux_lit d next fuel hlit,
        lenAux_lit d next fuel hlit, fun _ => rfl, fun _ => by omega⟩
    · obtain ⟨e, he, hp⟩ := h.read (by omega) hn
      obtain ⟨c, l, h1, h2, h3, h4, h5⟩ := ih e.pre (by omega) (by omega)
      refine ⟨c, l ++ [e.suf], ?_, ?_, ?_, fun _ => by omega, fun _ => ?_⟩
      · rw [seqAux_dyn fuel he, h1]; rfl
      · rw [firstAux_dyn fuel he, h2]
      · rw [lenAux_dyn fuel he, h3]; simp
      · by_cases hq : e.pre.toNat < 256
        · simp [h4 hq]; omega
        · have := h5 (by omega)
          simp; omega

/-- The amount of fuel makes no difference once it exceeds the code. -/
theorem Chain.fuel {d : Memory} {next : Nat} (h : Chain d next) :
    ∀ f g (k : Code), k.toNat < f → k.toNat < g → k.toNat < next →
      seqAux d next f k = seqAux d next g k := by
  intro f
  induction f with
  | zero => intro g k hk; omega
  | succ f ih =>
    intro g k hf hg hn
    obtain ⟨g, rfl⟩ : ∃ g', g = g' + 1 := ⟨g - 1, by omega⟩
    by_cases hlit : k.toNat < 256
    · rw [seqAux_lit d next f hlit, seqAux_lit d next g hlit]
    · obtain ⟨e, he, hp⟩ := h.read (by omega) hn
      rw [seqAux_dyn f he, seqAux_dyn g he, ih g e.pre (by omega) (by omega) (by omega)]

/-- `Seq(k)` as a list (empty where the recursion does not succeed). -/
def seqAt (d : Memory) (next : Nat) (k : Code) : List Sym :=
  match seqAux d next (k.toNat + 1) k with
  | .ok l => l
  | .error _ => []

/-- `Seq`, `First` and `Len` of a present code, in terms of `seqAt`. -/
theorem Chain.eval {d : Memory} {next : Nat} (h : Chain d next) {k : Code} (hk : k.toNat < next) :
    seqAux d next (k.toNat + 1) k = .ok (seqAt d next k) ∧
    lenAux d next (k.toNat + 1) k = .ok (seqAt d next k).length ∧
    ∃ c l, seqAt d next k = c :: l ∧ firstAux d next (k.toNat + 1) k = .ok c := by
  obtain ⟨c, l, h1, h2, h3, -⟩ := h.sequence (k.toNat + 1) k (by omega) hk
  have : seqAt d next k = c :: l := by simp [seqAt, h1]
  exact ⟨by rw [this, h1], by rw [this, h3]; rfl, c, l, this, h2⟩

theorem seqAt_lit (d : Memory) (next : Nat) {k : Code} (h : k.toNat < 256) :
    seqAt d next k = [codeLow k] := by
  simp [seqAt, seqAux_lit d next k.toNat h]

/-- The defining equation of `Seq` on a present dynamic code (10_state.md R24). -/
theorem Chain.seqAt_dyn {d : Memory} {next : Nat} (h : Chain d next) {k : Code} {e : Entry}
    (h1 : 256 ≤ k.toNat) (h2 : k.toNat < next) (he : d.get k.toNat = some e) :
    seqAt d next k = seqAt d next e.pre ++ [e.suf] := by
  obtain ⟨e', he', hp⟩ := h.read h1 h2
  obtain rfl : e' = e := by
    have := (dictRead_ok.mp he').2.2
    rw [he] at this
    exact (Option.some.inj this).symm
  have hs := (h.eval (k := e'.pre) (by omega)).1
  rw [h.fuel _ k.toNat _ (by omega) hp (by omega)] at hs
  simp [seqAt, seqAux_dyn k.toNat he', hs]

/-- A larger dictionary that holds the same present words gives every present code the same sequence, first
symbol and length: an append leaves present entries alone (10_state.md R26). -/
theorem Chain.stable {d d' : Memory} {next next' : Nat} (h : Chain d next) (hn : next ≤ next')
    (hd : ∀ j, 256 ≤ j → j < next → d'.get j = d.get j) :
    ∀ fuel (k : Code), k.toNat < next →
      seqAux d' next' fuel k = seqAux d next fuel k ∧
      firstAux d' next' fuel k = firstAux d next fuel k ∧
      lenAux d' next' fuel k = lenAux d next fuel k := by
  intro fuel
  induction fuel with
  | zero => intro k _; exact ⟨rfl, rfl, rfl⟩
  | succ fuel ih =>
    intro k hk
    by_cases hlit : k.toNat < 256
    · simp only [seqAux_lit _ _ fuel hlit, firstAux_lit _ _ fuel hlit, lenAux_lit _ _ fuel hlit, and_self]
    · obtain ⟨e, he, hp⟩ := h.read (by omega) hk
      have h3 := dictRead_ok.mp he
      have he' : dictRead d' next' k = .ok e :=
        dictRead_ok.mpr ⟨h3.1, by omega, by rw [hd _ h3.1 hk, h3.2.2]⟩
      obtain ⟨i1, i2, i3⟩ := ih e.pre (by omega)
      rw [seqAux_dyn fuel he, seqAux_dyn fuel he', firstAux_dyn fuel he, firstAux_dyn fuel he',
        lenAux_dyn fuel he, lenAux_dyn fuel he', i1, i2, i3]
      exact ⟨rfl, rfl, rfl⟩

theorem Chain.seqAt_stable {d d' : Memory} {next next' : Nat} (h : Chain d next) (hn : next ≤ next')
    (hd : ∀ j, 256 ≤ j → j < next → d'.get j = d.get j) {k : Code} (hk : k.toNat < next) :
    seqAt d' next' k = seqAt d next k := by
  simp only [seqAt, (h.stable hn hd _ k hk).1]

/-- An append with a present prefix keeps the chains coming down. -/
theorem Chain.append {d : Memory} {next : Nat} (h : Chain d next) (e : Entry) (he : e.pre.toNat < next) :
    Chain (d.set next e) (next + 1) := by
  intro k h1 h2
  by_cases hk : k = next
  · subst hk
    exact ⟨e, Memory.get_set_self d k e, he⟩
  · rw [Memory.get_set_of_ne d e hk]
    exact h k h1 (by omega)

/-! ## The matcher (20_memory.md R63) -/

/-- `Match` answers a present dynamic code that holds the pair, and the least one. -/
theorem matchEntry_some {d : Memory} {next : Nat} {w k : Code} {c : Sym} (hd : d.wf = true)
    (h : matchEntry d next w c = some k) :
    256 ≤ k.toNat ∧ k.toNat < next ∧ d.get k.toNat = some ⟨w, c⟩ ∧
      ∀ j, 256 ≤ j → j < next → d.get j = some ⟨w, c⟩ → k.toNat ≤ j := by
  unfold matchEntry at h
  rw [Option.map_eq_some_iff] at h
  obtain ⟨⟨a, e⟩, hx, rfl⟩ := h
  obtain ⟨h1, h2, h3⟩ := Memory.find_some d hd hx
  have hb := Memory.get_bounds d hd h1
  simp only [Config.firstDyn, Bool.and_eq_true, decide_eq_true_eq] at h2
  obtain ⟨⟨h4, h5⟩, rfl⟩ := h2
  have ha : (BitVec.ofNat 16 a).toNat = a := by
    rw [BitVec.toNat_ofNat]; exact Nat.mod_eq_of_lt hb.2
  dsimp only at h1 h3 ⊢
  rw [ha]
  exact ⟨h4, h5, h1, fun j hj1 hj2 hj => h3 j _ hj (by simp [Config.firstDyn, hj1, hj2])⟩

/-- `Match` answers `none` exactly when no present dynamic code holds the pair. -/
theorem matchEntry_none {d : Memory} {next : Nat} {w : Code} {c : Sym}
    (h : matchEntry d next w c = none) :
    ∀ j, 256 ≤ j → j < next → d.get j ≠ some ⟨w, c⟩ := by
  intro j h1 h2 hj
  unfold matchEntry at h
  rw [Option.map_eq_none_iff] at h
  have := Memory.find_none d h j _ hj
  simp [Config.firstDyn, h1, h2] at this

/-- No pair is held twice by present codes (10_state.md R28). -/
def Unique (d : Memory) (next : Nat) : Prop :=
  ∀ j k e, 256 ≤ j → j < next → 256 ≤ k → k < next → d.get j = some e → d.get k = some e → j = k

theorem State.Inv.uniqueIn {s : State} (h : s.Inv) (hm : s.mode = .enc ∨ s.mode = .cmp) :
    Unique s.dict s.next.toNat := h.unique hm

/-- Appending a pair that is held by no present code keeps pairs unique. -/
theorem Unique.append {d : Memory} {next : Nat} {w : Code} {c : Sym} (h : Unique d next)
    (hm : matchEntry d next w c = none) : Unique (d.set next ⟨w, c⟩) (next + 1) := by
  intro j k e hj1 hj2 hk1 hk2 hj hk
  have hnone := matchEntry_none hm
  by_cases hjn : j = next <;> by_cases hkn : k = next
  · omega
  · subst hjn
    rw [Memory.get_set_self] at hj
    rw [Memory.get_set_of_ne d _ hkn, ← hj] at hk
    exact absurd hk (hnone k hk1 (by omega))
  · subst hkn
    rw [Memory.get_set_self] at hk
    rw [Memory.get_set_of_ne d _ hjn, ← hk] at hj
    exact absurd hj (hnone j hj1 (by omega))
  · rw [Memory.get_set_of_ne d _ hjn] at hj
    rw [Memory.get_set_of_ne d _ hkn] at hk
    exact h j k e hj1 (by omega) hk1 (by omega) hj hk

/-- A literal sequence tells its code. -/
theorem codeLow_inj {j k : Code} (hj : j.toNat < 256) (hk : k.toNat < 256)
    (h : codeLow j = codeLow k) : j = k := by
  apply BitVec.eq_of_toNat_eq
  have := congrArg BitVec.toNat h
  simp only [codeLow, BitVec.extractLsb'_toNat, Nat.shiftRight_zero] at this
  omega

/-- With unique pairs, different present codes stand for different sequences (10_state.md R28). -/
theorem Chain.seqAt_inj {d : Memory} {next : Nat} (h : Chain d next) (hu : Unique d next) :
    ∀ n (j k : Code), j.toNat < n → j.toNat < next → k.toNat < next →
      seqAt d next j = seqAt d next k → j = k := by
  intro n
  induction n with
  | zero => intro j k hj; omega
  | succ n ih =>
    intro j k hn hj hk heq
    have two : ∀ {q : Code}, 256 ≤ q.toNat → q.toNat < next → ∃ e, d.get q.toNat = some e ∧
        e.pre.toNat < q.toNat ∧ seqAt d next q = seqAt d next e.pre ++ [e.suf] ∧
        seqAt d next e.pre ≠ [] := by
      intro q h1 h2
      obtain ⟨e, he, hp⟩ := h q.toNat h1 h2
      obtain ⟨-, -, c, l, hl, -⟩ := h.eval (k := e.pre) (by omega)
      exact ⟨e, he, hp, h.seqAt_dyn h1 h2 he, by simp [hl]⟩
    by_cases hjl : j.toNat < 256 <;> by_cases hkl : k.toNat < 256
    · rw [seqAt_lit d next hjl, seqAt_lit d next hkl] at heq
      exact codeLow_inj hjl hkl (by simpa using heq)
    · obtain ⟨e, -, -, hs, hne⟩ := two (q := k) (by omega) hk
      rw [seqAt_lit d next hjl, hs] at heq
      have h1 := congrArg List.length heq
      have h2 := List.length_pos_iff.mpr hne
      simp only [List.length_append, List.length_singleton] at h1
      omega
    · obtain ⟨e, -, -, hs, hne⟩ := two (q := j) (by omega) hj
      rw [seqAt_lit d next hkl, hs] at heq
      have h1 := congrArg List.length heq
      have h2 := List.length_pos_iff.mpr hne
      simp only [List.length_append, List.length_singleton] at h1
      omega
    · obtain ⟨e, he, hp, hs, -⟩ := two (q := j) (by omega) hj
      obtain ⟨f, hf, hq, ht, -⟩ := two (q := k) (by omega) hk
      rw [hs, ht] at heq
      obtain ⟨h1, h2⟩ := List.append_inj' heq rfl
      have hpre : e.pre = f.pre := ih e.pre f.pre (by omega) (by omega) (by omega) h1
      have hsuf : e.suf = f.suf := by simpa using h2
      have hef : e = f := by
        cases e; cases f; simp_all
      subst hef
      exact BitVec.eq_of_toNat_eq (hu _ _ e (by omega) hj (by omega) hk he hf)

/-- `Match` answers the question "is `wc` a dictionary entry" (20_memory.md R63, 41_encode.md R151). -/
theorem Chain.match_iff_mem {d : Memory} {next : Nat} (h : Chain d next) (hu : Unique d next)
    (hd : d.wf = true) {w : Code} {c : Sym} (hw : w.toNat < next) (k : Code) (hk : k.toNat < next) :
    matchEntry d next w c = some k ↔ seqAt d next k = seqAt d next w ++ [c] := by
  constructor
  · intro hm
    obtain ⟨h1, h2, h3, -⟩ := matchEntry_some hd hm
    exact h.seqAt_dyn h1 h2 h3
  · intro hs
    have h1 : 256 ≤ k.toNat := by
      by_contra hlit
      obtain ⟨-, -, c', l, hl, -⟩ := h.eval hw
      rw [seqAt_lit d next (by omega), hl] at hs
      simp at hs
    obtain ⟨e, he, hp⟩ := h k.toNat h1 hk
    rw [h.seqAt_dyn h1 hk he] at hs
    obtain ⟨h2, h3⟩ := List.append_inj' hs rfl
    have hpre : e.pre = w := h.seqAt_inj hu (e.pre.toNat + 1) _ _ (by omega) (by omega) hw h2
    have hget : d.get k.toNat = some ⟨w, c⟩ := by
      rw [he, ← hpre, ← (List.cons.inj h3).1]
    cases hm : matchEntry d next w c with
    | none => exact absurd hget (matchEntry_none hm k.toNat h1 hk)
    | some j =>
      obtain ⟨g1, g2, g3, -⟩ := matchEntry_some hd hm
      rw [BitVec.eq_of_toNat_eq (hu _ _ _ g1 g2 h1 hk g3 hget)]

end Sys2Proof.Machine
end

