-- ==== Sys2Proof/Laws/State.lean ====
section
/-! SUPPORT. One lemma per field of the state per named update, so that no proof unfolds one. -/

namespace Sys2Proof.Machine

/-! ## emitBytes -/

@[simp] theorem emitBytes_mode (bs : List Sym) (s : State) : (emitBytes bs s).mode = s.mode := rfl
@[simp] theorem emitBytes_op (bs : List Sym) (s : State) : (emitBytes bs s).op = s.op := rfl
@[simp] theorem emitBytes_done (bs : List Sym) (s : State) : (emitBytes bs s).done = s.done := rfl
@[simp] theorem emitBytes_err (bs : List Sym) (s : State) : (emitBytes bs s).err = s.err := rfl
@[simp] theorem emitBytes_z (bs : List Sym) (s : State) : (emitBytes bs s).z = s.z := rfl
@[simp] theorem emitBytes_errinfo (bs : List Sym) (s : State) : (emitBytes bs s).errinfo = s.errinfo := rfl
@[simp] theorem emitBytes_rows (bs : List Sym) (s : State) : (emitBytes bs s).rows = s.rows := rfl
@[simp] theorem emitBytes_cols (bs : List Sym) (s : State) : (emitBytes bs s).cols = s.cols := rfl
@[simp] theorem emitBytes_icnt (bs : List Sym) (s : State) : (emitBytes bs s).icnt = s.icnt := rfl
@[simp] theorem emitBytes_ocnt (bs : List Sym) (s : State) : (emitBytes bs s).ocnt = s.ocnt := rfl
@[simp] theorem emitBytes_next (bs : List Sym) (s : State) : (emitBytes bs s).next = s.next := rfl
@[simp] theorem emitBytes_dict (bs : List Sym) (s : State) : (emitBytes bs s).dict = s.dict := rfl
@[simp] theorem emitBytes_w (bs : List Sym) (s : State) : (emitBytes bs s).w = s.w := rfl
@[simp] theorem emitBytes_wv (bs : List Sym) (s : State) : (emitBytes bs s).wv = s.wv := rfl
@[simp] theorem emitBytes_hb (bs : List Sym) (s : State) : (emitBytes bs s).hb = s.hb := rfl
@[simp] theorem emitBytes_hbv (bs : List Sym) (s : State) : (emitBytes bs s).hbv = s.hbv := rfl
@[simp] theorem emitBytes_hdr (bs : List Sym) (s : State) : (emitBytes bs s).hdr = s.hdr := rfl
@[simp] theorem emitBytes_hcnt (bs : List Sym) (s : State) : (emitBytes bs s).hcnt = s.hcnt := rfl
@[simp] theorem emitBytes_pending (bs : List Sym) (s : State) : (emitBytes bs s).pending = s.pending := rfl
@[simp] theorem emitBytes_outs (bs : List Sym) (s : State) : (emitBytes bs s).outs = s.outs ++ bs.map .out := rfl
@[simp] theorem emitBytes_reads (bs : List Sym) (s : State) : (emitBytes bs s).reads = s.reads := rfl
@[simp] theorem emitBytes_freeIx (bs : List Sym) (s : State) : (emitBytes bs s).freeIx = s.freeIx := rfl

/-! ## emitEnd -/

@[simp] theorem emitEnd_mode (e : ErrCode) (s : State) : (emitEnd e s).mode = s.mode := rfl
@[simp] theorem emitEnd_op (e : ErrCode) (s : State) : (emitEnd e s).op = s.op := rfl
@[simp] theorem emitEnd_done (e : ErrCode) (s : State) : (emitEnd e s).done = s.done := rfl
@[simp] theorem emitEnd_err (e : ErrCode) (s : State) : (emitEnd e s).err = s.err := rfl
@[simp] theorem emitEnd_z (e : ErrCode) (s : State) : (emitEnd e s).z = s.z := rfl
@[simp] theorem emitEnd_errinfo (e : ErrCode) (s : State) : (emitEnd e s).errinfo = s.errinfo := rfl
@[simp] theorem emitEnd_rows (e : ErrCode) (s : State) : (emitEnd e s).rows = s.rows := rfl
@[simp] theorem emitEnd_cols (e : ErrCode) (s : State) : (emitEnd e s).cols = s.cols := rfl
@[simp] theorem emitEnd_icnt (e : ErrCode) (s : State) : (emitEnd e s).icnt = s.icnt := rfl
@[simp] theorem emitEnd_ocnt (e : ErrCode) (s : State) : (emitEnd e s).ocnt = s.ocnt := rfl
@[simp] theorem emitEnd_next (e : ErrCode) (s : State) : (emitEnd e s).next = s.next := rfl
@[simp] theorem emitEnd_dict (e : ErrCode) (s : State) : (emitEnd e s).dict = s.dict := rfl
@[simp] theorem emitEnd_w (e : ErrCode) (s : State) : (emitEnd e s).w = s.w := rfl
@[simp] theorem emitEnd_wv (e : ErrCode) (s : State) : (emitEnd e s).wv = s.wv := rfl
@[simp] theorem emitEnd_hb (e : ErrCode) (s : State) : (emitEnd e s).hb = s.hb := rfl
@[simp] theorem emitEnd_hbv (e : ErrCode) (s : State) : (emitEnd e s).hbv = s.hbv := rfl
@[simp] theorem emitEnd_hdr (e : ErrCode) (s : State) : (emitEnd e s).hdr = s.hdr := rfl
@[simp] theorem emitEnd_hcnt (e : ErrCode) (s : State) : (emitEnd e s).hcnt = s.hcnt := rfl
@[simp] theorem emitEnd_pending (e : ErrCode) (s : State) : (emitEnd e s).pending = s.pending := rfl
@[simp] theorem emitEnd_outs (e : ErrCode) (s : State) : (emitEnd e s).outs = s.outs ++ [.outEnd e] := rfl
@[simp] theorem emitEnd_reads (e : ErrCode) (s : State) : (emitEnd e s).reads = s.reads := rfl
@[simp] theorem emitEnd_freeIx (e : ErrCode) (s : State) : (emitEnd e s).freeIx = s.freeIx := rfl

/-! ## emitCode -/

@[simp] theorem emitCode_mode (k : Code) (s : State) : (emitCode k s).mode = s.mode := rfl
@[simp] theorem emitCode_op (k : Code) (s : State) : (emitCode k s).op = s.op := rfl
@[simp] theorem emitCode_done (k : Code) (s : State) : (emitCode k s).done = s.done := rfl
@[simp] theorem emitCode_err (k : Code) (s : State) : (emitCode k s).err = s.err := rfl
@[simp] theorem emitCode_z (k : Code) (s : State) : (emitCode k s).z = s.z := rfl
@[simp] theorem emitCode_errinfo (k : Code) (s : State) : (emitCode k s).errinfo = s.errinfo := rfl
@[simp] theorem emitCode_rows (k : Code) (s : State) : (emitCode k s).rows = s.rows := rfl
@[simp] theorem emitCode_cols (k : Code) (s : State) : (emitCode k s).cols = s.cols := rfl
@[simp] theorem emitCode_icnt (k : Code) (s : State) : (emitCode k s).icnt = s.icnt := rfl
@[simp] theorem emitCode_ocnt (k : Code) (s : State) : (emitCode k s).ocnt = s.ocnt + 2 := rfl
@[simp] theorem emitCode_next (k : Code) (s : State) : (emitCode k s).next = s.next := rfl
@[simp] theorem emitCode_dict (k : Code) (s : State) : (emitCode k s).dict = s.dict := rfl
@[simp] theorem emitCode_w (k : Code) (s : State) : (emitCode k s).w = s.w := rfl
@[simp] theorem emitCode_wv (k : Code) (s : State) : (emitCode k s).wv = s.wv := rfl
@[simp] theorem emitCode_hb (k : Code) (s : State) : (emitCode k s).hb = s.hb := rfl
@[simp] theorem emitCode_hbv (k : Code) (s : State) : (emitCode k s).hbv = s.hbv := rfl
@[simp] theorem emitCode_hdr (k : Code) (s : State) : (emitCode k s).hdr = s.hdr := rfl
@[simp] theorem emitCode_hcnt (k : Code) (s : State) : (emitCode k s).hcnt = s.hcnt := rfl
@[simp] theorem emitCode_pending (k : Code) (s : State) : (emitCode k s).pending = s.pending := rfl
@[simp] theorem emitCode_outs (k : Code) (s : State) : (emitCode k s).outs = s.outs ++ (codeBytes k).map .out := rfl
@[simp] theorem emitCode_reads (k : Code) (s : State) : (emitCode k s).reads = s.reads := rfl
@[simp] theorem emitCode_freeIx (k : Code) (s : State) : (emitCode k s).freeIx = s.freeIx := rfl

/-! ## countIn -/

@[simp] theorem countIn_mode (s : State) : (countIn s).mode = s.mode := rfl
@[simp] theorem countIn_op (s : State) : (countIn s).op = s.op := rfl
@[simp] theorem countIn_done (s : State) : (countIn s).done = s.done := rfl
@[simp] theorem countIn_err (s : State) : (countIn s).err = s.err := rfl
@[simp] theorem countIn_z (s : State) : (countIn s).z = s.z := rfl
@[simp] theorem countIn_errinfo (s : State) : (countIn s).errinfo = s.errinfo := rfl
@[simp] theorem countIn_rows (s : State) : (countIn s).rows = s.rows := rfl
@[simp] theorem countIn_cols (s : State) : (countIn s).cols = s.cols := rfl
@[simp] theorem countIn_icnt (s : State) : (countIn s).icnt = s.icnt + 1 := rfl
@[simp] theorem countIn_ocnt (s : State) : (countIn s).ocnt = s.ocnt := rfl
@[simp] theorem countIn_next (s : State) : (countIn s).next = s.next := rfl
@[simp] theorem countIn_dict (s : State) : (countIn s).dict = s.dict := rfl
@[simp] theorem countIn_w (s : State) : (countIn s).w = s.w := rfl
@[simp] theorem countIn_wv (s : State) : (countIn s).wv = s.wv := rfl
@[simp] theorem countIn_hb (s : State) : (countIn s).hb = s.hb := rfl
@[simp] theorem countIn_hbv (s : State) : (countIn s).hbv = s.hbv := rfl
@[simp] theorem countIn_hdr (s : State) : (countIn s).hdr = s.hdr := rfl
@[simp] theorem countIn_hcnt (s : State) : (countIn s).hcnt = s.hcnt := rfl
@[simp] theorem countIn_pending (s : State) : (countIn s).pending = s.pending := rfl
@[simp] theorem countIn_outs (s : State) : (countIn s).outs = s.outs := rfl
@[simp] theorem countIn_reads (s : State) : (countIn s).reads = s.reads := rfl
@[simp] theorem countIn_freeIx (s : State) : (countIn s).freeIx = s.freeIx := rfl

/-! ## startOp -/

@[simp] theorem startOp_mode (m : Mode) (s : State) : (startOp m s).mode = m := rfl
@[simp] theorem startOp_op (m : Mode) (s : State) : (startOp m s).op = m := rfl
@[simp] theorem startOp_done (m : Mode) (s : State) : (startOp m s).done = false := rfl
@[simp] theorem startOp_err (m : Mode) (s : State) : (startOp m s).err = .none := rfl
@[simp] theorem startOp_z (m : Mode) (s : State) : (startOp m s).z = false := rfl
@[simp] theorem startOp_errinfo (m : Mode) (s : State) : (startOp m s).errinfo = 0 := rfl
@[simp] theorem startOp_rows (m : Mode) (s : State) : (startOp m s).rows = s.rows := rfl
@[simp] theorem startOp_cols (m : Mode) (s : State) : (startOp m s).cols = s.cols := rfl
@[simp] theorem startOp_icnt (m : Mode) (s : State) : (startOp m s).icnt = 0 := rfl
@[simp] theorem startOp_ocnt (m : Mode) (s : State) : (startOp m s).ocnt = 0 := rfl
@[simp] theorem startOp_next (m : Mode) (s : State) : (startOp m s).next = 256#17 := rfl
@[simp] theorem startOp_dict (m : Mode) (s : State) : (startOp m s).dict = s.dict := rfl
@[simp] theorem startOp_w (m : Mode) (s : State) : (startOp m s).w = s.w := rfl
@[simp] theorem startOp_wv (m : Mode) (s : State) : (startOp m s).wv = false := rfl
@[simp] theorem startOp_hb (m : Mode) (s : State) : (startOp m s).hb = s.hb := rfl
@[simp] theorem startOp_hbv (m : Mode) (s : State) : (startOp m s).hbv = false := rfl
@[simp] theorem startOp_hdr (m : Mode) (s : State) : (startOp m s).hdr = s.hdr := rfl
@[simp] theorem startOp_hcnt (m : Mode) (s : State) : (startOp m s).hcnt = 0 := rfl
@[simp] theorem startOp_pending (m : Mode) (s : State) : (startOp m s).pending = s.pending := rfl
@[simp] theorem startOp_outs (m : Mode) (s : State) : (startOp m s).outs = s.outs := rfl
@[simp] theorem startOp_reads (m : Mode) (s : State) : (startOp m s).reads = s.reads := rfl
@[simp] theorem startOp_freeIx (m : Mode) (s : State) : (startOp m s).freeIx = s.freeIx := rfl

/-! ## endOp -/

@[simp] theorem endOp_mode (s : State) : (endOp s).mode = .idle := rfl
@[simp] theorem endOp_op (s : State) : (endOp s).op = s.op := rfl
@[simp] theorem endOp_done (s : State) : (endOp s).done = true := rfl
@[simp] theorem endOp_err (s : State) : (endOp s).err = s.err := rfl
@[simp] theorem endOp_z (s : State) : (endOp s).z = zFlag s := rfl
@[simp] theorem endOp_errinfo (s : State) : (endOp s).errinfo = s.errinfo := rfl
@[simp] theorem endOp_rows (s : State) : (endOp s).rows = s.rows := rfl
@[simp] theorem endOp_cols (s : State) : (endOp s).cols = s.cols := rfl
@[simp] theorem endOp_icnt (s : State) : (endOp s).icnt = s.icnt := rfl
@[simp] theorem endOp_ocnt (s : State) : (endOp s).ocnt = s.ocnt := rfl
@[simp] theorem endOp_next (s : State) : (endOp s).next = s.next := rfl
@[simp] theorem endOp_dict (s : State) : (endOp s).dict = s.dict := rfl
@[simp] theorem endOp_w (s : State) : (endOp s).w = s.w := rfl
@[simp] theorem endOp_wv (s : State) : (endOp s).wv = s.wv := rfl
@[simp] theorem endOp_hb (s : State) : (endOp s).hb = s.hb := rfl
@[simp] theorem endOp_hbv (s : State) : (endOp s).hbv = s.hbv := rfl
@[simp] theorem endOp_hdr (s : State) : (endOp s).hdr = s.hdr := rfl
@[simp] theorem endOp_hcnt (s : State) : (endOp s).hcnt = s.hcnt := rfl
@[simp] theorem endOp_pending (s : State) : (endOp s).pending = s.pending := rfl
@[simp] theorem endOp_outs (s : State) : (endOp s).outs = s.outs ++ [.outEnd s.err] := rfl
@[simp] theorem endOp_reads (s : State) : (endOp s).reads = s.reads := rfl
@[simp] theorem endOp_freeIx (s : State) : (endOp s).freeIx = s.freeIx := rfl

/-! ## raiseError -/

@[simp] theorem raiseError_mode (e : ErrCode) (info : Word) (s : State) : (raiseError e info s).mode = s.mode := rfl
@[simp] theorem raiseError_op (e : ErrCode) (info : Word) (s : State) : (raiseError e info s).op = s.op := rfl
@[simp] theorem raiseError_done (e : ErrCode) (info : Word) (s : State) : (raiseError e info s).done = s.done := rfl
@[simp] theorem raiseError_err (e : ErrCode) (info : Word) (s : State) : (raiseError e info s).err = e := rfl
@[simp] theorem raiseError_z (e : ErrCode) (info : Word) (s : State) : (raiseError e info s).z = s.z := rfl
@[simp] theorem raiseError_errinfo (e : ErrCode) (info : Word) (s : State) : (raiseError e info s).errinfo = info := rfl
@[simp] theorem raiseError_rows (e : ErrCode) (info : Word) (s : State) : (raiseError e info s).rows = s.rows := rfl
@[simp] theorem raiseError_cols (e : ErrCode) (info : Word) (s : State) : (raiseError e info s).cols = s.cols := rfl
@[simp] theorem raiseError_icnt (e : ErrCode) (info : Word) (s : State) : (raiseError e info s).icnt = s.icnt := rfl
@[simp] theorem raiseError_ocnt (e : ErrCode) (info : Word) (s : State) : (raiseError e info s).ocnt = s.ocnt := rfl
@[simp] theorem raiseError_next (e : ErrCode) (info : Word) (s : State) : (raiseError e info s).next = s.next := rfl
@[simp] theorem raiseError_dict (e : ErrCode) (info : Word) (s : State) : (raiseError e info s).dict = s.dict := rfl
@[simp] theorem raiseError_w (e : ErrCode) (info : Word) (s : State) : (raiseError e info s).w = s.w := rfl
@[simp] theorem raiseError_wv (e : ErrCode) (info : Word) (s : State) : (raiseError e info s).wv = s.wv := rfl
@[simp] theorem raiseError_hb (e : ErrCode) (info : Word) (s : State) : (raiseError e info s).hb = s.hb := rfl
@[simp] theorem raiseError_hbv (e : ErrCode) (info : Word) (s : State) : (raiseError e info s).hbv = s.hbv := rfl
@[simp] theorem raiseError_hdr (e : ErrCode) (info : Word) (s : State) : (raiseError e info s).hdr = s.hdr := rfl
@[simp] theorem raiseError_hcnt (e : ErrCode) (info : Word) (s : State) : (raiseError e info s).hcnt = s.hcnt := rfl
@[simp] theorem raiseError_pending (e : ErrCode) (info : Word) (s : State) : (raiseError e info s).pending = s.pending := rfl
@[simp] theorem raiseError_outs (e : ErrCode) (info : Word) (s : State) : (raiseError e info s).outs = s.outs := rfl
@[simp] theorem raiseError_reads (e : ErrCode) (info : Word) (s : State) : (raiseError e info s).reads = s.reads := rfl
@[simp] theorem raiseError_freeIx (e : ErrCode) (info : Word) (s : State) : (raiseError e info s).freeIx = s.freeIx := rfl

/-! ## raiseUnderflow -/

@[simp] theorem raiseUnderflow_mode (k : Code) (s : State) : (raiseUnderflow k s).mode = s.mode := rfl
@[simp] theorem raiseUnderflow_op (k : Code) (s : State) : (raiseUnderflow k s).op = s.op := rfl
@[simp] theorem raiseUnderflow_done (k : Code) (s : State) : (raiseUnderflow k s).done = s.done := rfl
@[simp] theorem raiseUnderflow_err (k : Code) (s : State) : (raiseUnderflow k s).err = .dictionaryUnderflow := rfl
@[simp] theorem raiseUnderflow_z (k : Code) (s : State) : (raiseUnderflow k s).z = s.z := rfl
@[simp] theorem raiseUnderflow_errinfo (k : Code) (s : State) : (raiseUnderflow k s).errinfo = k.setWidth 32 := rfl
@[simp] theorem raiseUnderflow_rows (k : Code) (s : State) : (raiseUnderflow k s).rows = s.rows := rfl
@[simp] theorem raiseUnderflow_cols (k : Code) (s : State) : (raiseUnderflow k s).cols = s.cols := rfl
@[simp] theorem raiseUnderflow_icnt (k : Code) (s : State) : (raiseUnderflow k s).icnt = s.icnt := rfl
@[simp] theorem raiseUnderflow_ocnt (k : Code) (s : State) : (raiseUnderflow k s).ocnt = s.ocnt := rfl
@[simp] theorem raiseUnderflow_next (k : Code) (s : State) : (raiseUnderflow k s).next = s.next := rfl
@[simp] theorem raiseUnderflow_dict (k : Code) (s : State) : (raiseUnderflow k s).dict = s.dict := rfl
@[simp] theorem raiseUnderflow_w (k : Code) (s : State) : (raiseUnderflow k s).w = s.w := rfl
@[simp] theorem raiseUnderflow_wv (k : Code) (s : State) : (raiseUnderflow k s).wv = s.wv := rfl
@[simp] theorem raiseUnderflow_hb (k : Code) (s : State) : (raiseUnderflow k s).hb = s.hb := rfl
@[simp] theorem raiseUnderflow_hbv (k : Code) (s : State) : (raiseUnderflow k s).hbv = s.hbv := rfl
@[simp] theorem raiseUnderflow_hdr (k : Code) (s : State) : (raiseUnderflow k s).hdr = s.hdr := rfl
@[simp] theorem raiseUnderflow_hcnt (k : Code) (s : State) : (raiseUnderflow k s).hcnt = s.hcnt := rfl
@[simp] theorem raiseUnderflow_pending (k : Code) (s : State) : (raiseUnderflow k s).pending = s.pending := rfl
@[simp] theorem raiseUnderflow_outs (k : Code) (s : State) : (raiseUnderflow k s).outs = s.outs := rfl
@[simp] theorem raiseUnderflow_reads (k : Code) (s : State) : (raiseUnderflow k s).reads = s.reads := rfl
@[simp] theorem raiseUnderflow_freeIx (k : Code) (s : State) : (raiseUnderflow k s).freeIx = s.freeIx := rfl

/-! ## firstLiteral -/

@[simp] theorem firstLiteral_mode (c : Sym) (s : State) : (firstLiteral c s).mode = s.mode := rfl
@[simp] theorem firstLiteral_op (c : Sym) (s : State) : (firstLiteral c s).op = s.op := rfl
@[simp] theorem firstLiteral_done (c : Sym) (s : State) : (firstLiteral c s).done = s.done := rfl
@[simp] theorem firstLiteral_err (c : Sym) (s : State) : (firstLiteral c s).err = s.err := rfl
@[simp] theorem firstLiteral_z (c : Sym) (s : State) : (firstLiteral c s).z = s.z := rfl
@[simp] theorem firstLiteral_errinfo (c : Sym) (s : State) : (firstLiteral c s).errinfo = s.errinfo := rfl
@[simp] theorem firstLiteral_rows (c : Sym) (s : State) : (firstLiteral c s).rows = s.rows := rfl
@[simp] theorem firstLiteral_cols (c : Sym) (s : State) : (firstLiteral c s).cols = s.cols := rfl
@[simp] theorem firstLiteral_icnt (c : Sym) (s : State) : (firstLiteral c s).icnt = s.icnt := rfl
@[simp] theorem firstLiteral_ocnt (c : Sym) (s : State) : (firstLiteral c s).ocnt = s.ocnt + 1 := rfl
@[simp] theorem firstLiteral_next (c : Sym) (s : State) : (firstLiteral c s).next = s.next := rfl
@[simp] theorem firstLiteral_dict (c : Sym) (s : State) : (firstLiteral c s).dict = s.dict := rfl
@[simp] theorem firstLiteral_w (c : Sym) (s : State) : (firstLiteral c s).w = literal c := rfl
@[simp] theorem firstLiteral_wv (c : Sym) (s : State) : (firstLiteral c s).wv = true := rfl
@[simp] theorem firstLiteral_hb (c : Sym) (s : State) : (firstLiteral c s).hb = s.hb := rfl
@[simp] theorem firstLiteral_hbv (c : Sym) (s : State) : (firstLiteral c s).hbv = s.hbv := rfl
@[simp] theorem firstLiteral_hdr (c : Sym) (s : State) : (firstLiteral c s).hdr = s.hdr := rfl
@[simp] theorem firstLiteral_hcnt (c : Sym) (s : State) : (firstLiteral c s).hcnt = s.hcnt := rfl
@[simp] theorem firstLiteral_pending (c : Sym) (s : State) : (firstLiteral c s).pending = s.pending := rfl
@[simp] theorem firstLiteral_outs (c : Sym) (s : State) : (firstLiteral c s).outs = s.outs ++ [.out c] := rfl
@[simp] theorem firstLiteral_reads (c : Sym) (s : State) : (firstLiteral c s).reads = s.reads := rfl
@[simp] theorem firstLiteral_freeIx (c : Sym) (s : State) : (firstLiteral c s).freeIx = s.freeIx := rfl

/-! ## resetEvent -/

@[simp] theorem resetEvent_mode (s : State) : (resetEvent s).mode = .idle := rfl
@[simp] theorem resetEvent_op (s : State) : (resetEvent s).op = .idle := rfl
@[simp] theorem resetEvent_done (s : State) : (resetEvent s).done = false := rfl
@[simp] theorem resetEvent_err (s : State) : (resetEvent s).err = .none := rfl
@[simp] theorem resetEvent_z (s : State) : (resetEvent s).z = false := rfl
@[simp] theorem resetEvent_errinfo (s : State) : (resetEvent s).errinfo = 0 := rfl
@[simp] theorem resetEvent_rows (s : State) : (resetEvent s).rows = 0 := rfl
@[simp] theorem resetEvent_cols (s : State) : (resetEvent s).cols = 0 := rfl
@[simp] theorem resetEvent_icnt (s : State) : (resetEvent s).icnt = 0 := rfl
@[simp] theorem resetEvent_ocnt (s : State) : (resetEvent s).ocnt = 0 := rfl
@[simp] theorem resetEvent_next (s : State) : (resetEvent s).next = 256#17 := rfl
@[simp] theorem resetEvent_dict (s : State) : (resetEvent s).dict = [] := rfl
@[simp] theorem resetEvent_w (s : State) : (resetEvent s).w = Config.freeW s.freeIx := rfl
@[simp] theorem resetEvent_wv (s : State) : (resetEvent s).wv = false := rfl
@[simp] theorem resetEvent_hb (s : State) : (resetEvent s).hb = Config.freeHB s.freeIx := rfl
@[simp] theorem resetEvent_hbv (s : State) : (resetEvent s).hbv = false := rfl
@[simp] theorem resetEvent_hdr (s : State) : (resetEvent s).hdr = Config.freeHDR s.freeIx := rfl
@[simp] theorem resetEvent_hcnt (s : State) : (resetEvent s).hcnt = 0 := rfl
@[simp] theorem resetEvent_pending (s : State) : (resetEvent s).pending = s.pending := rfl
@[simp] theorem resetEvent_outs (s : State) : (resetEvent s).outs = s.outs := rfl
@[simp] theorem resetEvent_reads (s : State) : (resetEvent s).reads = s.reads := rfl
@[simp] theorem resetEvent_freeIx (s : State) : (resetEvent s).freeIx = s.freeIx + 1 := rfl

/-! ## present -/

@[simp] theorem present_mode (es : List Event) (s : State) : (s.present es).mode = s.mode := rfl
@[simp] theorem present_op (es : List Event) (s : State) : (s.present es).op = s.op := rfl
@[simp] theorem present_done (es : List Event) (s : State) : (s.present es).done = s.done := rfl
@[simp] theorem present_err (es : List Event) (s : State) : (s.present es).err = s.err := rfl
@[simp] theorem present_z (es : List Event) (s : State) : (s.present es).z = s.z := rfl
@[simp] theorem present_errinfo (es : List Event) (s : State) : (s.present es).errinfo = s.errinfo := rfl
@[simp] theorem present_rows (es : List Event) (s : State) : (s.present es).rows = s.rows := rfl
@[simp] theorem present_cols (es : List Event) (s : State) : (s.present es).cols = s.cols := rfl
@[simp] theorem present_icnt (es : List Event) (s : State) : (s.present es).icnt = s.icnt := rfl
@[simp] theorem present_ocnt (es : List Event) (s : State) : (s.present es).ocnt = s.ocnt := rfl
@[simp] theorem present_next (es : List Event) (s : State) : (s.present es).next = s.next := rfl
@[simp] theorem present_dict (es : List Event) (s : State) : (s.present es).dict = s.dict := rfl
@[simp] theorem present_w (es : List Event) (s : State) : (s.present es).w = s.w := rfl
@[simp] theorem present_wv (es : List Event) (s : State) : (s.present es).wv = s.wv := rfl
@[simp] theorem present_hb (es : List Event) (s : State) : (s.present es).hb = s.hb := rfl
@[simp] theorem present_hbv (es : List Event) (s : State) : (s.present es).hbv = s.hbv := rfl
@[simp] theorem present_hdr (es : List Event) (s : State) : (s.present es).hdr = s.hdr := rfl
@[simp] theorem present_hcnt (es : List Event) (s : State) : (s.present es).hcnt = s.hcnt := rfl
@[simp] theorem present_pending (es : List Event) (s : State) : (s.present es).pending = s.pending ++ es := rfl
@[simp] theorem present_outs (es : List Event) (s : State) : (s.present es).outs = s.outs := rfl
@[simp] theorem present_reads (es : List Event) (s : State) : (s.present es).reads = s.reads := rfl
@[simp] theorem present_freeIx (es : List Event) (s : State) : (s.present es).freeIx = s.freeIx := rfl

end Sys2Proof.Machine
end

