-- ==== Sys2Proof/Laws/Ops.lean ====
section
/-! SUPPORT. What each shared operation can do, said once: its value on the states the rules are stated for,
and what a next state it answers looks like. -/

namespace Sys2Proof.Machine

/-! ## Sequencing -/

@[simp] theorem andThen_next (s : State) (f : State → Result) : andThen (.next s) f = f s := rfl

@[simp] theorem andThen_fault (e : Fault) (f : State → Result) : andThen (.fault e) f = .fault e := rfl

@[simp] theorem andThen_refused (e : Refusal) (f : State → Result) :
    andThen (.refused e) f = .refused e := rfl

theorem andThen_eq_next {r : Result} {f : State → Result} {t : State} :
    andThen r f = .next t ↔ ∃ s, r = .next s ∧ f s = .next t := by
  cases r <;> simp [andThen]

/-! ## Numbers -/

/-- `NEXT <- NEXT + 1` below the cap does not wrap. -/
theorem next_succ {n : BitVec 17} (h : n.toNat < 65536) : (n + 1#17).toNat = n.toNat + 1 := by
  simp only [BitVec.toNat_add, BitVec.toNat_ofNat]
  omega

@[simp] theorem literal_toNat (c : Sym) : (literal c).toNat = c.toNat := by
  simp only [literal, BitVec.toNat_setWidth]
  omega

@[simp] theorem codeLow_literal (c : Sym) : codeLow (literal c) = c := by
  apply BitVec.eq_of_toNat_eq
  simp only [codeLow, BitVec.extractLsb'_toNat, literal_toNat, Nat.shiftRight_zero]
  omega

theorem literal_codeLow {k : Code} (h : k.toNat < 256) : literal (codeLow k) = k := by
  apply BitVec.eq_of_toNat_eq
  simp only [literal_toNat, codeLow, BitVec.extractLsb'_toNat, Nat.shiftRight_zero]
  omega

/-! ## The class of a code (30_encoding.md R91) -/

theorem classify_lit {n : BitVec 17} {k : Code} : classify n k = .lit ↔ k.toNat < 256 := by
  simp only [classify, Config.firstDyn]
  repeat' split
  all_goals simp_all

theorem classify_ref {n : BitVec 17} {k : Code} :
    classify n k = .ref ↔ 256 ≤ k.toNat ∧ k.toNat < n.toNat := by
  simp only [classify, Config.firstDyn]
  repeat' split
  all_goals simp_all

theorem classify_kwk {n : BitVec 17} {k : Code} :
    classify n k = .kwk ↔ 256 ≤ k.toNat ∧ k.toNat = n.toNat := by
  simp only [classify, Config.firstDyn]
  repeat' split
  all_goals simp_all
  all_goals omega

theorem classify_bad {n : BitVec 17} {k : Code} :
    classify n k = .bad ↔ 256 ≤ k.toNat ∧ n.toNat < k.toNat := by
  simp only [classify, Config.firstDyn]
  repeat' split
  all_goals simp_all
  all_goals omega

/-! ## Dictionary and sequences -/

theorem dictAppend_of_room {s : State} (h : s.next.toNat < 65536) (p : Code) (c : Sym) :
    dictAppend p c s = .next { s with dict := s.dict.set s.next.toNat ⟨p, c⟩, next := s.next + 1#17 } := by
  simp [dictAppend, Config.dictCap, h]

theorem dictAppend_eq_next {s t : State} {p : Code} {c : Sym} :
    dictAppend p c s = .next t ↔ s.next.toNat < 65536 ∧
      t = { s with dict := s.dict.set s.next.toNat ⟨p, c⟩, next := s.next + 1#17 } := by
  unfold dictAppend Config.dictCap
  split <;> simp_all [eq_comm]

/-- `EmitSeq(k)` of a present code emits its sequence and counts its length. -/
theorem emitSeq_present {s : State} (h : Chain s.dict s.next.toNat) {k : Code}
    (hk : k.toNat < s.next.toNat) :
    emitSeq k s = .next { emitBytes (seqAt s.dict s.next.toNat k) s with
      ocnt := s.ocnt + (seqAt s.dict s.next.toNat k).length } := by
  obtain ⟨h1, h2, -⟩ := h.eval hk
  simp only [emitSeq, seqOf, lenOf, h1, h2]

/-- What `EmitSeq` leaves: outputs and `OCNT` only. -/
theorem emitSeq_eq_next {s t : State} {k : Code} (h : emitSeq k s = .next t) :
    ∃ l n, seqOf s k = .ok l ∧ lenOf s k = .ok n ∧
      t = { emitBytes l s with ocnt := s.ocnt + n } := by
  unfold emitSeq at h
  split at h
  · cases h
  · split at h
    · cases h
    · cases h
      exact ⟨_, _, ‹_›, ‹_›, rfl⟩

/-! ## The encoder's step (41_encode.md R140 to R143) -/

theorem matcherStep_first {s : State} (h : s.wv = false) (c : Sym) :
    matcherStep c s = .next { countIn s with w := literal c, wv := true } := by
  simp [matcherStep, h]

theorem matcherStep_match {s : State} {c : Sym} {k : Code} (h : s.wv = true)
    (hm : matchEntry s.dict s.next.toNat s.w c = some k) :
    matcherStep c s = .next { countIn s with w := k } := by
  simp [matcherStep, h, hm]

theorem matcherStep_insert {s : State} {c : Sym} (h : s.wv = true)
    (hm : matchEntry s.dict s.next.toNat s.w c = none) (hn : s.next.toNat < 65536) :
    matcherStep c s = .next { emitCode s.w (countIn s) with
      dict := s.dict.set s.next.toNat ⟨s.w, c⟩, next := s.next + 1#17, w := literal c } := by
  simp [matcherStep, h, hm, hn, Config.dictCap, dictAppend]

theorem matcherStep_full {s : State} {c : Sym} (h : s.wv = true)
    (hm : matchEntry s.dict s.next.toNat s.w c = none) (hn : ¬ s.next.toNat < 65536) :
    matcherStep c s = .next { emitCode s.w (countIn s) with w := literal c } := by
  simp [matcherStep, h, hm, hn, Config.dictCap]

/-- The four cases of the matcher's step: it always answers a next state. -/
theorem matcherStep_cases (c : Sym) (s : State) :
    (s.wv = false ∧ matcherStep c s = .next { countIn s with w := literal c, wv := true }) ∨
    (s.wv = true ∧ ∃ k, matchEntry s.dict s.next.toNat s.w c = some k ∧
      matcherStep c s = .next { countIn s with w := k }) ∨
    (s.wv = true ∧ matchEntry s.dict s.next.toNat s.w c = none ∧ s.next.toNat < 65536 ∧
      matcherStep c s = .next { emitCode s.w (countIn s) with
        dict := s.dict.set s.next.toNat ⟨s.w, c⟩, next := s.next + 1#17, w := literal c }) ∨
    (s.wv = true ∧ matchEntry s.dict s.next.toNat s.w c = none ∧ ¬ s.next.toNat < 65536 ∧
      matcherStep c s = .next { emitCode s.w (countIn s) with w := literal c }) := by
  cases h : s.wv with
  | false => exact .inl ⟨rfl, matcherStep_first h c⟩
  | true =>
    cases hm : matchEntry s.dict s.next.toNat s.w c with
    | some k => exact .inr (.inl ⟨rfl, k, rfl, matcherStep_match h hm⟩)
    | none =>
      by_cases hn : s.next.toNat < 65536
      · exact .inr (.inr (.inl ⟨rfl, rfl, hn, matcherStep_insert h hm hn⟩))
      · exact .inr (.inr (.inr ⟨rfl, rfl, hn, matcherStep_full h hm hn⟩))

/-! ## The decoder's codes (42_decode.md R164 to R166) -/

/-- R164: an existing entry while the dictionary is not full. -/
theorem existingEntry_room {s : State} (h : Chain s.dict s.next.toNat) {k : Code}
    (hk : k.toNat < s.next.toNat) (hn : s.next.toNat < 65536) :
    ∃ c l, seqAt s.dict s.next.toNat k = c :: l ∧
      existingEntry k s = .next { emitBytes (c :: l) s with
        ocnt := s.ocnt + (l.length + 1)
        dict := s.dict.set s.next.toNat ⟨s.w, c⟩
        next := s.next + 1#17
        w := k } := by
  obtain ⟨-, -, c, l, h3, h4⟩ := h.eval hk
  refine ⟨c, l, h3, ?_⟩
  simp [existingEntry, emitSeq_present h hk, h3, hn, Config.dictCap, firstOf, h4, dictAppend]

/-- R165: an existing entry when the dictionary is full. -/
theorem existingEntry_full {s : State} (h : Chain s.dict s.next.toNat) {k : Code}
    (hk : k.toNat < s.next.toNat) (hn : ¬ s.next.toNat < 65536) :
    existingEntry k s = .next { emitBytes (seqAt s.dict s.next.toNat k) s with
        ocnt := s.ocnt + (seqAt s.dict s.next.toNat k).length
        w := k } := by
  simp [existingEntry, emitSeq_present h hk, hn, Config.dictCap]

/-- R166: the code `k = NEXT`; the entry appended is the one expanded. -/
theorem undefinedYet_next {s : State} (h : Chain s.dict s.next.toNat) {k : Code}
    (hw : s.w.toNat < s.next.toNat) (hk : k.toNat = s.next.toNat) (hlo : 256 ≤ s.next.toNat) :
    ∃ c l, seqAt s.dict s.next.toNat s.w = c :: l ∧
      undefinedYet k s = .next { emitBytes (c :: l ++ [c]) s with
        ocnt := s.ocnt + (l.length + 2)
        dict := s.dict.set s.next.toNat ⟨s.w, c⟩
        next := s.next + 1#17
        w := k } := by
  obtain ⟨-, -, c, l, h3, h4⟩ := h.eval hw
  have hn : s.next.toNat < 65536 := by have := k.isLt; omega
  refine ⟨c, l, h3, ?_⟩
  have hc := h.append ⟨s.w, c⟩ hw
  have hseq : seqAt (s.dict.set s.next.toNat ⟨s.w, c⟩) (s.next.toNat + 1) k = c :: l ++ [c] := by
    rw [hc.seqAt_dyn (k := k) (e := ⟨s.w, c⟩) (by omega) (by omega)
      (by rw [hk]; exact Memory.get_set_self _ _ _)]
    rw [h.seqAt_stable (by omega) (fun j _ hj => Memory.get_set_of_ne _ _ (by omega)) hw, h3]
  have hs := emitSeq_present (k := k)
    (s := { s with dict := s.dict.set s.next.toNat ⟨s.w, c⟩, next := s.next + 1#17 })
    (by simpa only [next_succ hn] using hc) (by simp only [next_succ hn]; omega)
  simp only [next_succ hn, hseq] at hs
  simp only [undefinedYet, firstOf, h4, dictAppend_of_room hn, andThen_next, hs]
  simp [emitBytes, Nat.add_assoc]

/-! ## Taking an event (40_commands.md R131) -/

theorem takeEvent_busy (e : Event) (es : List Event) : takeEvent true (e :: es) = some (e, es) := by
  simp [takeEvent]

/-- While idle the first event that is no beat is taken; the beats before it wait in order. -/
theorem takeEvent_idle (bs : List Event) (hb : ∀ b ∈ bs, isBeat b = true) (e : Event)
    (he : isBeat e = false) (es : List Event) :
    takeEvent false (bs ++ e :: es) = some (e, bs ++ es) := by
  induction bs with
  | nil => simp [takeEvent, he]
  | cons b bs ih =>
    have := ih fun x hx => hb x (List.mem_cons_of_mem b hx)
    simp [takeEvent, hb b List.mem_cons_self, this]

theorem takeEvent_none {busy : Bool} {es : List Event} (h : takeEvent busy es = none) :
    es = [] ∨ (busy = false ∧ ∀ e ∈ es, isBeat e = true) := by
  induction es with
  | nil => exact .inl rfl
  | cons e es ih =>
    simp only [takeEvent] at h
    split at h
    · cases h
    · split at h
      · rcases ih ‹_› with rfl | h2 <;> simp_all
      · cases h

/-- What is taken was presented, and while idle it is no beat. -/
theorem takeEvent_some {busy : Bool} {es rest : List Event} {e : Event}
    (h : takeEvent busy es = some (e, rest)) :
    e ∈ es ∧ (∀ x ∈ rest, x ∈ es) ∧ (busy = false → isBeat e = false) := by
  induction es generalizing rest with
  | nil => simp [takeEvent] at h
  | cons x es ih =>
    simp only [takeEvent] at h
    split at h
    · cases h
      refine ⟨List.mem_cons_self, fun y hy => List.mem_cons_of_mem _ hy, fun hb => ?_⟩
      simp_all
    · split at h
      · cases h
      · cases h
        obtain ⟨h1, h2, h3⟩ := ih ‹_›
        refine ⟨List.mem_cons_of_mem _ h1, fun y hy => ?_, h3⟩
        rcases List.mem_cons.mp hy with rfl | hy
        · exact List.mem_cons_self
        · exact List.mem_cons_of_mem _ (h2 y hy)

end Sys2Proof.Machine
end

