-- ==== Sys2Proof/Laws/Rows.lean ====
section
/-! SUPPORT. Each row with its condition met: what `exec` answers, in terms of the shared operations; and that a
row outside its condition answers no next state. -/

namespace Sys2Proof.Machine

/-- A payload is open (42_decode.md R160, R161). -/
def InPayload (s : State) : Prop :=
  s.err = .none ∧ (s.mode = .dec ∨ (s.mode = .dcmp ∧ s.hcnt = 8#4))

theorem payloadOpen_iff {s : State} : s.payloadOpen = true ↔ InPayload s := by
  simp [State.payloadOpen, InPayload]

theorem codeAdmitted_iff {cl : CodeClass} {k : Code} {s : State} :
    codeAdmitted cl k s = true ↔ InPayload s ∧ classify s.next k = cl := by
  simp [codeAdmitted, payloadOpen_iff]

/-- Executing a complete code is executing the row it decodes to (R161, R91). -/
theorem runCode_eq_exec (k : Code) (s : State) : runCode k s = exec (decodeCode s.next k) s := by
  unfold runCode decodeCode
  cases classify s.next k <;> rfl

theorem exec_lit {s : State} {k : Code} (h : InPayload s) (hk : k.toNat < 256) :
    exec (.lit (codeLow k)) s =
      if s.wv then existingEntry k s else .next (firstLiteral (codeLow k) s) := by
  have ha : codeAdmitted .lit (literal (codeLow k)) s = true :=
    codeAdmitted_iff.mpr ⟨h, classify_lit.mpr (by rw [literal_codeLow hk]; exact hk)⟩
  rw [exec, execLit, if_pos ha, literal_codeLow hk]

theorem exec_ref {s : State} {k : Code} (h : InPayload s) (h1 : 256 ≤ k.toNat)
    (h2 : k.toNat < s.next.toNat) :
    exec (.ref k) s = if s.wv then existingEntry k s else .next (raiseUnderflow k s) := by
  rw [exec, execRef, if_pos (codeAdmitted_iff.mpr ⟨h, classify_ref.mpr ⟨h1, h2⟩⟩)]

theorem exec_kwk {s : State} {k : Code} (h : InPayload s) (h1 : 256 ≤ k.toNat)
    (h2 : k.toNat = s.next.toNat) :
    exec (.kwk k) s = if s.wv then undefinedYet k s else .next (raiseUnderflow k s) := by
  rw [exec, execKwk, if_pos (codeAdmitted_iff.mpr ⟨h, classify_kwk.mpr ⟨h1, h2⟩⟩)]

theorem exec_bad {s : State} {k : Code} (h : InPayload s) (h1 : 256 ≤ k.toNat)
    (h2 : s.next.toNat < k.toNat) :
    exec (.bad k) s = .next (raiseUnderflow k s) := by
  rw [exec, execBad, if_pos (codeAdmitted_iff.mpr ⟨h, classify_bad.mpr ⟨h1, h2⟩⟩)]

/-- What a complete code does, by `WV` and class (R162 to R167), on a well-formed dictionary. -/
theorem runCode_cases {s : State} (hp : InPayload s) (hc : Chain s.dict s.next.toNat)
    (hlo : 256 ≤ s.next.toNat) (hw : s.wv = true → s.w.toNat < s.next.toNat) (k : Code) :
    (s.wv = false ∧ k.toNat < 256 ∧ runCode k s = .next (firstLiteral (codeLow k) s)) ∨
    ((s.wv = false ∧ 256 ≤ k.toNat ∨ s.next.toNat < k.toNat) ∧
      runCode k s = .next (raiseUnderflow k s)) ∨
    (s.wv = true ∧ k.toNat < s.next.toNat ∧ ∃ c l, seqAt s.dict s.next.toNat k = c :: l ∧
      ((s.next.toNat < 65536 ∧ runCode k s = .next { emitBytes (c :: l) s with
          ocnt := s.ocnt + (l.length + 1), dict := s.dict.set s.next.toNat ⟨s.w, c⟩
          next := s.next + 1#17, w := k }) ∨
       (¬ s.next.toNat < 65536 ∧ runCode k s = .next { emitBytes (c :: l) s with
          ocnt := s.ocnt + (l.length + 1), w := k }))) ∨
    (s.wv = true ∧ k.toNat = s.next.toNat ∧ ∃ c l, seqAt s.dict s.next.toNat s.w = c :: l ∧
      runCode k s = .next { emitBytes (c :: l ++ [c]) s with
        ocnt := s.ocnt + (l.length + 2), dict := s.dict.set s.next.toNat ⟨s.w, c⟩
        next := s.next + 1#17, w := k }) := by
  rw [runCode_eq_exec]
  by_cases h1 : k.toNat < 256
  · rw [show decodeCode s.next k = .lit (codeLow k) by simp [decodeCode, classify_lit.mpr h1],
      exec_lit hp h1]
    cases hv : s.wv with
    | false => exact .inl ⟨rfl, h1, by simp⟩
    | true =>
      refine .inr (.inr (.inl ⟨rfl, by omega, ?_⟩))
      by_cases hn : s.next.toNat < 65536
      · obtain ⟨c, l, h2, h3⟩ := existingEntry_room hc (k := k) (by omega) hn
        exact ⟨c, l, h2, .inl ⟨hn, by simpa using h3⟩⟩
      · obtain ⟨-, -, c, l, h2, -⟩ := hc.eval (k := k) (by omega)
        have h3 := existingEntry_full hc (k := k) (by omega) hn
        rw [h2] at h3
        exact ⟨c, l, h2, .inr ⟨hn, by simpa using h3⟩⟩
  · by_cases h2 : k.toNat < s.next.toNat
    · rw [show decodeCode s.next k = .ref k by
          simp [decodeCode, classify_ref.mpr ⟨show 256 ≤ k.toNat by omega, h2⟩],
        exec_ref hp (by omega) h2]
      cases hv : s.wv with
      | false => exact .inr (.inl ⟨.inl ⟨rfl, by omega⟩, by simp⟩)
      | true =>
        refine .inr (.inr (.inl ⟨rfl, h2, ?_⟩))
        by_cases hn : s.next.toNat < 65536
        · obtain ⟨c, l, h3, h4⟩ := existingEntry_room hc h2 hn
          exact ⟨c, l, h3, .inl ⟨hn, by simpa using h4⟩⟩
        · obtain ⟨-, -, c, l, h3, -⟩ := hc.eval h2
          have h4 := existingEntry_full hc h2 hn
          rw [h3] at h4
          exact ⟨c, l, h3, .inr ⟨hn, by simpa using h4⟩⟩
    · by_cases h3 : k.toNat = s.next.toNat
      · rw [show decodeCode s.next k = .kwk k by
            simp [decodeCode, classify_kwk.mpr ⟨show 256 ≤ k.toNat by omega, h3⟩],
          exec_kwk hp (by omega) h3]
        cases hv : s.wv with
        | false => exact .inr (.inl ⟨.inl ⟨rfl, by omega⟩, by simp⟩)
        | true =>
          obtain ⟨c, l, h4, h5⟩ := undefinedYet_next hc (hw hv) h3 hlo
          exact .inr (.inr (.inr ⟨rfl, h3, c, l, h4, by simpa using h5⟩))
      · rw [show decodeCode s.next k = .bad k by
            simp [decodeCode, classify_bad.mpr ⟨show 256 ≤ k.toNat by omega, show s.next.toNat < k.toNat by omega⟩],
          exec_bad hp (by omega) (by omega)]
        exact .inr (.inl ⟨.inr (by omega), rfl⟩)

/-! ## Beats with their condition met (40_commands.md R135) -/

theorem exec_encIn {s : State} (hm : s.mode = .enc) (he : s.err = .none) (c : Sym) :
    exec (.encIn c) s = matcherStep c s := by
  simp [exec, execEncIn, Instr.admitted, State.ctx, hm, he]

theorem exec_cmpIn {s : State} (hm : s.mode = .cmp) (he : s.err = .none) (c : Sym) :
    exec (.cmpIn c) s = matcherStep c s := by
  simp [exec, execCmpIn, Instr.admitted, State.ctx, hm, he]

theorem exec_decIn {s : State} (hm : s.mode = .dec) (he : s.err = .none) (b : Sym) :
    exec (.decIn b) s = parserStep b s := by
  simp [exec, execDecIn, Instr.admitted, State.ctx, hm, he]

theorem exec_dcmpIn_payload {s : State} (hm : s.mode = .dcmp) (he : s.err = .none)
    (hc : s.hcnt = 8#4) (b : Sym) : exec (.dcmpIn b) s = parserStep b s := by
  simp [exec, execDcmpIn, Instr.admitted, State.ctx, hm, he, hc]

theorem exec_dcmpIn_header {s : State} (hm : s.mode = .dcmp) (he : s.err = .none)
    (hc : s.hcnt.toNat < 8) (b : Sym) : exec (.dcmpIn b) s = headerStep b s := by
  simp [exec, execDcmpIn, Instr.admitted, State.ctx, hm, he, hc]

theorem exec_hdr {s : State} (hm : s.mode = .dcmp) (he : s.err = .none) (hc : s.hcnt.toNat < 8)
    (r c : Word) :
    exec (.hdr r c) s = .next { s with hdr := r ++ c, hcnt := 8#4, rows := r, cols := c } := by
  simp [exec, execHdr, hm, he, hc]

/-- A header byte (43_frame.md R193, R194): it always answers a next state. -/
theorem headerStep_next {s : State} (hm : s.mode = .dcmp) (he : s.err = .none)
    (hc : s.hcnt.toNat < 8) (b : Sym) :
    headerStep b s = .next
      (if s.hcnt.toNat = 7 then
        { s with hdr := hdrShift s.hcnt s.hdr b, hcnt := 8#4
                 rows := hdrRows (hdrShift s.hcnt s.hdr b), cols := hdrCols (hdrShift s.hcnt s.hdr b) }
       else { s with hdr := hdrShift s.hcnt s.hdr b, hcnt := s.hcnt + 1#4 }) := by
  unfold headerStep
  by_cases h7 : s.hcnt.toNat = 7
  · rw [if_pos (by simp [h7]), if_pos h7]
    simp [execHdr, hm, he, hc, hdr_halves]
  · rw [if_neg (by simp only [Config.hdrBytes]; omega), if_neg h7]

theorem exec_encEnd {s : State} (hm : s.mode = .enc) (he : s.err = .none) :
    exec .encEnd s = .next (endOp (flush s)) := by
  simp [exec, execEncEnd, Instr.admitted, State.ctx, hm, he]

theorem exec_decEnd {s : State} (hm : s.mode = .dec) (he : s.err = .none) :
    exec .decEnd s = .next (endOp (if s.hbv then raiseError .malformedStream 0 s else s)) := by
  simp [exec, execDecEnd, Instr.admitted, State.ctx, hm, he]

theorem exec_cmpEnd {s : State} (hm : s.mode = .cmp) (he : s.err = .none) :
    exec .cmpEnd s = .next (endOp (if s.icnt ≠ gridSize s then raiseError .gridMismatch 0 s else flush s)) := by
  simp [exec, execCmpEnd, Instr.admitted, State.ctx, hm, he]

theorem exec_dcmpEnd {s : State} (hm : s.mode = .dcmp) (he : s.err = .none) :
    exec .dcmpEnd s = .next (endOp (if frameCheck s = .none then s else raiseError (frameCheck s) 0 s)) := by
  simp [exec, execDcmpEnd, Instr.admitted, State.ctx, hm, he]

theorem exec_drainIn {s : State} (hm : s.mode ≠ .idle) (he : s.err ≠ .none) (b : Sym) :
    exec (.drainIn b) s = .next s := by
  simp [exec, execDrainIn, Instr.admitted, State.ctx, hm, he]

theorem exec_drainEnd {s : State} (hm : s.mode ≠ .idle) (he : s.err ≠ .none) :
    exec .drainEnd s = .next (endOp s) := by
  simp [exec, execDrainEnd, Instr.admitted, State.ctx, hm, he]

/-! ## The condition is necessary -/

theorem mode_of_encIn {s t : State} {c : Sym} (h : exec (.encIn c) s = .next t) :
    s.mode = .enc ∧ s.err = .none := by
  simp only [exec, execEncIn] at h
  split at h
  · rename_i ha
    rw [Instr.admitted, Bool.and_eq_true] at ha
    exact ⟨of_decide_eq_true ha.1, of_decide_eq_true ha.2⟩
  · cases h

theorem mode_of_encEnd {s t : State} (h : exec .encEnd s = .next t) : s.mode = .enc ∧ s.err = .none := by
  simp only [exec, execEncEnd] at h
  split at h
  · rename_i ha
    rw [Instr.admitted, Bool.and_eq_true] at ha
    exact ⟨of_decide_eq_true ha.1, of_decide_eq_true ha.2⟩
  · cases h

theorem mode_of_decIn {s t : State} {b : Sym} (h : exec (.decIn b) s = .next t) :
    s.mode = .dec ∧ s.err = .none := by
  simp only [exec, execDecIn] at h
  split at h
  · rename_i ha
    rw [Instr.admitted, Bool.and_eq_true] at ha
    exact ⟨of_decide_eq_true ha.1, of_decide_eq_true ha.2⟩
  · cases h

theorem mode_of_decEnd {s t : State} (h : exec .decEnd s = .next t) : s.mode = .dec ∧ s.err = .none := by
  simp only [exec, execDecEnd] at h
  split at h
  · rename_i ha
    rw [Instr.admitted, Bool.and_eq_true] at ha
    exact ⟨of_decide_eq_true ha.1, of_decide_eq_true ha.2⟩
  · cases h

theorem mode_of_cmpIn {s t : State} {c : Sym} (h : exec (.cmpIn c) s = .next t) :
    s.mode = .cmp ∧ s.err = .none := by
  simp only [exec, execCmpIn] at h
  split at h
  · rename_i ha
    rw [Instr.admitted, Bool.and_eq_true] at ha
    exact ⟨of_decide_eq_true ha.1, of_decide_eq_true ha.2⟩
  · cases h

theorem mode_of_cmpEnd {s t : State} (h : exec .cmpEnd s = .next t) : s.mode = .cmp ∧ s.err = .none := by
  simp only [exec, execCmpEnd] at h
  split at h
  · rename_i ha
    rw [Instr.admitted, Bool.and_eq_true] at ha
    exact ⟨of_decide_eq_true ha.1, of_decide_eq_true ha.2⟩
  · cases h

theorem mode_of_dcmpIn {s t : State} {b : Sym} (h : exec (.dcmpIn b) s = .next t) :
    s.mode = .dcmp ∧ s.err = .none := by
  simp only [exec, execDcmpIn] at h
  split at h
  · rename_i ha
    rw [Instr.admitted, Bool.and_eq_true] at ha
    exact ⟨of_decide_eq_true ha.1, of_decide_eq_true ha.2⟩
  · cases h

theorem mode_of_dcmpEnd {s t : State} (h : exec .dcmpEnd s = .next t) :
    s.mode = .dcmp ∧ s.err = .none := by
  simp only [exec, execDcmpEnd] at h
  split at h
  · rename_i ha
    rw [Instr.admitted, Bool.and_eq_true] at ha
    exact ⟨of_decide_eq_true ha.1, of_decide_eq_true ha.2⟩
  · cases h

theorem mode_of_drainIn {s t : State} {b : Sym} (h : exec (.drainIn b) s = .next t) :
    s.mode ≠ .idle ∧ s.err ≠ .none := by
  simp only [exec, execDrainIn] at h
  split at h
  · rename_i ha
    rw [Instr.admitted, Bool.and_eq_true] at ha
    exact ⟨of_decide_eq_true ha.1, of_decide_eq_true ha.2⟩
  · cases h

theorem mode_of_drainEnd {s t : State} (h : exec .drainEnd s = .next t) :
    s.mode ≠ .idle ∧ s.err ≠ .none := by
  simp only [exec, execDrainEnd] at h
  split at h
  · rename_i ha
    rw [Instr.admitted, Bool.and_eq_true] at ha
    exact ⟨of_decide_eq_true ha.1, of_decide_eq_true ha.2⟩
  · cases h

theorem mode_of_hdr {s t : State} {r c : Word} (h : exec (.hdr r c) s = .next t) :
    s.mode = .dcmp ∧ s.err = .none ∧ s.hcnt.toNat < 8 := by
  simp only [exec, execHdr] at h
  split at h
  · assumption
  · cases h

/-- A code-word row that answers a next state is executing its code in an open payload. -/
theorem code_of_next {s t : State} {i : Instr} {k : Code} (hi : i = decodeCode s.next k)
    (h : exec i s = .next t) : InPayload s := by
  subst hi
  unfold decodeCode at h
  cases hc : classify s.next k <;> simp only [hc, exec, execLit, execRef, execKwk, execBad] at h <;>
    split at h <;> first | exact (codeAdmitted_iff.mp ‹_›).1 | cases h

end Sys2Proof.Machine
end

