-- ==== Sys2Proof/Laws/Effects.lean ====
section
/-! SUPPORT. Everything an instruction can do, said once: the inversion of `exec`, of a code word's execution and
of the step. -/

namespace Sys2Proof.Machine

/-- What an instruction that answers a next state has done: one constructor per rule. -/
inductive Effect (s : State) : Instr → State → Prop where
  /-- No effect: `NOP`, a reserved command, a command while busy, an ignored write, a drained byte. -/
  | unchanged {i : Instr} (h1 : endsOperation i = false) (h2 : s.mode = .idle → startsOperation i = false) :
      Effect s i s
  | read (off : BitVec 8) : Effect s (.rd off) { s with reads := s.reads ++ [regWord s off] }
  | setRows (v : Word) (h : s.mode = .idle) : Effect s (.wr 0x08 v) { s with rows := v }
  | setCols (v : Word) (h : s.mode = .idle) : Effect s (.wr 0x0C v) { s with cols := v }
  | startEnc (h : s.mode = .idle) : Effect s .enc (startOp .enc s)
  | startDec (h : s.mode = .idle) : Effect s .dec (startOp .dec s)
  | startDcmp (h : s.mode = .idle) : Effect s .dcmp (startOp .dcmp s)
  | startCmp (h : s.mode = .idle) : Effect s .cmp (emitBytes (hdrBytes s.rows s.cols) (startOp .cmp s))
  | encSymbol {c : Sym} {t : State} (hm : s.mode = .enc) (he : s.err = .none)
      (h : matcherStep c s = .next t) : Effect s (.encIn c) t
  | cmpSymbol {c : Sym} {t : State} (hm : s.mode = .cmp) (he : s.err = .none)
      (h : matcherStep c s = .next t) : Effect s (.cmpIn c) t
  | decByte {b : Sym} {t : State} (hm : s.mode = .dec) (he : s.err = .none)
      (h : parserStep b s = .next t) : Effect s (.decIn b) t
  | dcmpByte {b : Sym} {t : State} (hm : s.mode = .dcmp) (he : s.err = .none)
      (hc : ¬ s.hcnt.toNat < 8) (h : parserStep b s = .next t) : Effect s (.dcmpIn b) t
  | headerByte {b : Sym} {t : State} (hm : s.mode = .dcmp) (he : s.err = .none)
      (hc : s.hcnt.toNat < 8) (h : headerStep b s = .next t) : Effect s (.dcmpIn b) t
  | header {r c : Word} (hm : s.mode = .dcmp) (he : s.err = .none) (hc : s.hcnt.toNat < 8) :
      Effect s (.hdr r c) { s with hdr := r ++ c, hcnt := 8#4, rows := r, cols := c }
  | code {i : Instr} {k : Code} {t : State} (hp : InPayload s) (hi : i = decodeCode s.next k)
      (h : runCode k s = .next t) : Effect s i t
  | encEnd (hm : s.mode = .enc) (he : s.err = .none) : Effect s .encEnd (endOp (flush s))
  | decEnd (hm : s.mode = .dec) (he : s.err = .none) :
      Effect s .decEnd (endOp (if s.hbv then raiseError .malformedStream 0 s else s))
  | cmpEnd (hm : s.mode = .cmp) (he : s.err = .none) :
      Effect s .cmpEnd (endOp (if s.icnt ≠ gridSize s then raiseError .gridMismatch 0 s else flush s))
  | dcmpEnd (hm : s.mode = .dcmp) (he : s.err = .none) :
      Effect s .dcmpEnd (endOp (if frameCheck s = .none then s else raiseError (frameCheck s) 0 s))
  | drainEnd (hm : s.mode ≠ .idle) (he : s.err ≠ .none) : Effect s .drainEnd (endOp s)

theorem busy_iff {s : State} : s.busy = true ↔ s.mode ≠ .idle := by simp [State.busy]

theorem not_busy_iff {s : State} : s.busy = false ↔ s.mode = .idle := by simp [State.busy]

/-- A code-word row that answers a next state has executed its code in an open payload. -/
theorem effect_code {s t : State} {i : Instr} (k : Code)
    (hcase : i = .lit (codeLow k) ∧ k.toNat < 256 ∨ i = .ref k ∨ i = .kwk k ∨ i = .bad k)
    (h : exec i s = .next t) : Effect s i t := by
  have hi : i = decodeCode s.next k ∧ InPayload s := by
    rcases hcase with ⟨rfl, hk⟩ | rfl | rfl | rfl
    · rw [exec, execLit, literal_codeLow hk] at h
      split at h
      · exact ⟨by simp [decodeCode, classify_lit.mpr hk], (codeAdmitted_iff.mp ‹_›).1⟩
      · cases h
    all_goals
      simp only [exec, execRef, execKwk, execBad] at h
      split at h
      · obtain ⟨h1, h2⟩ := codeAdmitted_iff.mp ‹_›
        exact ⟨by simp [decodeCode, h2], h1⟩
      · cases h
  exact .code hi.2 hi.1 (by rw [runCode_eq_exec, ← hi.1, h])

/-- The inversion of `exec`. -/
theorem effect_of_next {i : Instr} {s t : State} (h : exec i s = .next t) : Effect s i t := by
  have start : ∀ (j : Instr) (m : Mode), endsOperation j = false →
      (s.mode = .idle → Effect s j (startOp m s)) → Host.Outcome.next (startWhenIdle m s) = (.next t : Result) →
      Effect s j t := by
    intro j m hj hs h
    cases h
    unfold startWhenIdle
    split
    · exact .unchanged hj fun hm => absurd hm (busy_iff.mp ‹_›)
    · rename_i hb
      exact hs (not_busy_iff.mp (by simpa using hb))
  cases i with
  | nop => cases h; exact .unchanged rfl fun _ => rfl
  | enc => exact start .enc .enc rfl .startEnc h
  | dec => exact start .dec .dec rfl .startDec h
  | dcmp => exact start .dcmp .dcmp rfl .startDcmp h
  | cmp =>
    simp only [exec, execCmp] at h
    split at h
    · cases h
      exact .unchanged rfl fun hm => absurd hm (busy_iff.mp ‹_›)
    · rename_i hb
      cases h
      exact .startCmp (not_busy_iff.mp (by simpa using hb))
  | cmdReserved v =>
    simp only [exec, execCmdReserved] at h
    split at h <;> cases h
    exact .unchanged rfl fun _ => rfl
  | encIn c =>
    obtain ⟨hm, he⟩ := mode_of_encIn h
    exact .encSymbol hm he (by rw [← exec_encIn hm he, h])
  | encEnd =>
    obtain ⟨hm, he⟩ := mode_of_encEnd h
    rw [exec_encEnd hm he] at h
    cases h
    exact .encEnd hm he
  | decIn b =>
    obtain ⟨hm, he⟩ := mode_of_decIn h
    exact .decByte hm he (by rw [← exec_decIn hm he, h])
  | decEnd =>
    obtain ⟨hm, he⟩ := mode_of_decEnd h
    rw [exec_decEnd hm he] at h
    cases h
    exact .decEnd hm he
  | cmpIn c =>
    obtain ⟨hm, he⟩ := mode_of_cmpIn h
    exact .cmpSymbol hm he (by rw [← exec_cmpIn hm he, h])
  | cmpEnd =>
    obtain ⟨hm, he⟩ := mode_of_cmpEnd h
    rw [exec_cmpEnd hm he] at h
    cases h
    exact .cmpEnd hm he
  | dcmpIn b =>
    obtain ⟨hm, he⟩ := mode_of_dcmpIn h
    by_cases hc : s.hcnt.toNat < 8
    · exact .headerByte hm he hc (by rw [← exec_dcmpIn_header hm he hc, h])
    · refine .dcmpByte hm he hc ?_
      rw [← h]
      simp [exec, execDcmpIn, Instr.admitted, State.ctx, hm, he, hc]
  | dcmpEnd =>
    obtain ⟨hm, he⟩ := mode_of_dcmpEnd h
    rw [exec_dcmpEnd hm he] at h
    cases h
    exact .dcmpEnd hm he
  | drainIn b =>
    obtain ⟨hm, he⟩ := mode_of_drainIn h
    rw [exec_drainIn hm he] at h
    cases h
    exact .unchanged rfl fun hi => absurd hi hm
  | drainEnd =>
    obtain ⟨hm, he⟩ := mode_of_drainEnd h
    rw [exec_drainEnd hm he] at h
    cases h
    exact .drainEnd hm he
  | lit c =>
    exact effect_code (literal c) (.inl ⟨by simp, by simp; omega⟩) h
  | ref k => exact effect_code k (.inr (.inl rfl)) h
  | kwk k => exact effect_code k (.inr (.inr (.inl rfl))) h
  | bad k => exact effect_code k (.inr (.inr (.inr rfl))) h
  | hdr r c =>
    obtain ⟨hm, he, hc⟩ := mode_of_hdr h
    rw [exec_hdr hm he hc] at h
    cases h
    exact .header hm he hc
  | rd off =>
    simp only [exec, execRd] at h
    split at h <;> cases h
    exact .read off
  | wr off v =>
    simp only [exec, execWr] at h
    split at h
    · split at h <;> cases h
      unfold writeReg
      split
      · exact .unchanged rfl fun _ => rfl
      · have hm : s.mode = .idle := not_busy_iff.mp (by simpa using ‹¬ s.busy = true›)
        split
        · subst_vars; exact .setRows v hm
        · split
          · subst_vars; exact .setCols v hm
          · exact .unchanged rfl fun _ => rfl
    · cases h

/-- What executing a code can do, in any state: outputs are appended, at most one entry is appended, or the
underflow is latched; nothing else changes. -/
theorem runCode_effect {k : Code} {s t : State} (h : runCode k s = .next t) :
    (t = raiseUnderflow k s) ∨
    (∃ (l : List Sym) (n : Nat) (d : Memory) (m : BitVec 17),
      t = { emitBytes l s with ocnt := s.ocnt + n, w := k, wv := true, dict := d, next := m } ∧
      (d = s.dict ∧ m = s.next ∨
       s.next.toNat < 65536 ∧ m = s.next + 1#17 ∧ ∃ e, d = s.dict.set s.next.toNat e)) := by
  have existing : ∀ (c : Code), s.wv = true → existingEntry c s = .next t →
      (∃ (l : List Sym) (n : Nat) (d : Memory) (m : BitVec 17),
      t = { emitBytes l s with ocnt := s.ocnt + n, w := c, wv := true, dict := d, next := m } ∧
      (d = s.dict ∧ m = s.next ∨
       s.next.toNat < 65536 ∧ m = s.next + 1#17 ∧ ∃ e, d = s.dict.set s.next.toNat e)) := by
    intro c hv h
    obtain ⟨u, h1, h2⟩ := andThen_eq_next.mp h
    obtain ⟨l, n, -, -, hu⟩ := emitSeq_eq_next h1
    have hn : u.next = s.next := by rw [hu]; rfl
    split at h2
    · split at h2
      · cases h2
      · rename_i f _
        obtain ⟨x, h3, h4⟩ := andThen_eq_next.mp h2
        obtain ⟨hlt, rfl⟩ := dictAppend_eq_next.mp h3
        refine ⟨l, n, s.dict.set s.next.toNat ⟨s.w, f⟩, s.next + 1#17, ?_,
          .inr ⟨hn ▸ hlt, rfl, _, rfl⟩⟩
        rw [← Host.Outcome.next.inj h4, hu]
        simp [emitBytes, hv]
    · refine ⟨l, n, s.dict, s.next, ?_, .inl ⟨rfl, rfl⟩⟩
      rw [← Host.Outcome.next.inj h2, hu]
      simp [emitBytes, hv]
  unfold runCode at h
  cases hc : classify s.next k <;> simp only [hc] at h
  · have hk := classify_lit.mp hc
    simp only [execLit, literal_codeLow hk] at h
    split at h
    · split at h
      · exact .inr (existing k ‹_› h)
      · cases h
        exact .inr ⟨[codeLow k], 1, _, _, by simp [firstLiteral, literal_codeLow hk, emitBytes], .inl ⟨rfl, rfl⟩⟩
    · cases h
  · simp only [execRef] at h
    split at h
    · split at h
      · exact .inr (existing k ‹_› h)
      · cases h; exact .inl rfl
    · cases h
  · simp only [execKwk] at h
    split at h
    · split at h
      · unfold undefinedYet at h
        split at h
        · cases h
        · rename_i hv _ f _
          obtain ⟨u, h1, h2⟩ := andThen_eq_next.mp h
          obtain ⟨hn, rfl⟩ := dictAppend_eq_next.mp h1
          obtain ⟨x, h3, h4⟩ := andThen_eq_next.mp h2
          obtain ⟨l, n, -, -, rfl⟩ := emitSeq_eq_next h3
          refine .inr ⟨l, n, s.dict.set s.next.toNat ⟨s.w, f⟩, s.next + 1#17, ?_, .inr ⟨hn, rfl, _, rfl⟩⟩
          rw [← Host.Outcome.next.inj h4]
          simp [emitBytes, hv]
      · cases h; exact .inl rfl
    · cases h
  · simp only [execBad] at h
    split at h
    · cases h; exact .inl rfl
    · cases h

/-- What a parser's byte can do: latch the high byte, or execute the code it completes. -/
theorem parserStep_effect {b : Sym} {s t : State} (h : parserStep b s = .next t) :
    (s.hbv = false ∧ t = { countIn s with hb := b, hbv := true }) ∨
    (s.hbv = true ∧ runCode (codeOf s.hb b) { countIn s with hbv := false } = .next t) := by
  unfold parserStep at h
  split at h
  · exact .inr ⟨‹_›, h⟩
  · rename_i hb
    cases h
    exact .inl ⟨by simpa using hb, rfl⟩

/-- The inversion of the step: it waits, it resets, or it runs a row. -/
theorem step_effect {s t : State} (h : step s = .next t) :
    (t = s ∧ takeEvent s.busy s.pending = none) ∨
    ∃ e rest, takeEvent s.busy s.pending = some (e, rest) ∧
      ((e = .reset ∧ t = resetEvent { s with pending := rest }) ∨
       ∃ x i, e.encoding = some x ∧ decode s.ctx x = .ok i ∧ exec i { s with pending := rest } = .next t) := by
  unfold step at h
  split at h
  · cases h
    exact .inl ⟨rfl, ‹_›⟩
  · rename_i e rest he
    refine .inr ⟨e, rest, he, ?_⟩
    unfold stepEvent at h
    split at h
    · cases h
      cases e <;> simp_all [Event.encoding]
    · rename_i x hx
      have hctx : State.ctx { s with pending := rest } = s.ctx := rfl
      rw [hctx] at h
      split at h
      · exact .inr ⟨x, _, hx, ‹_›, h⟩
      · cases h

/-- While busy a data beat at the head of the input is taken and its row run. -/
theorem step_inByte {s : State} {b : Sym} {rest : List Event} {i : Instr} (hm : s.mode ≠ .idle)
    (hp : s.pending = .inByte b :: rest) (hd : decodeInByte s.ctx b = .ok i) :
    step s = exec i { s with pending := rest } := by
  have hctx : State.ctx { s with pending := rest } = s.ctx := rfl
  simp only [step, hp, busy_iff.mpr hm, takeEvent_busy, stepEvent, Event.encoding, decode_inByte, hctx, hd]

/-- While busy an end beat at the head of the input is taken and its row run. -/
theorem step_endMark {s : State} {rest : List Event} {i : Instr} (hm : s.mode ≠ .idle)
    (hp : s.pending = .endMark :: rest) (hd : decodeEndMark s.ctx = .ok i) :
    step s = exec i { s with pending := rest } := by
  have hctx : State.ctx { s with pending := rest } = s.ctx := rfl
  simp only [step, hp, busy_iff.mpr hm, takeEvent_busy, stepEvent, Event.encoding, decode_endMark, hctx, hd]

/-- The row of a data beat with no error latched (40_commands.md R135). -/
theorem decodeInByte_row {s : State} (he : s.err = .none) (b : Sym) :
    (s.mode = .enc → decodeInByte s.ctx b = .ok (.encIn b)) ∧
    (s.mode = .dec → decodeInByte s.ctx b = .ok (.decIn b)) ∧
    (s.mode = .cmp → decodeInByte s.ctx b = .ok (.cmpIn b)) ∧
    (s.mode = .dcmp → decodeInByte s.ctx b = .ok (.dcmpIn b)) := by
  refine ⟨?_, ?_, ?_, ?_⟩ <;> intro hm <;> simp [decodeInByte, State.ctx, hm, he]

/-- The row of an end beat with no error latched (R135). -/
theorem decodeEndMark_row {s : State} (he : s.err = .none) :
    (s.mode = .enc → decodeEndMark s.ctx = .ok .encEnd) ∧
    (s.mode = .dec → decodeEndMark s.ctx = .ok .decEnd) ∧
    (s.mode = .cmp → decodeEndMark s.ctx = .ok .cmpEnd) ∧
    (s.mode = .dcmp → decodeEndMark s.ctx = .ok .dcmpEnd) := by
  refine ⟨?_, ?_, ?_, ?_⟩ <;> intro hm <;> simp [decodeEndMark, State.ctx, hm, he]

end Sys2Proof.Machine
end

