-- ==== Sys2Proof/Laws/Invariant.lean ====
section
/-! SUPPORT. The invariant of 10_state.md R45 under each shared operation: an append, a symbol of the matcher, a
code of the decoder, a START and the end of an operation keep it. -/

namespace Sys2Proof.Machine

/-- An append with a present prefix keeps the dictionary's part of the invariant. -/
theorem State.Inv.append {s : State} (hi : s.Inv) (hn : s.next.toNat < 65536) {e : Entry}
    (he : e.pre.toNat < s.next.toNat) :
    Memory.wf (s.dict.set s.next.toNat e) = true ∧ (s.next + 1#17).toNat = s.next.toNat + 1 ∧
      Chain (s.dict.set s.next.toNat e) (s.next + 1#17).toNat := by
  refine ⟨Memory.wf_set e hi.nextLow hn hi.memForm, next_succ hn, ?_⟩
  rw [next_succ hn]
  exact hi.chain.append e he

/-- The matcher's step keeps the invariant (41_encode.md R140 to R143). -/
theorem inv_matcherStep {s t : State} {c : Sym} (hi : s.Inv) (hm : s.mode = .enc ∨ s.mode = .cmp)
    (h : matcherStep c s = .next t) : t.Inv := by
  have hlit : (literal c).toNat < 256 := by simp; omega
  have hlo := hi.nextLow
  rcases matcherStep_cases c s with ⟨h1, h2⟩ | ⟨h1, k, h2, h3⟩ | ⟨h1, h2, h3, h4⟩ | ⟨h1, h2, h3, h4⟩
  · rw [h2] at h
    cases h
    exact { hi with
      working := fun _ => show (literal c).toNat < s.next.toNat by omega
      firstCode := fun _ h => by simp at h }
  · rw [h3] at h
    cases h
    exact { hi with working := fun _ => (matchEntry_some hi.memForm h2).2.1 }
  · rw [h4] at h
    cases h
    obtain ⟨a1, a2, a3⟩ := hi.append h3 (e := ⟨s.w, c⟩) (hi.working h1)
    exact { hi with
      memForm := a1
      nextLow := show 256 ≤ (s.next + 1#17).toNat by omega
      nextHigh := show (s.next + 1#17).toNat ≤ 65536 by omega
      entries := a3
      working := fun _ => show (literal c).toNat < (s.next + 1#17).toNat by omega
      firstCode := fun _ h => by simp [h1] at h
      unique := fun _ => by
        have := (hi.uniqueIn hm).append h2
        rw [← a2] at this
        exact this }
  · rw [h4] at h
    cases h
    exact { hi with working := fun _ => show (literal c).toNat < s.next.toNat by omega }

/-- Executing a code keeps the invariant (42_decode.md R162 to R167). -/
theorem inv_runCode {s t : State} {k : Code} (hi : s.Inv) (hp : InPayload s) (h : runCode k s = .next t) :
    t.Inv := by
  have hlo := hi.nextLow
  have hnu : ¬ (s.mode = .enc ∨ s.mode = .cmp) := by rcases hp.2 with h | h <;> simp [h]
  rcases runCode_cases hp hi.chain hi.nextLow hi.working k with
    ⟨h1, h2, h3⟩ | ⟨h1, h2⟩ | ⟨h1, h2, c, l, h3, ⟨h4, h5⟩ | ⟨h4, h5⟩⟩ | ⟨h1, h2, c, l, h3, h4⟩
  · rw [h3] at h
    cases h
    exact { hi with
      working := fun _ => show (literal (codeLow k)).toNat < s.next.toNat by rw [literal_codeLow h2]; omega
      firstCode := fun _ h => by simp [firstLiteral] at h }
  · rw [h2] at h
    cases h
    exact { hi with infoOnly := fun h => by simp [raiseUnderflow, raiseError] at h }
  · rw [h5] at h
    cases h
    obtain ⟨a1, a2, a3⟩ := hi.append h4 (e := ⟨s.w, c⟩) (hi.working h1)
    exact { hi with
      memForm := a1
      nextLow := show 256 ≤ (s.next + 1#17).toNat by omega
      nextHigh := show (s.next + 1#17).toNat ≤ 65536 by omega
      entries := a3
      working := fun _ => show k.toNat < (s.next + 1#17).toNat by omega
      firstCode := fun _ h => by simp [h1] at h
      unique := fun h => absurd h hnu }
  · rw [h5] at h
    cases h
    exact { hi with working := fun _ => h2 }
  · rw [h4] at h
    cases h
    have hlt : s.next.toNat < 65536 := by have := k.isLt; omega
    obtain ⟨a1, a2, a3⟩ := hi.append hlt (e := ⟨s.w, c⟩) (hi.working h1)
    exact { hi with
      memForm := a1
      nextLow := show 256 ≤ (s.next + 1#17).toNat by omega
      nextHigh := show (s.next + 1#17).toNat ≤ 65536 by omega
      entries := a3
      working := fun _ => show k.toNat < (s.next + 1#17).toNat by omega
      firstCode := fun _ h => by simp [h1] at h
      unique := fun h => absurd h hnu }

/-- The parser's byte keeps the invariant (R160, R161). -/
theorem inv_parserStep {s t : State} {b : Sym} (hi : s.Inv) (hp : InPayload s)
    (h : parserStep b s = .next t) : t.Inv := by
  have hop : s.op = .dec ∨ s.op = .dcmp := by
    have := hi.opMode
    rcases hp.2 with h | h <;> simp_all
  rcases parserStep_effect h with ⟨h1, rfl⟩ | ⟨h1, h2⟩
  · exact { hi with halfOwner := fun _ => hop }
  · exact inv_runCode (s := { countIn s with hbv := false })
      { hi with halfOwner := fun h => by simp at h } hp h2

/-- The end of an operation keeps the invariant (40_commands.md R132): a flush, a raised error and the end
beat before it change outputs, `ERR`, `ERRINFO`, `OCNT` and clear `WV`. -/
theorem inv_endOp {s : State} (hi : s.Inv) (hm : s.mode ≠ .idle) (l : List Sym) {e : ErrCode} {info : Word}
    (he : e ≠ .dictionaryUnderflow → info = 0) (n : Nat) {v : Bool} (hv : v = true → s.wv = true) :
    (endOp { emitBytes l s with err := e, errinfo := info, ocnt := n, wv := v }).Inv :=
  { hi with
    working := fun h => hi.working (hv h)
    firstCode := fun h => absurd rfl h
    headerOwner := fun h => by
      rcases hi.headerOwner h with h | h
      · exact .inr ⟨rfl, by rw [← h]; exact hi.opMode hm⟩
      · exact absurd h.1 hm
    opMode := fun h => absurd rfl h
    doneIdle := fun _ => rfl
    infoOnly := he
    unique := fun h => by rcases h with h | h <;> cases h }

/-- START makes the invariant hold of a fresh operation (R123, R126). -/
theorem inv_startOp {s : State} (hi : s.Inv) (m : Mode) (l : List Sym) :
    (emitBytes l (startOp m s)).Inv :=
  { hi with
    nextLow := show 256 ≤ 256 by omega
    nextHigh := show 256 ≤ 65536 by omega
    entries := fun k h1 h2 => by exfalso; change k < 256 at h2; omega
    working := fun h => by cases h
    firstCode := fun _ _ => rfl
    headerCount := show 0 ≤ 8 by omega
    headerOwner := fun h => absurd rfl h
    halfOwner := fun h => by cases h
    opMode := fun _ => rfl
    doneIdle := fun h => by cases h
    infoOnly := fun _ => rfl
    unique := fun _ j k e h1 h2 => by exfalso; change j < 256 at h2; omega }

/-- Past the header `HCNT` is 8 (10_state.md R32). -/
theorem State.Inv.hcnt_eq {s : State} (hi : s.Inv) (h : ¬ s.hcnt.toNat < 8) : s.hcnt = 8#4 := by
  have := hi.headerCount
  apply BitVec.eq_of_toNat_eq
  show s.hcnt.toNat = 8
  omega

end Sys2Proof.Machine
end

