-- ==== Sys2Proof/Laws/PerInstr.lean ====
section
/-! SUPPORT. One family of statements about the instructions as syntax, a lemma per constructor. -/

namespace Sys2Proof.Laws.EncodingWidth

/-- How many bits the opcode table gives the row, and how many events the encoded form travels as: one bus
access or beat, two data beats for a code (30_encoding.md R90), eight for a header (R94). -/
def shape : Instr → Nat × Nat
  | .nop | .enc | .dec | .cmp | .dcmp | .cmdReserved _ => (32, 1)
  | .encIn _ | .encEnd | .decIn _ | .decEnd | .cmpIn _ | .cmpEnd | .dcmpIn _ | .dcmpEnd
  | .drainIn _ | .drainEnd => (9, 1)
  | .lit _ | .ref _ | .kwk _ | .bad _ => (16, 2)
  | .hdr _ _ => (64, 8)
  | .rd _ => (8, 1)
  | .wr _ _ => (40, 1)

/-- Encoding has the row's width and travels as the row's number of events. -/
def Statement (i : Instr) : Prop := (encode i).width = (shape i).1 ∧ (encode i).events.length = (shape i).2

theorem nop : Statement .nop := ⟨rfl, rfl⟩

theorem enc : Statement .enc := ⟨rfl, rfl⟩

theorem dec : Statement .dec := ⟨rfl, rfl⟩

theorem cmp : Statement .cmp := ⟨rfl, rfl⟩

theorem dcmp : Statement .dcmp := ⟨rfl, rfl⟩

theorem cmdReserved (v : Word) : Statement (.cmdReserved v) := ⟨rfl, rfl⟩

theorem encIn (b : Sym) : Statement (.encIn b) := ⟨rfl, rfl⟩

theorem encEnd : Statement .encEnd := ⟨rfl, rfl⟩

theorem decIn (b : Sym) : Statement (.decIn b) := ⟨rfl, rfl⟩

theorem decEnd : Statement .decEnd := ⟨rfl, rfl⟩

theorem cmpIn (b : Sym) : Statement (.cmpIn b) := ⟨rfl, rfl⟩

theorem cmpEnd : Statement .cmpEnd := ⟨rfl, rfl⟩

theorem dcmpIn (b : Sym) : Statement (.dcmpIn b) := ⟨rfl, rfl⟩

theorem dcmpEnd : Statement .dcmpEnd := ⟨rfl, rfl⟩

theorem drainIn (b : Sym) : Statement (.drainIn b) := ⟨rfl, rfl⟩

theorem drainEnd : Statement .drainEnd := ⟨rfl, rfl⟩

theorem lit (c : Sym) : Statement (.lit c) := ⟨rfl, rfl⟩

theorem ref (k : Code) : Statement (.ref k) := ⟨rfl, rfl⟩

theorem kwk (k : Code) : Statement (.kwk k) := ⟨rfl, rfl⟩

theorem bad (k : Code) : Statement (.bad k) := ⟨rfl, rfl⟩

theorem hdr (rows cols : Word) : Statement (.hdr rows cols) := ⟨rfl, rfl⟩

theorem rd (off : BitVec 8) : Statement (.rd off) := ⟨rfl, rfl⟩

theorem wr (off : BitVec 8) (v : Word) : Statement (.wr off v) := ⟨rfl, rfl⟩

end Sys2Proof.Laws.EncodingWidth
end

