-- ==== Sys2Proof/Laws/Results.lean ====
section
/-! SUPPORT. The result of an operation (60_exceptions.md R237): what it is for data beats closed by an end
beat, and what it carries by operation. -/

namespace Sys2Proof.Machine

@[simp] theorem outBytes_data (l : List Sym) (e : ErrCode) : outBytes (l.map .out ++ [.outEnd e]) = l := by
  induction l with
  | nil => rfl
  | cons b l ih => simp [outBytes, ih]

/-- The result of data beats closed by an end beat: all that `operationResult` can answer for an operation. -/
@[simp] theorem operationResult_closed (s : State) (l : List Sym) (e : ErrCode) :
    operationResult s (l.map .out ++ [.outEnd e]) =
      some (if e = .none then .ok (operationValue s l) else .error e) := by
  simp [operationResult]

/-- Outputs without an end beat are no result (70_reset_and_hazards.md R257). -/
@[simp] theorem operationResult_open (s : State) (l : List Sym) : operationResult s (l.map .out) = none := by
  cases h : (l.map OutEvent.out).getLast? with
  | none => simp [operationResult, h]
  | some x =>
    obtain ⟨b, -, rfl⟩ := List.mem_map.mp (List.mem_of_getLast? h)
    simp [operationResult, h]

theorem operationValue_dcmp {s : State} (h : s.op = .dcmp) (out : List Sym) :
    operationValue s out = .grid out s.rows s.cols := by simp [operationValue, h]

theorem operationValue_bytes {s : State} (h : s.op ≠ .dcmp) (out : List Sym) :
    operationValue s out = .bytes out := by
  unfold operationValue
  split
  · contradiction
  · rfl
  · rfl
  · rfl
  · rfl

end Sys2Proof.Machine
end

