-- ==== Sys2Proof/Laws/Source.lean ====
section
/-! SUPPORT. The source's own formulation, by itself: what a code stands for, and that its decoder undoes its
encoder (the algorithms quoted in 41_encode.md and 42_decode.md, with the cap). -/

namespace Sys2Proof.Source

theorem singletons_length : singletons.length = 256 := by simp [singletons, Config.firstDyn]

theorem singletons_get {i : Nat} (h : i < 256) : singletons[i]? = some [BitVec.ofNat 8 i] := by
  simp [singletons, Config.firstDyn, h]

theorem singleton_mem (c : Sym) : [c] ∈ singletons := by
  have := singletons_get (i := c.toNat) (by omega)
  rw [BitVec.ofNat_toNat, BitVec.setWidth_eq] at this
  exact List.mem_of_getElem? this

theorem insert_length_le {dict : List (List Sym)} {e : List Sym} (h : dict.length ≤ 65536) :
    (insert dict e).length ≤ 65536 := by
  unfold insert Config.dictCap
  split
  · simp; omega
  · exact h

/-- An insertion leaves the present entries where they are. -/
theorem insert_get {dict : List (List Sym)} {e : List Sym} {i : Nat} (h : i < dict.length) :
    (insert dict e)[i]? = dict[i]? := by
  unfold insert
  split
  · rw [List.getElem?_append_left h]
  · rfl

theorem mem_insert_of_mem {dict : List (List Sym)} {e w : List Sym} (h : w ∈ dict) : w ∈ insert dict e := by
  unfold insert
  split
  · exact List.mem_append_left _ h
  · exact h

/-- The code of a present sequence is its index, and the sequence stands there. -/
theorem codeOf_get {dict : List (List Sym)} {w : List Sym} (h : w ∈ dict) (hl : dict.length ≤ 65536) :
    (codeOf dict w).toNat < dict.length ∧ dict[(codeOf dict w).toNat]? = some w := by
  have hi := List.idxOf_lt_length_of_mem h
  have hc : (codeOf dict w).toNat = dict.idxOf w := by
    rw [codeOf, BitVec.toNat_ofNat]
    exact Nat.mod_eq_of_lt (by omega)
  rw [hc]
  exact ⟨hi, by rw [List.getElem?_eq_getElem hi, List.getElem_idxOf hi]⟩

/-- The decoder's entry for the code of `w` is `w`, where the encoder is one insertion ahead: the "not yet
defined" case is the only code the decoder's dictionary lacks. -/
theorem entryOf_code {dict : List (List Sym)} {p w : List Sym} (hl : dict.length ≤ 65536) (hp : p ≠ [])
    (hw : w ∈ insert dict (p ++ w.take 1)) :
    entryOf dict p (codeOf (insert dict (p ++ w.take 1)) w) = some w := by
  obtain ⟨h1, h2⟩ := codeOf_get hw (insert_length_le hl)
  generalize hk : codeOf (insert dict (p ++ w.take 1)) w = k at h1 h2
  unfold entryOf
  by_cases hlt : k.toNat < dict.length
  · rw [insert_get hlt] at h2
    rw [h2]
  · have hin : dict.length < 65536 := by
      by_contra hfull
      rw [insert, if_neg (by simpa [Config.dictCap] using hfull)] at h1
      exact hlt h1
    rw [insert, if_pos (by simpa [Config.dictCap] using hin)] at h1 h2
    simp only [List.length_append, List.length_singleton] at h1
    have hkl : k.toNat = dict.length := by omega
    rw [List.getElem?_eq_none (by omega), hkl]
    rw [hkl, List.getElem?_append_right (by omega)] at h2
    simp only [Nat.sub_self, List.getElem?_cons_zero, Option.some.injEq] at h2
    have ht : w.take 1 = p.take 1 := by
      have := congrArg (List.take 1) h2
      rw [List.take_append_of_le_length (by cases p <;> simp_all)] at this
      exact this.symm
    simp [← ht, h2]

/-- After at least one code the decoder recovers the rest. -/
theorem decodeLoop_encodeLoop (cs : List Sym) : ∀ (dict : List (List Sym)) (p w : List Sym),
    dict.length ≤ 65536 → (∀ c : Sym, [c] ∈ dict) → p ≠ [] → w ≠ [] → w ∈ insert dict (p ++ w.take 1) →
    decodeLoop dict p (encodeLoop (insert dict (p ++ w.take 1)) w cs) = .ok (w ++ cs) := by
  induction cs with
  | nil =>
    intro dict p w hl _ hp hw hm
    simp [encodeLoop, hw, decodeLoop, entryOf_code hl hp hm]
  | cons c cs ih =>
    intro dict p w hl hs hp hw hm
    by_cases hin : w ++ [c] ∈ insert dict (p ++ w.take 1)
    · have ht : (w ++ [c]).take 1 = w.take 1 := by cases w <;> simp_all
      have := ih dict p (w ++ [c]) hl hs hp (by simp) (by rw [ht]; exact hin)
      rw [ht] at this
      simp [encodeLoop, hin, this]
    · have := ih (insert dict (p ++ w.take 1)) w [c] (insert_length_le hl)
        (fun c => mem_insert_of_mem (hs c)) hw (by simp) (mem_insert_of_mem (mem_insert_of_mem (hs c)))
      rw [show List.take 1 [c] = [c] from rfl] at this
      simp [encodeLoop, hin, decodeLoop, entryOf_code hl hp hm, this]

/-- From the first symbol on. -/
theorem decode_encodeLoop (cs : List Sym) : ∀ w : List Sym, w ≠ [] → w ∈ singletons →
    decode (encodeLoop singletons w cs) = .ok (w ++ cs) := by
  induction cs with
  | nil =>
    intro w hw hm
    have := (codeOf_get hm (by rw [singletons_length]; omega)).2
    simp [encodeLoop, hw, decode, this, decodeLoop]
  | cons c cs ih =>
    intro w hw hm
    by_cases hin : w ++ [c] ∈ singletons
    · simp [encodeLoop, hin, ih (w ++ [c]) (by simp) hin]
    · have h1 := (codeOf_get hm (by rw [singletons_length]; omega)).2
      have h2 := decodeLoop_encodeLoop cs singletons w [c] (by rw [singletons_length]; omega) singleton_mem hw
        (by simp) (mem_insert_of_mem (singleton_mem c))
      rw [show List.take 1 [c] = [c] from rfl] at h2
      simp [encodeLoop, hin, decode, h1, h2]

/-- The source's decoder undoes its encoder. -/
theorem decode_encode (input : List Sym) : decode (encode input) = .ok input := by
  cases input with
  | nil => simp [encode, encodeLoop, decode]
  | cons c cs =>
    simpa [encode, encodeLoop, singleton_mem] using decode_encodeLoop cs [c] (by simp) (singleton_mem c)

end Sys2Proof.Source
end

