-- ==== Sys2Proof/Laws/Simulation.lean ====
section
/-! SUPPORT. One step of the machine beside one step of the source's formulation (41_encode.md R151,
42_decode.md R175): the dictionary RAM and the source's list of sequences, kept in step. -/

namespace Sys2Proof.Machine

/-- The source's list holds, at each present code, that code's sequence. -/
structure Tracks (d : Memory) (next : Nat) (dict : List (List Sym)) : Prop where
  length : dict.length = next
  get : ∀ k : Code, k.toNat < next → dict[k.toNat]? = some (seqAt d next k)

/-- At START only the singletons are present. -/
theorem Tracks.start (d : Memory) : Tracks d 256 Source.singletons := by
  refine ⟨Source.singletons_length, fun k hk => ?_⟩
  rw [Source.singletons_get hk, seqAt_lit d 256 hk]
  congr 2

/-- An append is an insertion. -/
theorem Tracks.append {d : Memory} {next : Nat} {dict : List (List Sym)} (h : Tracks d next dict)
    (hc : Chain d next) (hlo : 256 ≤ next) (hn : next < 65536) {e : Entry} (he : e.pre.toNat < next) :
    Tracks (d.set next e) (next + 1) (Source.insert dict (seqAt d next e.pre ++ [e.suf])) := by
  have hstable : ∀ k : Code, k.toNat < next → seqAt (d.set next e) (next + 1) k = seqAt d next k :=
    fun k hk => hc.seqAt_stable (by omega) (fun j _ hj => Memory.get_set_of_ne _ _ (by omega)) hk
  rw [Source.insert, if_pos (by simpa [Config.dictCap, h.length] using hn)]
  refine ⟨by simp [h.length], fun k hk => ?_⟩
  by_cases hlt : k.toNat < next
  · rw [List.getElem?_append_left (by rw [h.length]; exact hlt), h.get k hlt, hstable k hlt]
  · have hkn : k.toNat = next := by omega
    have hget : Memory.get (d.set next e) k.toNat = some e := by rw [hkn]; exact Memory.get_set_self d next e
    rw [(hc.append e he).seqAt_dyn (by omega) hk hget, hstable e.pre he,
      List.getElem?_append_right (by rw [h.length]; omega), hkn, h.length]
    simp

/-- With the dictionary full an insertion does nothing. -/
theorem Tracks.full {d : Memory} {next : Nat} {dict : List (List Sym)} (h : Tracks d next dict)
    (hn : ¬ next < 65536) (e : List Sym) : Source.insert dict e = dict := by
  rw [Source.insert, if_neg (by simpa [Config.dictCap, h.length] using hn)]

/-- What stands at an index is the sequence of that code. -/
theorem Tracks.of_mem {d : Memory} {next : Nat} {dict : List (List Sym)} (h : Tracks d next dict)
    (hn : next ≤ 65536) {w : List Sym} (hw : w ∈ dict) : ∃ k : Code, k.toNat < next ∧ seqAt d next k = w := by
  have hl := h.length
  obtain ⟨h1, h2⟩ := Source.codeOf_get hw (by omega)
  rw [h.length] at h1
  rw [h.get _ h1] at h2
  exact ⟨_, h1, Option.some.inj h2⟩

/-- With unique pairs the source's code of a present code's sequence is that code. -/
theorem Tracks.codeOf {d : Memory} {next : Nat} {dict : List (List Sym)} (h : Tracks d next dict)
    (hc : Chain d next) (hu : Unique d next) (hn : next ≤ 65536) {k : Code} (hk : k.toNat < next) :
    Source.codeOf dict (seqAt d next k) = k := by
  have hl := h.length
  obtain ⟨h1, h2⟩ := Source.codeOf_get (List.mem_of_getElem? (h.get k hk)) (by omega)
  rw [h.length] at h1
  rw [h.get _ h1] at h2
  exact hc.seqAt_inj hu (next) _ _ h1 h1 hk (Option.some.inj h2)

/-- `Match` answers none exactly when the source's membership test fails. -/
theorem Tracks.match_none {d : Memory} {next : Nat} {dict : List (List Sym)} (h : Tracks d next dict)
    (hc : Chain d next) (hu : Unique d next) (hd : d.wf = true) (hn : next ≤ 65536) {w : Code} {c : Sym}
    (hw : w.toNat < next) : matchEntry d next w c = none ↔ seqAt d next w ++ [c] ∉ dict := by
  constructor
  · intro hm hin
    obtain ⟨k, hk, hs⟩ := h.of_mem hn hin
    rw [(hc.match_iff_mem hu hd hw k hk).mpr hs] at hm
    cases hm
  · intro hin
    cases hm : matchEntry d next w c with
    | none => rfl
    | some k =>
      obtain ⟨-, hk, -⟩ := matchEntry_some hd hm
      have hs := (hc.match_iff_mem hu hd hw k hk).mp hm
      exact absurd (List.mem_of_getElem? (h.get k hk)) (by rw [hs]; exact hin)

/-- The working sequence of a state (41_encode.md, `w`). -/
def workSeq (s : State) : List Sym := if s.wv then seqAt s.dict s.next.toNat s.w else []

/-- One symbol, beside the source's loop: the machine either extends the working sequence to a present one, or
emits its code, inserts, and starts again from the symbol. -/
theorem matcherStep_simulates {s : State} {dict : List (List Sym)} (hi : s.Inv)
    (hm : s.mode = .enc ∨ s.mode = .cmp) (h : Tracks s.dict s.next.toNat dict) (c : Sym) :
    ∃ t, matcherStep c s = .next t ∧ t.wv = true ∧ t.icnt = s.icnt + 1 ∧ t.pending = s.pending ∧
      t.mode = s.mode ∧ t.err = s.err ∧ t.rows = s.rows ∧ t.cols = s.cols ∧
      ((workSeq s ++ [c] ∈ dict ∧ workSeq t = workSeq s ++ [c] ∧ t.outs = s.outs ∧ t.ocnt = s.ocnt ∧
          Tracks t.dict t.next.toNat dict) ∨
       (s.wv = true ∧ workSeq s ++ [c] ∉ dict ∧ workSeq t = [c] ∧
          t.outs = s.outs ++ (codeBytes (Source.codeOf dict (workSeq s))).map .out ∧ t.ocnt = s.ocnt + 2 ∧
          Tracks t.dict t.next.toNat (Source.insert dict (workSeq s ++ [c])))) := by
  have hlo := hi.nextLow
  have hhi := hi.nextHigh
  have hlit : (literal c).toNat < 256 := by simp; omega
  rcases matcherStep_cases c s with ⟨h1, h2⟩ | ⟨h1, k, h2, h3⟩ | ⟨h1, h2, h3, h4⟩ | ⟨h1, h2, h3, h4⟩
  · refine ⟨_, h2, rfl, rfl, rfl, rfl, rfl, rfl, rfl, .inl ⟨?_, ?_, rfl, rfl, h⟩⟩
    · have := h.get (literal c) (by omega)
      rw [seqAt_lit _ _ hlit, codeLow_literal] at this
      simpa [workSeq, h1] using List.mem_of_getElem? this
    · simp [workSeq, h1, seqAt_lit _ _ hlit]
  · have hw := hi.working h1
    have hk := (matchEntry_some hi.memForm h2).2.1
    have hs := (hi.chain.match_iff_mem (hi.uniqueIn hm) hi.memForm hw k hk).mp h2
    refine ⟨_, h3, h1, rfl, rfl, rfl, rfl, rfl, rfl, .inl ⟨?_, ?_, rfl, rfl, h⟩⟩
    · simpa [workSeq, h1, ← hs] using List.mem_of_getElem? (h.get k hk)
    · simp [workSeq, h1, hs]
  · have hw := hi.working h1
    refine ⟨_, h4, h1, rfl, rfl, rfl, rfl, rfl, rfl, .inr ⟨h1, ?_, ?_, ?_, rfl, ?_⟩⟩
    · simpa [workSeq, h1] using (h.match_none hi.chain (hi.uniqueIn hm) hi.memForm hhi hw).mp h2
    · simp [workSeq, h1, seqAt_lit _ _ hlit]
    · simp [workSeq, h1, h.codeOf hi.chain (hi.uniqueIn hm) hhi hw, emitCode, countIn]
    · have := h.append hi.chain hlo h3 (e := ⟨s.w, c⟩) hw
      simpa [workSeq, h1, next_succ h3] using this
  · have hw := hi.working h1
    refine ⟨_, h4, h1, rfl, rfl, rfl, rfl, rfl, rfl, .inr ⟨h1, ?_, ?_, ?_, rfl, ?_⟩⟩
    · simpa [workSeq, h1] using (h.match_none hi.chain (hi.uniqueIn hm) hi.memForm hhi hw).mp h2
    · simp [workSeq, h1, seqAt_lit _ _ hlit]
    · simp [workSeq, h1, h.codeOf hi.chain (hi.uniqueIn hm) hhi hw, emitCode, countIn]
    · rw [h.full h3]
      exact h

/-- One later code, beside the source's loop. -/
theorem runCode_simulates {s : State} {dict : List (List Sym)} (hi : s.Inv) (hp : InPayload s)
    (hv : s.wv = true) (h : Tracks s.dict s.next.toNat dict) (k : Code) :
    (Source.entryOf dict (workSeq s) k = none ∧ runCode k s = .next (raiseUnderflow k s)) ∨
    ∃ e t, Source.entryOf dict (workSeq s) k = some e ∧ runCode k s = .next t ∧
      t.wv = true ∧ workSeq t = e ∧ t.outs = s.outs ++ e.map .out ∧ t.ocnt = s.ocnt + e.length ∧
      Tracks t.dict t.next.toNat (Source.insert dict (workSeq s ++ e.take 1)) ∧
      t.icnt = s.icnt ∧ t.pending = s.pending ∧ t.mode = s.mode ∧ t.err = s.err ∧ t.hbv = s.hbv ∧
      t.hcnt = s.hcnt ∧ t.rows = s.rows ∧ t.cols = s.cols := by
  have hlo := hi.nextLow
  have hhi := hi.nextHigh
  have hw := hi.working hv
  have hws : workSeq s = seqAt s.dict s.next.toNat s.w := by simp [workSeq, hv]
  rcases runCode_cases hp hi.chain hi.nextLow hi.working k with
    ⟨h1, -⟩ | ⟨h1, h2⟩ | ⟨-, h2, c, l, h3, ⟨h4, h5⟩ | ⟨h4, h5⟩⟩ | ⟨-, h2, c, l, h3, h4⟩
  · rw [hv] at h1; cases h1
  · refine .inl ⟨?_, h2⟩
    have hgt : s.next.toNat < k.toNat := by
      rcases h1 with ⟨h1, -⟩ | h1
      · rw [hv] at h1; cases h1
      · exact h1
    rw [Source.entryOf, List.getElem?_eq_none (by rw [h.length]; omega)]
    simp only [h.length]
    rw [if_neg (by omega)]
  · refine .inr ⟨c :: l, _, ?_, h5, hv, ?_, rfl, rfl, ?_, rfl, rfl, rfl, rfl, rfl, rfl, rfl, rfl⟩
    · rw [Source.entryOf, h.get k h2, h3]
    · have := hi.chain.seqAt_stable (d' := s.dict.set s.next.toNat ⟨s.w, c⟩) (next' := s.next.toNat + 1)
        (by omega) (fun j _ hj => Memory.get_set_of_ne _ _ (by omega)) h2
      simp [workSeq, hv, next_succ h4, this, h3]
    · have := h.append hi.chain hlo h4 (e := ⟨s.w, c⟩) hw
      simpa [hws, next_succ h4] using this
  · refine .inr ⟨c :: l, _, ?_, h5, hv, ?_, rfl, rfl, ?_, rfl, rfl, rfl, rfl, rfl, rfl, rfl, rfl⟩
    · rw [Source.entryOf, h.get k h2, h3]
    · simp [workSeq, hv, h3]
    · rw [h.full h4]
      exact h
  · have hn : s.next.toNat < 65536 := by have := k.isLt; omega
    refine .inr ⟨c :: l ++ [c], _, ?_, h4, hv, ?_, rfl, ?_, ?_, rfl, rfl, rfl, rfl, rfl, rfl, rfl, rfl⟩
    · rw [Source.entryOf, List.getElem?_eq_none (by rw [h.length]; omega)]
      simp [h.length, h2, hws, h3]
    · have hc := hi.chain.append ⟨s.w, c⟩ hw
      have := hc.seqAt_dyn (k := k) (e := ⟨s.w, c⟩) (by omega) (by omega)
        (by rw [h2]; exact Memory.get_set_self _ _ _)
      rw [hi.chain.seqAt_stable (by omega) (fun j _ hj => Memory.get_set_of_ne _ _ (by omega)) hw, h3] at this
      simp [workSeq, hv, next_succ hn, this]
    · simp [Nat.add_assoc]
    · have := h.append hi.chain hlo hn (e := ⟨s.w, c⟩) hw
      simpa [hws, next_succ hn] using this

end Sys2Proof.Machine
end

