-- ==== Sys2Proof/Laws/Runs.lean ====
section
/-! SUPPORT. Runs of several steps: a START, the bytes of a code, a list of symbols, a list of codes, a drain. -/

namespace Sys2Proof.Machine

theorem stepN_succ {n : Nat} {s t : State} (h : step s = .next t) : stepN (n + 1) s = stepN n t := by
  simp [stepN, h]

theorem stepN_add (m n : Nat) : ∀ s, stepN (m + n) s = andThen (stepN m s) (stepN n) := by
  induction m with
  | zero => intro s; simp [stepN]
  | succ m ih =>
    intro s
    rw [show m + 1 + n = (m + n) + 1 by omega]
    simp only [stepN]
    cases step s <;> simp [ih]

/-- A START while idle (40_commands.md R123, R126). -/
theorem step_start {s : State} {m : Mode} {rest : List Event} (hm : s.mode = .idle) (hne : m ≠ .idle)
    (hp : s.pending = startEvent m :: rest) :
    step s = .next (if m = .cmp then
      emitBytes (hdrBytes s.rows s.cols) (startOp .cmp { s with pending := rest })
      else startOp m { s with pending := rest }) := by
  have ht : takeEvent s.busy s.pending = some (startEvent m, rest) := by
    rw [not_busy_iff.mpr hm, hp]
    rfl
  simp only [step, ht, stepEvent, startEvent, Event.encoding, decode_regWrite]
  cases m
  · exact absurd rfl hne
  all_goals simp [decodeWrite, aligned, Mode.bits, decodeCmd, exec, execEnc, execDec, execCmp, execDcmp,
    startWhenIdle, State.busy, hm]

/-- A data beat that reaches the matcher. -/
theorem step_symbol {s : State} {c : Sym} {rest : List Event} (hm : s.mode = .enc ∨ s.mode = .cmp)
    (he : s.err = .none) (hp : s.pending = .inByte c :: rest) :
    step s = matcherStep c { s with pending := rest } := by
  rcases hm with hm | hm
  · rw [step_inByte (by simp [hm]) hp ((decodeInByte_row he c).1 hm)]
    exact exec_encIn (s := { s with pending := rest }) hm he c
  · rw [step_inByte (by simp [hm]) hp ((decodeInByte_row he c).2.2.1 hm)]
    exact exec_cmpIn (s := { s with pending := rest }) hm he c

/-- A data beat that reaches the parser. -/
theorem step_payload {s : State} {b : Sym} {rest : List Event}
    (hm : s.mode = .dec ∨ (s.mode = .dcmp ∧ s.hcnt = 8#4)) (he : s.err = .none)
    (hp : s.pending = .inByte b :: rest) : step s = parserStep b { s with pending := rest } := by
  rcases hm with hm | ⟨hm, hc⟩
  · rw [step_inByte (by simp [hm]) hp ((decodeInByte_row he b).2.1 hm)]
    exact exec_decIn (s := { s with pending := rest }) hm he b
  · rw [step_inByte (by simp [hm]) hp ((decodeInByte_row he b).2.2.2 hm)]
    exact exec_dcmpIn_payload (s := { s with pending := rest }) hm he hc b

/-- Two steps take a code's bytes and execute it (42_decode.md R160, R161). -/
theorem stepN_code {s : State} {k : Code} {rest : List Event}
    (hm : s.mode = .dec ∨ (s.mode = .dcmp ∧ s.hcnt = 8#4)) (he : s.err = .none) (hb : s.hbv = false)
    (hp : s.pending = codeIn k ++ rest) (n : Nat) :
    stepN (n + 2) s = andThen
      (runCode k { s with pending := rest, icnt := s.icnt + 2, hb := codeHigh k, hbv := false }) (stepN n) := by
  have h1 : step s = .next { s with
      pending := .inByte (codeLow k) :: rest, icnt := s.icnt + 1, hb := codeHigh k, hbv := true } := by
    rw [step_payload hm he hp]
    simp [parserStep, hb, countIn]
  rw [show n + 2 = (n + 1) + 1 by omega, stepN_succ h1]
  have h2 := step_payload (s := { s with
    pending := .inByte (codeLow k) :: rest, icnt := s.icnt + 1, hb := codeHigh k, hbv := true }) hm he rfl
  simp only [stepN, h2]
  simp only [parserStep, if_true, countIn, codeOf, code_halves]

/-- Bytes after a fault are discarded one by one (40_commands.md R133). -/
theorem stepN_drain (bs : List Sym) : ∀ (s : State) (rest : List Event), s.mode ≠ .idle → s.err ≠ .none →
    s.pending = bytesIn bs ++ rest → stepN bs.length s = .next { s with pending := rest } := by
  induction bs with
  | nil =>
    intro s rest _ _ hp
    simp only [bytesIn, List.map_nil, List.nil_append] at hp
    subst hp
    rfl
  | cons b bs ih =>
    intro s rest hm he hp
    have hd : decodeInByte s.ctx b = .ok (.drainIn b) := by
      simp only [decodeInByte, State.ctx]
      cases h : s.mode <;> simp_all
    have h1 : step s = .next { s with pending := bytesIn bs ++ rest } := by
      rw [step_inByte (rest := bytesIn bs ++ rest) hm hp hd]
      exact exec_drainIn (s := { s with pending := bytesIn bs ++ rest }) hm he b
    rw [List.length_cons, stepN_succ h1]
    exact ih { s with pending := bytesIn bs ++ rest } rest hm he rfl

theorem streamBytes_length (ks : List Code) : (streamBytes ks).length = 2 * ks.length := by
  induction ks with
  | nil => rfl
  | cons k ks ih =>
    simp only [streamBytes, List.flatMap_cons, List.length_append, List.length_cons] at *
    simp only [codeBytes, List.length_cons, List.length_nil]
    omega

/-- A run over symbols, beside the source's loop: what has been emitted, and the working code still to flush. -/
theorem stepN_symbols (input : List Sym) : ∀ (s : State) (dict : List (List Sym)) (rest : List Event),
    s.Inv → (s.mode = .enc ∨ s.mode = .cmp) → s.err = .none → Tracks s.dict s.next.toNat dict →
    s.pending = bytesIn input ++ rest →
    ∃ t codes, stepN input.length s = .next t ∧ t.mode = s.mode ∧ t.err = .none ∧ t.Inv ∧
      t.pending = rest ∧ t.icnt = s.icnt + input.length ∧ t.rows = s.rows ∧ t.cols = s.cols ∧
      Source.encodeLoop dict (workSeq s) input = codes ++ (if t.wv then [t.w] else []) ∧
      t.outs = s.outs ++ (streamBytes codes).map .out ∧ t.ocnt = s.ocnt + 2 * codes.length := by
  induction input with
  | nil =>
    intro s dict rest hi hm he ht hp
    refine ⟨s, [], rfl, rfl, he, hi, hp, rfl, rfl, rfl, ?_, by simp [streamBytes], rfl⟩
    simp only [Source.encodeLoop, List.nil_append]
    cases hv : s.wv with
    | false => simp [workSeq, hv]
    | true =>
      have hw := hi.working hv
      obtain ⟨-, -, c, l, h3, -⟩ := hi.chain.eval hw
      simp [workSeq, hv, ht.codeOf hi.chain (hi.uniqueIn hm) hi.nextHigh hw]
      simp [h3]
  | cons c cs ih =>
    intro s dict rest hi hm he ht hp
    have hi' : State.Inv { s with pending := bytesIn cs ++ rest } := { hi with }
    have hst : step s = matcherStep c { s with pending := bytesIn cs ++ rest } := step_symbol hm he hp
    obtain ⟨t, h1, h2, h3, h4, h5, h6, h7, h8, h9⟩ := matcherStep_simulates hi' hm ht c
    have hit : t.Inv := inv_matcherStep hi' hm h1
    rw [h1] at hst
    rw [List.length_cons, stepN_succ hst]
    have hws : workSeq { s with pending := bytesIn cs ++ rest } = workSeq s := rfl
    rw [hws] at h9
    have count : s.icnt + 1 + cs.length = s.icnt + (cs.length + 1) := by omega
    rcases h9 with ⟨g1, g2, g3, g4, g5⟩ | ⟨g0, g1, g2, g3, g4, g5⟩
    · obtain ⟨u, codes, k1, k2, k3, k4, k5, k6, k7, k8, k9, k10, k11⟩ :=
        ih t dict rest hit (by rw [h5]; exact hm) (by rw [h6]; exact he) g5 h4
      refine ⟨u, codes, k1, by rw [k2, h5], k3, k4, k5, ?_, by rw [k7, h7], by rw [k8, h8], ?_, ?_, ?_⟩
      · rw [k6, h3]; exact count
      · rw [Source.encodeLoop, if_pos g1, ← g2, k9]
      · rw [k10, g3]
      · rw [k11, g4]
    · obtain ⟨u, codes, k1, k2, k3, k4, k5, k6, k7, k8, k9, k10, k11⟩ :=
        ih t _ rest hit (by rw [h5]; exact hm) (by rw [h6]; exact he) g5 h4
      refine ⟨u, Source.codeOf dict (workSeq s) :: codes, k1, by rw [k2, h5], k3, k4, k5, ?_,
        by rw [k7, h7], by rw [k8, h8], ?_, ?_, ?_⟩
      · rw [k6, h3]; exact count
      · rw [g2] at k9
        rw [Source.encodeLoop, if_neg g1, k9]
        rfl
      · rw [k10, g3]
        simp [streamBytes, List.append_assoc]
      · rw [k11, g4, List.length_cons]
        show s.ocnt + 2 + _ = _
        omega

/-- A run over later codes, beside the source's loop; after a bad code the rest is drained. -/
theorem stepN_codes (ks : List Code) : ∀ (s : State) (dict : List (List Sym)) (rest : List Event), s.Inv →
    (s.mode = .dec ∨ (s.mode = .dcmp ∧ s.hcnt = 8#4)) → s.err = .none → s.hbv = false → s.wv = true →
    Tracks s.dict s.next.toNat dict → s.pending = bytesIn (streamBytes ks) ++ rest →
    ∃ t o, stepN (streamBytes ks).length s = .next t ∧ t.mode = s.mode ∧ t.hcnt = s.hcnt ∧
      t.pending = rest ∧ t.rows = s.rows ∧ t.cols = s.cols ∧ t.outs = s.outs ++ List.map OutEvent.out o ∧
      t.hbv = false ∧
      (∀ l, Source.decodeLoop dict (workSeq s) ks = .ok l →
        t.err = .none ∧ o = l ∧ t.ocnt = s.ocnt + l.length ∧ t.icnt = s.icnt + 2 * ks.length) ∧
      (∀ k, Source.decodeLoop dict (workSeq s) ks = .error k →
        t.err = .dictionaryUnderflow ∧ t.errinfo = k.setWidth 32) := by
  induction ks with
  | nil =>
    intro s dict rest hi hm he hb hv ht hp
    exact ⟨s, [], rfl, rfl, rfl, hp, rfl, rfl, by simp, hb, by intro l hl; cases hl; simp [he],
      by intro k hk; cases hk⟩
  | cons k ks ih =>
    intro s dict rest hi hm he hb hv ht hp
    have hlen : (streamBytes (k :: ks)).length = (streamBytes ks).length + 2 := by
      simp only [streamBytes_length, List.length_cons]
      omega
    have hp' : s.pending = codeIn k ++ (bytesIn (streamBytes ks) ++ rest) := by
      rw [hp]
      simp [streamBytes, bytesIn, codeIn]
    let s' : State := { s with
      pending := bytesIn (streamBytes ks) ++ rest, icnt := s.icnt + 2, hb := codeHigh k, hbv := false }
    have hi' : s'.Inv := { hi with halfOwner := fun h => by cases h }
    have hcs : stepN ((streamBytes ks).length + 2) s =
        andThen (runCode k s') (stepN (streamBytes ks).length) := stepN_code hm he hb hp' _
    rw [hlen, hcs]
    have hws : workSeq s' = workSeq s := rfl
    rcases runCode_simulates hi' ⟨he, hm⟩ hv ht k with
      ⟨h1, h2⟩ | ⟨e, t, h1, h2, h3, h4, h5, h6, h7, h8, h9, h10, h11, h12, h13, h14, h15⟩
    · rw [h2, andThen_next, stepN_drain (streamBytes ks) (raiseUnderflow k s') rest
        (by show s.mode ≠ _; rcases hm with h | h <;> simp [h]) (by simp [raiseUnderflow, raiseError]) rfl]
      refine ⟨_, [], rfl, rfl, rfl, rfl, rfl, rfl, by simp [raiseUnderflow, raiseError, s'], rfl, ?_, ?_⟩
      · intro l hl
        rw [Source.decodeLoop, ← hws, h1] at hl
        cases hl
      · intro j hj
        rw [Source.decodeLoop, ← hws, h1] at hj
        cases hj
        exact ⟨rfl, rfl⟩
    · rw [h2, andThen_next]
      have hit : t.Inv := inv_runCode hi' ⟨he, hm⟩ h2
      obtain ⟨u, o, g1, g2, gc, g3, g4, g5, g6, gh, g7, g8⟩ :=
        ih t _ rest hit (by rw [h10, h13]; exact hm) (by rw [h11]; exact he) (by rw [h12]) h3 h7 h9
      rw [hws] at h1 h7 g7 g8
      rw [h4] at g7 g8
      refine ⟨u, e ++ o, g1, by rw [g2, h10], by rw [gc, h13], g3, by rw [g4, h14], by rw [g5, h15], ?_, gh, ?_, ?_⟩
      · rw [g6, h5]
        simp [s']
      · intro l hl
        rw [Source.decodeLoop, h1] at hl
        simp only at hl
        cases hx : Source.decodeLoop (Source.insert dict (workSeq s ++ e.take 1)) e ks with
        | error j => rw [hx] at hl; cases hl
        | ok l' =>
          rw [hx] at hl
          cases hl
          obtain ⟨a, b, c, d⟩ := g7 l' hx
          refine ⟨a, by rw [b], ?_, ?_⟩
          · rw [c, h6]
            simp [s']
            omega
          · rw [d, h8]
            simp [s']
            omega
      · intro j hj
        rw [Source.decodeLoop, h1] at hj
        simp only at hj
        cases hx : Source.decodeLoop (Source.insert dict (workSeq s ++ e.take 1)) e ks with
        | error j' =>
          rw [hx] at hj
          cases hj
          exact g8 _ hx
        | ok l' => rw [hx] at hj; cases hj

end Sys2Proof.Machine
end

