-- ==== Sys2Proof/Tests/Slice0.lean ====
section
/-! SUPPORT. The model's own tests. Expected results are the spec's worked examples and vectors
(95_test_vectors.md, named V<n>, and the examples of the rules), or hand calculation from the encodings. -/

namespace Sys2Proof.Tests

open Sys2Proof Sys2Proof.Machine

/-! ## WellFormed: an ill-formed term for each check, refused -/

theorem test_wf_reserved_is_no_command : (Instr.cmdReserved 4).wellFormed = false := by decide
theorem test_wf_ref_below_256 : (Instr.ref 0x00FF).wellFormed = false := by decide
theorem test_wf_kwk_below_256 : (Instr.kwk 0x00FF).wellFormed = false := by decide
theorem test_wf_bad_below_257 : (Instr.bad 0x0100).wellFormed = false := by decide
theorem test_wf_rd_misaligned : (Instr.rd 0x05).wellFormed = false := by decide
theorem test_wf_wr_misaligned : (Instr.wr 0x0A 0).wellFormed = false := by decide
theorem test_wf_wr_at_ctrl : (Instr.wr 0x00 1).wellFormed = false := by decide
theorem test_wf_read_event_misaligned : (Event.regRead 0x03).wellFormed = false := by decide
theorem test_wf_write_event_misaligned : (Event.regWrite 0x21 0).wellFormed = false := by decide
theorem test_wf_accepts : (Instr.cmdReserved 5).wellFormed = true ∧ (Instr.ref 0x0100).wellFormed = true ∧
    (Instr.bad 0x0101).wellFormed = true ∧ (Instr.wr 0x08 0).wellFormed = true := by decide

/-! ## Decoding: words written out bit by bit from the encodings -/

/-- A context in the middle of a decode with `NEXT = 258`. -/
def midDecode : Ctx := { mode := .dec, err := .none, next := 258#17 }

/-- CMD32 (30_encoding.md R96, R97): `CTRL[31:3] = 0`, `CTRL[2:0] = OP`. -/
theorem test_decode_commands :
    decode midDecode (.cmd32 0b00000000000000000000000000000000) = .ok .nop ∧
    decode midDecode (.cmd32 0b00000000000000000000000000000001) = .ok .enc ∧
    decode midDecode (.cmd32 0b00000000000000000000000000000010) = .ok .dec ∧
    decode midDecode (.cmd32 0b00000000000000000000000000000011) = .ok .cmp ∧
    decode midDecode (.cmd32 0b00000000000000000000000000000100) = .ok .dcmp := by decide

/-- Reserved command words (R98): `OP` 5 to 7, or a bit of [31:3] set (V6: bit 3 set with `OP` reading 1). -/
theorem test_decode_reserved :
    decode midDecode (.cmd32 0b00000000000000000000000000000101) = .ok (.cmdReserved 5) ∧
    decode midDecode (.cmd32 0b00000000000000000000000000000111) = .ok (.cmdReserved 7) ∧
    decode midDecode (.cmd32 0b00000000000000000000000000001001) = .ok (.cmdReserved 9) ∧
    decode midDecode (.cmd32 0b10000000000000000000000000000010) = .ok (.cmdReserved 0x80000002) := by decide

/-- BEAT (R99, 20_memory.md R72): bit 8 is `in_end`, bits 7 to 0 `in_data`; the row by `MODE` and `ERR`
(40_commands.md R135). -/
theorem test_decode_beats :
    decode { midDecode with mode := .enc } (.beat 0b001000001) = .ok (.encIn 0x41) ∧
    decode { midDecode with mode := .enc } (.beat 0b100000000) = .ok .encEnd ∧
    decode midDecode (.beat 0b000000111) = .ok (.decIn 0x07) ∧
    decode midDecode (.beat 0b111111111) = .ok .decEnd ∧
    decode { midDecode with mode := .cmp } (.beat 0b000001010) = .ok (.cmpIn 0x0A) ∧
    decode { midDecode with mode := .cmp } (.beat 0b100000000) = .ok .cmpEnd ∧
    decode { midDecode with mode := .dcmp } (.beat 0b000000010) = .ok (.dcmpIn 0x02) ∧
    decode { midDecode with mode := .dcmp } (.beat 0b100000000) = .ok .dcmpEnd := by decide

/-- After a fault every beat drains (R133, R135 row 1); while idle no beat has a step (R131). -/
theorem test_decode_drain_and_idle :
    decode { midDecode with err := .dictionaryUnderflow } (.beat 0b001000010) = .ok (.drainIn 0x42) ∧
    decode { midDecode with mode := .dcmp, err := .dictionaryUnderflow } (.beat 0b100000000) = .ok .drainEnd ∧
    decode { midDecode with mode := .idle } (.beat 0b001000001) = .error .beatWhileIdle := by decide

/-- CODE16 (R90, R91) with `NEXT = 258`: 65, 255 | 256, 257 | 258 | 259, 65535. -/
theorem test_decode_codes :
    decode midDecode (.code16 0b0000000001000001) = .ok (.lit 0x41) ∧
    decode midDecode (.code16 0b0000000011111111) = .ok (.lit 0xFF) ∧
    decode midDecode (.code16 0b0000000100000000) = .ok (.ref 0x0100) ∧
    decode midDecode (.code16 0b0000000100000001) = .ok (.ref 0x0101) ∧
    decode midDecode (.code16 0b0000000100000010) = .ok (.kwk 0x0102) ∧
    decode midDecode (.code16 0b0000000100000011) = .ok (.bad 0x0103) ∧
    decode midDecode (.code16 0b1111111111111111) = .ok (.bad 0xFFFF) := by decide

/-- With `NEXT = 65536`, which 16 bits cannot hold, the last code is `REF` (R91). -/
theorem test_decode_full_dictionary :
    decode { midDecode with next := 65536#17 } (.code16 0xFFFF) = .ok (.ref 0xFFFF) := by decide

/-- HDR64 (R94): rows in bits 63 to 32, columns in bits 31 to 0. -/
theorem test_decode_header : decode midDecode (.hdr64 0x0000000200000003) = .ok (.hdr 2 3) := by decide

/-- REG: `RD` and `WR`; a write at 0x00 is a command; a misaligned offset is no event (93 I14). -/
theorem test_decode_registers :
    decode midDecode (.regRead 0b00100100) = .ok (.rd 0x24) ∧
    decode midDecode (.regWrite 0b0000100000000000000000000000000000000010) = .ok (.wr 0x08 2) ∧
    decode midDecode (.regWrite 0b0000000000000000000000000000000000000001) = .ok .enc ∧
    decode midDecode (.regRead 0b00000110) = .error (.misaligned 0x06) := by decide

/-- The bytes of a header and of a code, most significant first (V22, R90). -/
theorem test_byte_order : hdrBytes 2 3 = [0, 0, 0, 2, 0, 0, 0, 3] ∧ codeBytes 0x0102 = [0x01, 0x02] := by decide

/-- The opcode table's words, right after reset (`NEXT = 256`). -/
theorem test_table_words :
    decodeTableWord 32 3 = some .cmp ∧ decodeTableWord 32 9 = some (.cmdReserved 9) ∧
    decodeTableWord 16 0x0041 = some (.lit 0x41) ∧ decodeTableWord 16 0x0100 = some (.kwk 0x0100) ∧
    decodeTableWord 16 0x0101 = some (.bad 0x0101) ∧
    decodeTableWord 64 0x0000000200000003 = some (.hdr 2 3) ∧ decodeTableWord 8 0x20 = some (.rd 0x20) ∧
    decodeTableWord 40 0x0C00000009 = some (.wr 0x0C 9) := by decide

/-! ## One step of each row -/

/-- A field of the next state, where there is one. -/
def after {α : Type} (r : Result) (f : State → α) : Option α :=
  match r with
  | .next t => some (f t)
  | .fault _ => none
  | .refused _ => none

/-- An operation in progress as START leaves it (40_commands.md R123), or idle as after reset. -/
def fresh (m : Mode) : State := { State.reset with mode := m, op := m }

/-- V1 after the second symbol: `W = 0x0041`, `256=(0x0041,0x41)`, `ICNT = 2`, `OCNT = 2`. -/
def encoding : State :=
  { fresh .enc with
    w := 0x0041, wv := true, next := 257#17, dict := [(256, ⟨0x0041, 0x41⟩)], icnt := 2, ocnt := 2 }

/-- V15 after the second code: `W = 0x0042`, `256=(0x0041,0x42)`, `ICNT = 4`, `OCNT = 2`. -/
def decoding : State :=
  { fresh .dec with
    w := 0x0042, wv := true, next := 257#17, dict := [(256, ⟨0x0041, 0x42⟩)], icnt := 4, ocnt := 2 }

/-- V27 after the fault. -/
def faulted : State :=
  { fresh .dec with w := 0x0041, wv := true, icnt := 4, ocnt := 1, err := .dictionaryUnderflow, errinfo := 0x105 }

/-- `NOP` does not clear `DONE` (V7). -/
theorem test_nop : after (exec .nop { State.reset with op := .enc, done := true }) statusWord = some 0x00000102 := by
  decide

/-- `ENC` (R124): STATUS 0x00000101. -/
theorem test_enc : after (exec .enc { State.reset with done := true, z := true, op := .dec }) statusWord =
    some 0x00000101 := by decide

/-- `ENC` while busy is ignored (V7, R130). -/
theorem test_enc_busy : after (exec .enc decoding) (fun t => (statusWord t, t.next, t.ocnt)) =
    some (0x00000201, 257#17, 2) := by decide

/-- `DEC` (R125): STATUS 0x00000201, the old dictionary gone (P1 row 12). -/
theorem test_dec : after (exec .dec { encoding with mode := .idle }) (fun t => (statusWord t, t.next, t.wv, t.ocnt)) =
    some (0x00000201, 256#17, false, 0) := by decide

/-- `CMP` (V22): the header leaves, `OCNT` stays 0. -/
theorem test_cmp : after (exec .cmp { State.reset with rows := 2, cols := 3 }) (fun t => (outBytes t.outs, t.ocnt)) =
    some ([0, 0, 0, 2, 0, 0, 0, 3], 0) := by decide

/-- `DCMP` (R127): STATUS 0x00000401. -/
theorem test_dcmp : after (exec .dcmp State.reset) statusWord = some 0x00000401 := by decide

/-- `CMD.RESERVED` (V6). -/
theorem test_cmdReserved : after (exec (.cmdReserved 9) State.reset) statusWord = some 0 := by decide

/-- `ENC.IN`, no match (V1, second symbol): `OUT 00 41`, `256=(0x0041,0x41)`. -/
theorem test_encIn_insert :
    after (exec (.encIn 0x41) { fresh .enc with w := 0x0041, wv := true, icnt := 1 })
      (fun t => (outBytes t.outs, t.dict, t.next, t.w)) =
    some ([0x00, 0x41], [(256, ⟨0x0041, 0x41⟩)], 257#17, 0x0041) := by decide

/-- `ENC.IN`, match (V1, third symbol): `W = 0x0100`, nothing leaves. -/
theorem test_encIn_match : after (exec (.encIn 0x41) encoding) (fun t => (t.w, t.next, t.icnt, t.outs)) =
    some (0x0100, 257#17, 3, []) := by decide

/-- `ENC.END`, flush (V2): `OUT 00 07`, STATUS 0x00000102. -/
theorem test_encEnd_flush :
    after (exec .encEnd { fresh .enc with w := 0x0007, wv := true, icnt := 1 })
      (fun t => (t.outs, t.ocnt, statusWord t)) =
    some ([.out 0x00, .out 0x07, .outEnd .none], 2, 0x00000102) := by decide

/-- `ENC.END`, empty input (V4): STATUS 0x00000122. -/
theorem test_encEnd_empty : after (exec .encEnd (fresh .enc)) (fun t => (t.outs, statusWord t)) =
    some ([.outEnd .none], 0x00000122) := by decide

/-- `DEC.IN`, high byte (V2). -/
theorem test_decIn_high : after (exec (.decIn 0x00) (fresh .dec)) (fun t => (t.hb, t.hbv, t.icnt, t.outs)) =
    some (0x00, true, 1, []) := by decide

/-- `DEC.IN`, low byte (V15, the code 0x0100): `41 42`, `257=(0x0042,0x41)`. -/
theorem test_decIn_low :
    after (exec (.decIn 0x00) { decoding with hb := 0x01, hbv := true, icnt := 5 })
      (fun t => (outBytes t.outs, t.dict, t.icnt)) =
    some ([0x41, 0x42], [(256, ⟨0x0041, 0x42⟩), (257, ⟨0x0042, 0x41⟩)], 6) := by decide

/-- `DEC.END`, odd length (V19): `OUTEND 1`, STATUS 0x00000206. -/
theorem test_decEnd_odd :
    after (exec .decEnd { fresh .dec with w := 0x0041, wv := true, hb := 0x01, hbv := true, icnt := 3, ocnt := 1 })
      (fun t => (t.outs, statusWord t)) = some ([.outEnd .malformedStream], 0x00000206) := by decide

/-- `DEC.END`, empty stream (V4): STATUS 0x00000222. -/
theorem test_decEnd_empty : after (exec .decEnd (fresh .dec)) statusWord = some 0x00000222 := by decide

/-- `CMP.IN` (R191's example): the second sample gives `OUT 00 05`. -/
theorem test_cmpIn :
    after (exec (.cmpIn 0x06) { fresh .cmp with rows := 1, cols := 2, w := 0x0005, wv := true, icnt := 1 })
      (fun t => outBytes t.outs) = some [0x00, 0x05] := by decide

/-- `CMP.END`, wrong count (V26): `OUTEND 5`, no flush, STATUS 0x00000316. -/
theorem test_cmpEnd_mismatch :
    after (exec .cmpEnd { fresh .cmp with rows := 2, cols := 2, w := 0x0003, wv := true, icnt := 3, ocnt := 4 })
      (fun t => (t.outs, t.ocnt, statusWord t)) = some ([.outEnd .gridMismatch], 4, 0x00000316) := by decide

/-- `CMP.END` (V22): `OUT 01 01`, STATUS 0x00000302. -/
theorem test_cmpEnd_flush :
    after (exec .cmpEnd { fresh .cmp with rows := 2, cols := 3, w := 0x0101, wv := true, icnt := 6, ocnt := 4 })
      (fun t => (t.outs, statusWord t)) =
    some ([.out 0x01, .out 0x01, .outEnd .none], 0x00000302) := by decide

/-- `DCMP.IN`, the eighth header byte (V24): `ROWS = 2`, `COLS = 3`, `ICNT` stays 0. -/
theorem test_dcmpIn_header :
    after (exec (.dcmpIn 0x03) { fresh .dcmp with rows := 9, cols := 9, hcnt := 7, hdr := 0x0000000002000000 })
      (fun t => (t.rows, t.cols, t.hcnt, t.icnt)) = some (2, 3, 8#4, 0) := by decide

/-- `DCMP.IN`, payload (R195's example): `CODE 0x0009` gives `OUT 09`. -/
theorem test_dcmpIn_payload :
    after (exec (.dcmpIn 0x09) { fresh .dcmp with hcnt := 8, hb := 0x00, hbv := true, icnt := 1 })
      (fun t => (outBytes t.outs, t.icnt, t.ocnt)) = some ([0x09], 2, 1) := by decide

/-- `DCMP.END`, case (c) (V25, `HDR 1, 1`): `OUTEND 1`, STATUS 0x00000426. -/
theorem test_dcmpEnd_empty : after (exec .dcmpEnd { fresh .dcmp with hcnt := 8, rows := 1, cols := 1 })
    (fun t => (t.outs, statusWord t)) = some ([.outEnd .malformedStream], 0x00000426) := by decide

/-- `DCMP.END`, case (d) (V25, `HDR 2, 2` with 3 samples): `OUTEND 3`, STATUS 0x0000040E. -/
theorem test_dcmpEnd_size :
    after (exec .dcmpEnd { fresh .dcmp with hcnt := 8, rows := 2, cols := 2, icnt := 4, ocnt := 3, wv := true })
      (fun t => (t.outs, statusWord t)) = some ([.outEnd .sizeMismatch], 0x0000040E) := by decide

/-- `DRAIN.IN` (V27): nothing changes. -/
theorem test_drainIn : after (exec (.drainIn 0x42) faulted) id = some faulted := by decide

/-- `DRAIN.END` (V27): `OUTEND 2`, STATUS 0x0000020A. -/
theorem test_drainEnd : after (exec .drainEnd faulted) (fun t => (t.outs, statusWord t)) =
    some ([.outEnd .dictionaryUnderflow], 0x0000020A) := by decide

/-- `LIT`, first code (V15): `OUT 41`, `NEXT` stays 256. -/
theorem test_lit_first : after (exec (.lit 0x41) { fresh .dec with icnt := 2 }) (fun t => (outBytes t.outs, t.w, t.next)) =
    some ([0x41], 0x0041, 256#17) := by decide

/-- `LIT`, later code (V15): `OUT 42`, `256=(0x0041,0x42)`. -/
theorem test_lit_later :
    after (exec (.lit 0x42) { fresh .dec with w := 0x0041, wv := true, ocnt := 1 })
      (fun t => (outBytes t.outs, t.dict, t.w, t.ocnt)) =
    some ([0x42], [(256, ⟨0x0041, 0x42⟩)], 0x0042, 2) := by decide

/-- `REF` (V15): `OUT 41 42`. -/
theorem test_ref : after (exec (.ref 0x0100) decoding) (fun t => (outBytes t.outs, t.w, t.next)) =
    some ([0x41, 0x42], 0x0100, 258#17) := by decide

/-- `KWK` (V18, fifth row): `(B) ‖ B`. -/
theorem test_kwk : after (exec (.kwk 0x0101) decoding) (fun t => (outBytes t.outs, t.ocnt, t.next)) =
    some ([0x42, 0x42], 4, 258#17) := by decide

/-- `KWK` as first code (V18, first row): `ERR = 2`, `ERRINFO = 0x100`. -/
theorem test_kwk_first : after (exec (.kwk 0x0100) { fresh .dec with icnt := 2 }) (fun t => (t.err, t.errinfo, t.outs)) =
    some (.dictionaryUnderflow, 0x100, []) := by decide

/-- `BAD` (V18, fourth row): `k = NEXT + 1`. -/
theorem test_bad : after (exec (.bad 0x0102) decoding) (fun t => (t.err, t.errinfo, t.outs, t.next, t.w)) =
    some (.dictionaryUnderflow, 0x102, [], 257#17, 0x0042) := by decide

/-- `HDR` (V24). -/
theorem test_hdr : after (exec (.hdr 2 3) { fresh .dcmp with rows := 9, cols := 9 })
    (fun t => (t.rows, t.cols, t.hcnt, t.icnt)) = some (2, 3, 8#4, 0) := by decide

/-- `RD` (V5): `NEXTCODE` after reset. -/
theorem test_rd : after (exec (.rd 0x20) State.reset) (fun t => t.reads) = some [0x00000100] := by decide

/-- `RD` (P2 row 13): the halves of `OCNT`. -/
theorem test_rd_counter : regWord { State.reset with ocnt := 0x500000006 } 0x18 = 6 ∧
    regWord { State.reset with ocnt := 0x500000006 } 0x1C = 5 := by decide

/-- `WR` (V6): `ROWS` idle. -/
theorem test_wr : after (exec (.wr 0x08 0xFFFFFFFF) State.reset) (fun t => (t.rows, t.cols)) =
    some (0xFFFFFFFF, 0) := by decide

/-- `WR` while busy (V7): ignored. -/
theorem test_wr_busy : after (exec (.wr 0x08 9) { fresh .enc with rows := 2 }) (fun t => t.rows) = some 2 := by decide

/-! ## One step of the machine -/

/-- Reset during an operation (V28): no end beat, the registers at their reset values, the bytes already
emitted stay emitted. -/
theorem test_step_reset :
    after (step { fresh .cmp with rows := 1, cols := 2, icnt := 2, ocnt := 2, outs := [.out 0, .out 5]
                                  pending := [.reset, .endMark] })
      (fun t => (statusWord t, t.rows, t.outs, t.pending)) =
    some (0, 0, [.out 0, .out 5], [.endMark]) := by decide

/-- A beat presented while idle waits (V29) ... -/
theorem test_step_idle_waits : after (step { State.reset with pending := [.inByte 0x41] }) (fun t => t.pending) =
    some [.inByte 0x41] := by decide

/-- ... and is the first input of the operation a START begins. -/
theorem test_step_start_then_beat :
    after (step { State.reset with pending := [.inByte 0x41, .regWrite 0x00 1] })
      (fun t => (t.mode, t.pending)) = some (.enc, [.inByte 0x41]) := by decide

/-- The word the host places is the next instruction, right after reset. -/
theorem test_withFetchWord :
    step (State.reset.withFetchWord 32 1) = exec .enc State.reset ∧
    step (State.reset.withFetchWord 8 0x20) = exec (.rd 0x20) State.reset ∧
    step (State.reset.withFetchWord 40 0x0800000002) = exec (.wr 0x08 2) State.reset := ⟨rfl, rfl, rfl⟩

/-- A code word placed by the host runs as the code: `LIT 0x41` as a first code emits `41`. -/
theorem test_withFetchWord_code :
    after (step (State.reset.withFetchWord 16 0x0041)) (fun t => (outBytes t.outs, t.w)) = some ([0x41], 0x0041) ∧
    after (step (State.reset.withFetchWord 64 0x0000000200000003)) (fun t => (t.rows, t.cols)) = some (2, 3) := by
  decide

/-! ## What the host computes -/

/-- The ratio of V22 is 6/6, of V23 4/8; with `Z = 1` it is `DivideByZero` (V26). -/
theorem test_ratio :
    compressionRatio { State.reset with op := .cmp, done := true, rows := 2, cols := 2, ocnt := 8 } = .ratio (1 / 2) ∧
    compressionRatio { State.reset with op := .cmp, done := true, rows := 0, cols := 5, z := true } =
      .error .divideByZero := by
  constructor
  · simp [compressionRatio, State.reset, gridSize]
    norm_num
  · rfl

/-- V23: sample (row 1, column 0) of a 2-column grid is symbol 2. -/
theorem test_row_major : sampleIndex 2 1 0 = 2 := by decide

/-! ## Witnesses: states and operands that meet each statement's hypotheses, clause by clause

`filled m n w` is an operation `m` with `n` dynamic entries (from none to a full dictionary), `W = w`. -/

/-- `n` entries from code `lo` on, each the one before it with the symbol 0 appended. -/
def entriesFrom (lo : Nat) : Nat → Memory
  | 0 => []
  | n + 1 => (lo, ⟨BitVec.ofNat 16 (lo - 1), 0⟩) :: entriesFrom (lo + 1) n

theorem entriesFrom_sorted : ∀ n lo, lo + n ≤ 65536 → Memory.sortedFrom lo (entriesFrom lo n) = true := by
  intro n
  induction n with
  | zero => intro lo _; rfl
  | succ n ih =>
    intro lo h
    rw [entriesFrom, Memory.sortedFrom_cons]
    exact ⟨Nat.le_refl _, by omega, ih _ (by omega)⟩

theorem entriesFrom_get : ∀ n lo k, lo ≤ k → k < lo + n →
    (entriesFrom lo n).get k = some ⟨BitVec.ofNat 16 (k - 1), 0⟩ := by
  intro n
  induction n with
  | zero => intro lo k h1 h2; omega
  | succ n ih =>
    intro lo k h1 h2
    rw [entriesFrom, Memory.get_cons]
    split
    · subst_vars; rfl
    · exact ih _ _ (by omega) (by omega)

/-- An operation in progress with `n` dynamic entries. -/
def filled (m : Mode) (n : Nat) (w : Code) : State :=
  { fresh m with
    next := BitVec.ofNat 17 (256 + n), dict := entriesFrom 256 n, w := w, wv := true
    hcnt := if m = .dcmp then 8#4 else 0#4 }

theorem filled_next {m : Mode} {n : Nat} (w : Code) (hn : n ≤ 65280) : (filled m n w).next.toNat = 256 + n := by
  show (BitVec.ofNat 17 (256 + n)).toNat = _
  rw [BitVec.toNat_ofNat]
  omega

theorem filled_get {m : Mode} {n : Nat} (w : Code) {k : Nat} (h1 : 256 ≤ k) (h2 : k < 256 + n) :
    (filled m n w).dict.get k = some ⟨BitVec.ofNat 16 (k - 1), 0⟩ := entriesFrom_get n 256 k h1 h2

theorem filled_inv {m : Mode} {n : Nat} {w : Code} (hn : n ≤ 65280) (hw : w.toNat < 256 + n) :
    (filled m n w).Inv where
  memForm := entriesFrom_sorted n 256 (by omega)
  nextLow := by rw [filled_next w hn]; omega
  nextHigh := by rw [filled_next w hn]; omega
  entries := fun k h1 h2 => by
    rw [filled_next w hn] at h2
    exact ⟨_, filled_get w h1 h2, by rw [BitVec.toNat_ofNat]; omega⟩
  working := fun _ => by rw [filled_next w hn]; exact hw
  firstCode := fun _ h => by cases h
  headerCount := by simp only [filled]; split <;> decide
  headerOwner := fun h => by
    by_cases hd : m = .dcmp
    · exact .inl hd
    · exact absurd (by simp [filled, hd]) h
  halfOwner := fun h => by cases h
  opMode := fun _ => rfl
  doneIdle := fun h => by cases h
  infoOnly := fun _ => rfl
  unique := fun _ j k e h1 h2 h3 h4 hj hk => by
    rw [filled_next w hn] at h2 h4
    rw [filled_get w h1 h2] at hj
    rw [filled_get w h3 h4, ← hj] at hk
    have := congrArg (fun x => x.map fun y => y.pre.toNat) hk
    simp only [Option.map_some, BitVec.toNat_ofNat, Option.some.injEq] at this
    omega

/-- A state with no dynamic entry is well-formed. -/
theorem fresh_inv (m : Mode) : (fresh m).Inv where
  memForm := rfl
  nextLow := by show 256 ≤ 256; omega
  nextHigh := by show 256 ≤ 65536; omega
  entries := fun k h1 h2 => by exfalso; change k < 256 at h2; omega
  working := fun h => by cases h
  firstCode := fun _ _ => rfl
  headerCount := by show 0 ≤ 8; omega
  headerOwner := fun h => absurd rfl h
  halfOwner := fun h => by cases h
  opMode := fun _ => rfl
  doneIdle := fun h => by cases h
  infoOnly := fun _ => rfl
  unique := fun _ j k e h1 h2 => by exfalso; change j < 256 at h2; omega

theorem witness_DecodeOfEncodeIsIdentity :
    ((Instr.cmdReserved 5).wellFormed = true ∧ (Instr.cmdReserved 0xFFFFFFFF).wellFormed = true) ∧
    ((Instr.ref 256).wellFormed = true ∧ (Instr.ref 256).admitted { midDecode with next := 257#17 } = true) ∧
    ((Instr.ref 65535).wellFormed = true ∧ (Instr.ref 65535).admitted { midDecode with next := 65536#17 } = true) ∧
    ((Instr.kwk 65535).wellFormed = true ∧ (Instr.kwk 65535).admitted { midDecode with next := 65535#17 } = true) ∧
    ((Instr.bad 257).wellFormed = true ∧ (Instr.bad 257).admitted { midDecode with next := 256#17 } = true) ∧
    ((Instr.drainIn 255).wellFormed = true ∧ (Instr.drainIn 255).admitted { midDecode with err := .sizeMismatch } = true) ∧
    ((Instr.wr 0xFC 0).wellFormed = true ∧ (Instr.wr 0xFC 0).admitted resetCtx = true) := by decide

theorem witness_DecodedIsWellFormedAndCanonical :
    256 ≤ midDecode.next.toNat ∧ decode midDecode (.beat 0b011111111) = .ok (.decIn 0xFF) ∧
    decode midDecode (.regWrite 0x0400000000) = .ok (.wr 0x04 0) ∧ (2 ^ 32 ≤ (0x0400000000 : BitVec 40).toNat) := by
  decide

theorem witness_CodeClassesPartition :
    256 ≤ (256#17).toNat ∧ (256#17).toNat ≤ 65536 ∧ 256 ≤ (65536#17).toNat ∧ (65536#17).toNat ≤ 65536 ∧
    classify 256#17 255 = .lit ∧ classify 256#17 256 = .kwk ∧ classify 256#17 257 = .bad ∧
    classify 65536#17 65535 = .ref := by decide

theorem witness_StepRunsTheDecodedInstruction :
    (let s : State := { State.reset with pending := [.inByte 1, .endMark] ++ .regRead 0x04 :: [.inByte 2] }
     (∀ b ∈ [Event.inByte 1, .endMark], isBeat b = true) ∧ s.mode = .idle ∧ isBeat (.regRead 0x04) = false ∧
     (Event.regRead 0x04).encoding = some (.regRead 0x04) ∧ decode s.ctx (.regRead 0x04) = .ok (.rd 0x04)) ∧
    (let s : State := { fresh .enc with pending := [] ++ .inByte 0x41 :: [.endMark] }
     s.mode ≠ .idle ∧ (Event.inByte 0x41).encoding = some (encodeInByte 0x41) ∧
     decode s.ctx (encodeInByte 0x41) = .ok (.encIn 0x41)) := by decide

theorem witness_BeatsWaitWhileIdle :
    (let s : State := { State.reset with pending := [.inByte 0x41, .endMark] }
     s.mode = .idle ∧ ∀ b ∈ s.pending, isBeat b = true) ∧
    (let s : State := { State.reset with pending := [.inByte 0x41] ++ startEvent .dcmp :: [] }
     s.mode = .idle ∧ Mode.dcmp ≠ .idle ∧ ∀ b ∈ [Event.inByte 0x41], isBeat b = true) ∧
    ({ fresh .cmp with pending := [.endMark] } : State).Inv ∧ (fresh .cmp).mode ≠ .idle ∧ isBeat .endMark = true :=
  ⟨by decide, by decide, { fresh_inv .cmp with }, by decide, rfl⟩

theorem witness_ResetEventGivesResetState :
    (let s : State := { State.reset with pending := [.endMark] ++ .reset :: [.regRead 0] }
     (∀ b ∈ [Event.endMark], isBeat b = true) ∧ s.mode = .idle) ∧
    (let s : State := { fresh .dec with pending := [] ++ .reset :: [] }
     s.mode ≠ .idle) := by decide

theorem witness_StepKeepsWellFormed :
    ({ filled .enc 3 65 with pending := [.inByte 0x41] } : State).Inv ∧
    ∃ t, step { filled .enc 3 65 with pending := [.inByte 0x41] } = .next t :=
  ⟨{ filled_inv (m := .enc) (n := 3) (w := 65) (by decide) (by decide) with }, _, rfl⟩

theorem witness_StepNeverStops :
    ({ filled .dec 65280 65535 with pending := [.inByte 1, .regWrite 0xFC 0] } : State).Inv ∧
    ({ filled .dec 65280 65535 with pending := [.inByte 1, .regWrite 0xFC 0] } : State).hostOk :=
  ⟨{ filled_inv (m := .dec) (n := 65280) (w := 65535) (by decide) (by decide) with }, by
    intro e he
    change e ∈ [Event.inByte 1, .regWrite 0xFC 0] at he
    simp only [List.mem_cons, List.not_mem_nil, or_false] at he
    rcases he with rfl | rfl <;> decide⟩

/-- Each row's condition met, and each not met at a boundary. -/
theorem witness_RowsRunUnderTheirCondition_refused :
    (isBeatRow .decEnd = true ∧ Instr.decEnd.admitted (fresh .enc).ctx = false) ∧
    (isBeatRow (.drainIn 0) = true ∧ (Instr.drainIn 0).admitted (fresh .enc).ctx = false) ∧
    (let s : State := { fresh .dcmp with hcnt := 7 }
     s.mode ≠ .dec ∧ ¬ (s.mode = .dcmp ∧ s.hcnt = 8#4)) ∧ faulted.err ≠ .none ∧
    8 ≤ ({ fresh .dcmp with hcnt := 8 } : State).hcnt.toNat ∧ (fresh .idle).mode ≠ .dcmp ∧ (4 : Word).toNat < 5 := by
  decide

theorem witness_RowsRunUnderTheirCondition :
    (isBeatRow (.encIn 0) = true ∧ (Instr.encIn 0).admitted (fresh .enc).ctx = true ∧ (fresh .enc).Inv) ∧
    (isBeatRow .encEnd = true ∧ Instr.encEnd.admitted (fresh .enc).ctx = true) ∧
    (isBeatRow (.decIn 0) = true ∧ (Instr.decIn 0).admitted (fresh .dec).ctx = true ∧ (fresh .dec).Inv) ∧
    (isBeatRow .decEnd = true ∧ Instr.decEnd.admitted (fresh .dec).ctx = true) ∧
    (isBeatRow (.cmpIn 0) = true ∧ (Instr.cmpIn 0).admitted (fresh .cmp).ctx = true ∧ (fresh .cmp).Inv) ∧
    (isBeatRow .cmpEnd = true ∧ Instr.cmpEnd.admitted (fresh .cmp).ctx = true) ∧
    (isBeatRow (.dcmpIn 0) = true ∧ (Instr.dcmpIn 0).admitted (fresh .dcmp).ctx = true ∧ (fresh .dcmp).Inv) ∧
    (isBeatRow .dcmpEnd = true ∧ Instr.dcmpEnd.admitted (fresh .dcmp).ctx = true) ∧
    (let s : State := { fresh .cmp with err := .gridMismatch }
     isBeatRow (.drainIn 0) = true ∧ (Instr.drainIn 0).admitted s.ctx = true ∧
     isBeatRow .drainEnd = true ∧ Instr.drainEnd.admitted s.ctx = true ∧ s.Inv) :=
  ⟨⟨rfl, by decide, fresh_inv _⟩, by decide, ⟨rfl, by decide, fresh_inv _⟩, by decide,
   ⟨rfl, by decide, fresh_inv _⟩, by decide, ⟨rfl, by decide, fresh_inv _⟩, by decide,
   rfl, by decide, rfl, by decide, { fresh_inv .cmp with infoOnly := fun _ => rfl }⟩

theorem witness_StartCommands : State.reset.mode = .idle := rfl

theorem witness_NopAndReservedCommandsIgnored :
    5 ≤ (5 : Word).toNat ∧ (5 : Word).toNat % 8 = 5 ∧ (6 : Word).toNat % 8 = 6 ∧
    (0xFFFFFFFF : Word).toNat % 8 = 7 ∧ (8 : Word).toNat / 8 ≠ 0 := by decide

theorem witness_CommandsIgnoredWhileBusy :
    (fresh .dcmp).mode ≠ .idle ∧ ∃ t, exec .dcmpEnd (fresh .dcmp) = .next t ∧ t.mode ≠ (fresh .dcmp).mode :=
  ⟨by decide, _, rfl, by decide⟩

theorem witness_ModeMachine :
    (∃ t, exec .dcmp State.reset = .next t) ∧ (∃ t, exec .drainEnd faulted = .next t) ∧
    ∃ t, exec (.encIn 0x41) encoding = .next t := ⟨⟨_, rfl⟩, ⟨_, rfl⟩, ⟨_, rfl⟩⟩

/-- Every offset the map names, and the reserved ones at both ends of their range. -/
theorem witness_RegisterReadReturnsTheMap :
    (∀ off ∈ ([0x00, 0x04, 0x08, 0x0C, 0x10, 0x14, 0x18, 0x1C, 0x20, 0x24] : List (BitVec 8)), off.toNat % 4 = 0) ∧
    ((0x28 : BitVec 8).toNat % 4 = 0 ∧ 0x28 ≤ (0x28 : BitVec 8).toNat) ∧
    ((0xFC : BitVec 8).toNat % 4 = 0 ∧ 0x28 ≤ (0xFC : BitVec 8).toNat) := by decide

theorem witness_RegisterWrites :
    State.reset.mode = .idle ∧ (fresh .enc).mode ≠ .idle ∧
    ((0x04 : BitVec 8).toNat % 4 = 0 ∧ (0x04 : BitVec 8) ≠ 0x00 ∧ (0x04 : BitVec 8) ≠ 0x08 ∧ (0x04 : BitVec 8) ≠ 0x0C) ∧
    ((0xFC : BitVec 8).toNat % 4 = 0 ∧ (0xFC : BitVec 8) ≠ 0x00 ∧ (0xFC : BitVec 8) ≠ 0x08 ∧ (0xFC : BitVec 8) ≠ 0x0C) := by
  decide

theorem witness_MisalignedAccessRefused :
    (0x01 : BitVec 8).toNat % 4 ≠ 0 ∧ (0xFF : BitVec 8).toNat % 4 ≠ 0 ∧
    ({ fresh .dec with pending := .regRead 0x01 :: [] } : State).pending = .regRead 0x01 :: [] ∧
    ({ State.reset with pending := .regWrite 0xFF 0 :: [] } : State).pending = .regWrite 0xFF 0 :: [] := by decide

theorem witness_DimensionsChangeOnlyAsStated :
    after (exec (.wr 0x0C 5) State.reset) (fun t => t.cols) = some 5 ∧
    after (exec (.dcmpIn 1) { fresh .dcmp with hcnt := 7 }) (fun t => t.cols) = some 1 ∧
    after (exec (.hdr 2 3) (fresh .dcmp)) (fun t => t.rows) = some 2 := by decide

theorem witness_EncoderFirstSymbol :
    ((fresh .enc).err = .none ∧ (fresh .enc).wv = false ∧ (fresh .enc).mode = .enc) ∧
    ((fresh .cmp).err = .none ∧ (fresh .cmp).wv = false ∧ (fresh .cmp).mode = .cmp) := by decide

/-- The last of 65280 entries holds `(65534, 0)`. -/
theorem witness_EncoderExtendsMatch : ∀ m, m = Mode.enc ∨ m = .cmp →
    (filled m 65280 65534).Inv ∧ (filled m 65280 65534).err = .none ∧ (filled m 65280 65534).wv = true ∧
    256 ≤ (65535 : Code).toNat ∧ (65535 : Code).toNat < (filled m 65280 65534).next.toNat ∧
    (filled m 65280 65534).dict.get (65535 : Code).toNat = some ⟨(filled m 65280 65534).w, 0⟩ ∧
    (filled m 65280 65534).mode = m := by
  intro m _
  refine ⟨filled_inv (by decide) (by decide), rfl, rfl, by decide, ?_, ?_, rfl⟩
  · rw [filled_next _ (by decide)]; decide
  · rw [filled_get _ (by decide) (by decide)]; rfl

/-- No entry of `filled` ends in the symbol 1. -/
theorem filled_no_one {m : Mode} {n : Nat} (w : Code) (hn : n ≤ 65280) : ∀ k, 256 ≤ k →
    k < (filled m n w).next.toNat → (filled m n w).dict.get k ≠ some ⟨w, 1⟩ := by
  intro k h1 h2 h
  rw [filled_next w hn] at h2
  rw [filled_get w h1 h2] at h
  have := congrArg (fun x => x.map fun y => y.suf) h
  simp at this

theorem witness_EncoderInsertsEntry : ∀ m, m = Mode.enc ∨ m = .cmp →
    (filled m 65279 65534).Inv ∧ (filled m 65279 65534).err = .none ∧ (filled m 65279 65534).wv = true ∧
    (filled m 65279 65534).next.toNat < 65536 ∧
    (∀ k, 256 ≤ k → k < (filled m 65279 65534).next.toNat →
      (filled m 65279 65534).dict.get k ≠ some ⟨(filled m 65279 65534).w, 1⟩) ∧ (filled m 65279 65534).mode = m := by
  intro m _
  refine ⟨filled_inv (by decide) (by decide), rfl, rfl, ?_,
    filled_no_one _ (by decide), rfl⟩
  rw [filled_next _ (by decide)]; decide

theorem witness_EncoderFrozenWhenFull : ∀ m, m = Mode.enc ∨ m = .cmp →
    (filled m 65280 65535).Inv ∧ (filled m 65280 65535).err = .none ∧ (filled m 65280 65535).wv = true ∧
    (filled m 65280 65535).next.toNat = 65536 ∧
    (∀ k, 256 ≤ k → k < 65536 → (filled m 65280 65535).dict.get k ≠ some ⟨(filled m 65280 65535).w, 1⟩) ∧
    (filled m 65280 65535).mode = m := by
  intro m _
  have hn : (filled m 65280 65535).next.toNat = 65536 := filled_next _ (by decide)
  refine ⟨filled_inv (by decide) (by decide), rfl, rfl, hn, ?_, rfl⟩
  have := filled_no_one (m := m) 65535 (n := 65280) (by decide)
  rw [hn] at this
  exact this

theorem witness_EncoderEnd :
    (encoding.mode = .enc ∧ encoding.err = .none ∧ encoding.wv = true) ∧
    ((fresh .enc).mode = .enc ∧ (fresh .enc).err = .none ∧ (fresh .enc).wv = false ∧ (fresh .enc).EncoderCounts) :=
  ⟨by decide, rfl, rfl, rfl, fun _ _ => ⟨rfl, rfl, by decide, fun _ => rfl, fun h => by cases h⟩, fun h => by cases h⟩

theorem witness_CompressEnd :
    (let s : State := { fresh .cmp with rows := 0xFFFFFFFF, cols := 0xFFFFFFFF, icnt := 1, wv := true }
     s.mode = .cmp ∧ s.err = .none ∧ s.icnt ≠ s.rows.toNat * s.cols.toNat) ∧
    (let s : State := { fresh .cmp with rows := 1, cols := 2, icnt := 2, wv := true }
     s.mode = .cmp ∧ s.err = .none ∧ s.icnt = s.rows.toNat * s.cols.toNat ∧ s.wv = true) ∧
    (let s : State := { fresh .cmp with rows := 0, cols := 5 }
     s.mode = .cmp ∧ s.err = .none ∧ s.icnt = s.rows.toNat * s.cols.toNat ∧ s.wv = false) := by decide

/-- An open payload of a framed decompress. -/
def payload : State := { fresh .dcmp with hcnt := 8 }

theorem witness_DecoderLatchesHighByte :
    ((fresh .dec).err = .none ∧ (fresh .dec).hbv = false ∧ (fresh .dec).mode = .dec) ∧
    (payload.err = .none ∧ payload.hbv = false ∧ payload.mode = .dcmp ∧ payload.hcnt = 8#4) := by decide

theorem witness_DecoderLowByteRunsTheCode :
    (let s : State := { fresh .dec with hbv := true, hb := 1 }
     s.err = .none ∧ s.hbv = true ∧ s.mode = .dec) ∧
    (let s : State := { payload with hbv := true }
     s.err = .none ∧ s.hbv = true ∧ s.mode = .dcmp ∧ s.hcnt = 8#4) := by decide

theorem witness_DecoderFirstLiteral :
    ((fresh .dec).err = .none ∧ (fresh .dec).mode = .dec ∧ (fresh .dec).wv = false) ∧
    (payload.err = .none ∧ payload.mode = .dcmp ∧ payload.hcnt = 8#4 ∧ payload.wv = false) := by decide

theorem witness_DecoderFirstCodeNotLiteral :
    ((fresh .dec).err = .none ∧ (fresh .dec).mode = .dec ∧ (fresh .dec).wv = false) ∧
    (256 ≤ (256 : Code).toNat ∧ (256 : Code).toNat = (fresh .dec).next.toNat) ∧
    (256 ≤ (257 : Code).toNat ∧ (fresh .dec).next.toNat < (257 : Code).toNat) ∧
    (let s : State := { fresh .dec with next := 257#17 }
     s.wv = false ∧ (256 : Code).toNat < s.next.toNat) := by decide

theorem witness_DecoderExistingEntry : ∀ m, m = Mode.dec ∨ m = .dcmp →
    let s := filled m 65279 65534
    s.Inv ∧ s.err = .none ∧ (s.mode = .dec ∨ (s.mode = .dcmp ∧ s.hcnt = 8#4)) ∧ s.wv = true ∧
    s.next.toNat < 65536 ∧ (255 : Code).toNat < s.next.toNat ∧ (255 : Code).toNat < 256 ∧
    (65534 : Code).toNat < s.next.toNat ∧ 256 ≤ (65534 : Code).toNat := by
  intro m hm
  have hn : (filled m 65279 65534).next.toNat = 65535 := filled_next _ (by decide)
  refine ⟨filled_inv (by decide) (by decide), rfl, ?_, rfl, ?_, ?_, by decide, ?_,
    by decide⟩
  · rcases hm with rfl | rfl
    · exact .inl rfl
    · exact .inr ⟨rfl, rfl⟩
  all_goals rw [hn]; decide

theorem witness_DecoderExistingEntryFull : ∀ m, m = Mode.dec ∨ m = .dcmp →
    let s := filled m 65280 0
    s.Inv ∧ s.err = .none ∧ (s.mode = .dec ∨ (s.mode = .dcmp ∧ s.hcnt = 8#4)) ∧ s.wv = true ∧
    s.next.toNat = 65536 ∧ (0 : Code).toNat < 256 ∧ 256 ≤ (65535 : Code).toNat := by
  intro m hm
  refine ⟨filled_inv (by decide) (by decide), rfl, ?_, rfl,
    filled_next _ (by decide), by decide, by decide⟩
  rcases hm with rfl | rfl
  · exact .inl rfl
  · exact .inr ⟨rfl, rfl⟩

/-- The last code that can be `KWK` is 65535. -/
theorem witness_DecoderNotYetDefined :
    let s := filled .dec 65279 65534
    s.Inv ∧ s.err = .none ∧ (s.mode = .dec ∨ (s.mode = .dcmp ∧ s.hcnt = 8#4)) ∧ s.wv = true ∧
    (65535 : Code).toNat = s.next.toNat :=
  ⟨filled_inv (by decide) (by decide), rfl, .inl rfl, rfl, by rw [filled_next _ (by decide)]; decide⟩

theorem witness_DecoderBadCode :
    let s := filled .dcmp 65278 65533
    s.Inv ∧ s.err = .none ∧ (s.mode = .dec ∨ (s.mode = .dcmp ∧ s.hcnt = 8#4)) ∧ s.wv = true ∧
    s.next.toNat < (65535 : Code).toNat :=
  ⟨filled_inv (by decide) (by decide), rfl, .inr ⟨rfl, rfl⟩, rfl, by
    rw [filled_next _ (by decide)]; decide⟩

theorem witness_DecoderEnd :
    (let s : State := { fresh .dec with hbv := true }
     s.mode = .dec ∧ s.err = .none ∧ s.hbv = true) ∧
    (let s : State := { fresh .dec with icnt := 2, ocnt := 1, wv := true, w := 7 }
     s.mode = .dec ∧ s.err = .none ∧ s.hbv = false ∧ s.DecoderCounts ∧ 0 < s.icnt) ∧
    ((fresh .dec).mode = .dec ∧ (fresh .dec).err = .none ∧ (fresh .dec).hbv = false ∧ (fresh .dec).DecoderCounts ∧
      (fresh .dec).icnt = 0) :=
  ⟨by decide,
   ⟨rfl, rfl, rfl, ⟨fun _ _ => ⟨by decide, by decide, rfl, Nat.le_refl _, fun h => by cases h⟩, fun h => by cases h⟩,
    by decide⟩,
   rfl, rfl, rfl, ⟨fun _ _ => ⟨by decide, by decide, rfl, Nat.le_refl _, fun _ => rfl⟩, fun h => by cases h⟩, rfl⟩

theorem witness_HeaderBytes :
    (fresh .dcmp).mode = .dcmp ∧ (fresh .dcmp).err = .none ∧ (fresh .dcmp).hcnt.toNat = 0 ∧
    (0 < (1#4).toNat ∧ (1#4).toNat < 7) ∧ (0 < (6#4).toNat ∧ (6#4).toNat < 7) ∧
    ({ fresh .dcmp with hcnt := 7 } : State).hcnt.toNat = 7 := by decide

theorem witness_HeaderWordIsItsEightBytes :
    (let s : State := { fresh .dcmp with hcnt := 7 }
     s.mode = .dcmp ∧ s.err = .none ∧ s.hcnt.toNat < 8) ∧
    (let s : State := { fresh .dcmp with pending := hdrIn 2 3 ++ [.endMark] }
     s.mode = .dcmp ∧ s.err = .none ∧ s.hcnt = 0 ∧ s.pending = hdrIn 2 3 ++ [.endMark]) := by decide

theorem witness_DecompressEnd :
    (let s : State := { fresh .dcmp with hcnt := 7 }
     s.mode = .dcmp ∧ s.err = .none ∧ s.hcnt.toNat < 8) ∧
    (let s : State := { payload with hbv := true }
     s.mode = .dcmp ∧ s.err = .none ∧ 8 ≤ s.hcnt.toNat ∧ s.hbv = true) ∧
    (let s : State := { payload with rows := 1, cols := 1 }
     8 ≤ s.hcnt.toNat ∧ s.hbv = false ∧ s.icnt = 0 ∧ 0 < s.rows.toNat * s.cols.toNat) ∧
    (let s : State := { payload with icnt := 2, ocnt := 1 }
     8 ≤ s.hcnt.toNat ∧ s.hbv = false ∧ (s.icnt ≠ 0 ∨ s.rows.toNat * s.cols.toNat = 0) ∧
     s.ocnt ≠ s.rows.toNat * s.cols.toNat) ∧
    (let s : State := { payload with cols := 5 }
     8 ≤ s.hcnt.toNat ∧ s.hbv = false ∧ (s.icnt ≠ 0 ∨ s.rows.toNat * s.cols.toNat = 0) ∧
     s.ocnt = s.rows.toNat * s.cols.toNat) := by decide

theorem witness_DrainAfterFault : faulted.mode ≠ .idle ∧ faulted.err ≠ .none := by decide

theorem witness_LatchedFaultStays :
    (faulted.mode ≠ .idle ∧ faulted.err ≠ .none ∧ ∃ t, exec (.drainIn 0) faulted = .next t) ∧
    (let s : State := { faulted with mode := .idle, done := true }
     s.err ≠ .none ∧ (∃ t, exec .enc s = .next t) ∧ ∃ t, exec (.wr 0x08 1) s = .next t) :=
  ⟨⟨by decide, by decide, _, rfl⟩, by decide, ⟨_, rfl⟩, _, rfl⟩

theorem witness_ErrorsPerOperation :
    let s : State := { filled .dec 2 65 with hbv := true, hb := 9, pending := [.inByte 9] }
    s.Inv ∧ errorOf s.op s.err = true ∧ ∃ t, step s = .next t ∧ t.err = .dictionaryUnderflow :=
  ⟨{ filled_inv (m := .dec) (n := 2) (w := 65) (by decide) (by decide) with
      halfOwner := fun _ => .inl rfl }, rfl, _, rfl, rfl⟩

theorem witness_SequencesOfPresentCodes :
    (filled .enc 65280 0).Inv ∧ (0 : Code).toNat < (filled .enc 65280 0).next.toNat ∧ (0 : Code).toNat < 256 ∧
    (65535 : Code).toNat < (filled .enc 65280 0).next.toNat ∧ 256 ≤ (65535 : Code).toNat := by
  have hn : (filled .enc 65280 0).next.toNat = 65536 := filled_next _ (by decide)
  refine ⟨filled_inv (by decide) (by decide), ?_, by decide, ?_, by decide⟩ <;> rw [hn] <;> decide

theorem witness_AbsentEntriesCannotBeRead :
    (256 ≤ (256 : Code).toNat ∧ (fresh .enc).next.toNat ≤ (256 : Code).toNat) ∧
    (let s : State := { encoding with mode := .idle }
     startsOperation .dec = true ∧ s.mode = .idle ∧ ∃ t, exec .dec s = .next t ∧ t.dict ≠ []) :=
  ⟨by decide, rfl, rfl, _, rfl, by decide⟩

theorem witness_DictionaryIsAppendOnly :
    (∃ t, exec (.encIn 0x42) encoding = .next t ∧ t.dict ≠ encoding.dict) ∧
    ∃ t, exec .dec { encoding with mode := .idle } = .next t ∧ t.next ≠ encoding.next :=
  ⟨⟨_, rfl, by decide⟩, _, rfl, by decide⟩

theorem witness_DictionaryReadAfterWrite :
    (257 : Nat) ≠ 256 ∧ Memory.wf encoding.dict = true ∧ 256 ≤ 65535 ∧ 65535 < 65536 ∧
    ∀ x, Memory.get encoding.dict x = Memory.get encoding.dict x := ⟨by decide, rfl, by decide, by decide, fun _ => rfl⟩

theorem witness_MatchAnswersTheLeastCode : (filled .cmp 2 0).Inv :=
  filled_inv (by decide) (by decide)

theorem witness_MatchIsSequenceMembership :
    let s := filled .cmp 2 0
    s.Inv ∧ (s.mode = .enc ∨ s.mode = .cmp) ∧ (256 : Code).toNat < s.next.toNat ∧
    (257 : Code).toNat < s.next.toNat ∧ seqOf s 256 = .ok [0xFF, 0x00] :=
  ⟨filled_inv (by decide) (by decide), .inr rfl, by decide, by decide, rfl⟩

theorem witness_AppendIsVisibleAtOnce :
    let s := filled .enc 1 65
    s.Inv ∧ s.mode = .enc ∧ s.err = .none ∧ s.wv = true ∧ s.next.toNat < 65536 ∧
    matchEntry s.dict s.next.toNat s.w 0x42 = none ∧ seqOf s s.w = .ok [65] ∧
    ∃ t, exec (.encIn 0x42) s = .next t :=
  ⟨filled_inv (by decide) (by decide), rfl, rfl, rfl, by decide, rfl, rfl, _, rfl⟩

theorem witness_OutputsAreAppended :
    ((filled .cmp 1 65).Inv ∧ ∃ t, exec (.cmpIn 0x42) (filled .cmp 1 65) = .next t ∧ t.outs ≠ []) ∧
    ((fresh .idle).Inv ∧ ∃ t, exec .cmp (fresh .idle) = .next t ∧ t.outs.length = 8) ∧
    ((fresh .dec).Inv ∧ ∃ t, exec .decEnd (fresh .dec) = .next t ∧ t.outs = [.outEnd .none]) :=
  ⟨⟨filled_inv (by decide) (by decide), _, rfl, by decide⟩, ⟨fresh_inv _, _, rfl, rfl⟩,
    fresh_inv _, _, rfl, rfl⟩

theorem witness_EncoderRefinesSource :
    ((fresh .idle).Inv ∧ (fresh .idle).mode = .idle) ∧
    (let s : State := { fresh .idle with rows := 1, cols := 2 }
     s.Inv ∧ s.mode = .idle ∧ ([5, 6] : List Sym).length = s.rows.toNat * s.cols.toNat ∧
     ([5] : List Sym).length ≠ s.rows.toNat * s.cols.toNat) :=
  ⟨⟨fresh_inv _, rfl⟩, { fresh_inv .idle with }, rfl, by decide, by decide⟩

/-- One code list the source decodes and one it refuses (V18). -/
theorem witness_DecoderRefinesSource :
    ((fresh .idle).Inv ∧ (fresh .idle).mode = .idle) ∧
    Source.decode [0x0041] = .ok [0x41] ∧ Source.decode [0x0100] = .error 0x0100 :=
  ⟨⟨fresh_inv _, rfl⟩, by decide, by decide⟩

/-- R196's four ends: `HDR 1, 1` with `CODE 0x0009` (R195); an empty payload for one sample; one sample
for two declared; an index no dictionary holds. -/
theorem test_source_decompress :
    Source.decompress 1 1 [0x0009] = .ok (.grid [0x09] 1 1) ∧ Source.decompress 1 1 [] = .error .malformedStream ∧
    Source.decompress 1 2 [0x0009] = .error .sizeMismatch ∧
    Source.decompress 1 1 [0x0100] = .error .dictionaryUnderflow := by decide

/-- R237: `DCMP` carries `(ROWS, COLS)`, the other operations the bytes alone, a non-zero code is the error. -/
theorem test_operation_result :
    operationResult { State.reset with op := .dcmp, rows := 1, cols := 2 } [.out 5, .out 6, .outEnd .none] =
      some (.ok (.grid [5, 6] 1 2)) ∧
    operationResult { State.reset with op := .enc, rows := 1, cols := 2 } [.out 0, .out 5, .outEnd .none] =
      some (.ok (.bytes [0, 5])) ∧
    operationResult { State.reset with op := .dcmp } [.out 5, .outEnd .sizeMismatch] = some (.error .sizeMismatch) := by
  decide

theorem witness_RoundTrip : (fresh .idle).Inv ∧ (fresh .idle).mode = .idle := ⟨fresh_inv _, rfl⟩

theorem witness_FramedRoundTrip :
    ({ fresh .idle with rows := 1, cols := 2 } : State).Inv ∧ (fresh .idle).mode = .idle ∧
    ([5, 6] : List Sym).length =
      ({ fresh .idle with rows := 1, cols := 2 } : State).rows.toNat *
      ({ fresh .idle with rows := 1, cols := 2 } : State).cols.toNat :=
  ⟨{ fresh_inv .idle with }, rfl, by decide⟩

theorem witness_NothingElseSurvivesAnOperation :
    Mode.dcmp ≠ .idle ∧ (fresh .idle).Inv ∧ (fresh .idle).mode = .idle ∧ (fresh .idle).rows = 0 ∧ (fresh .idle).cols = 0 :=
  ⟨by decide, fresh_inv _, rfl, rfl, rfl⟩

theorem witness_EncoderCountsInvariant :
    let s : State := { fresh .enc with pending := [.inByte 0x41] }
    s.Inv ∧ s.EncoderCounts ∧ ∃ t, step s = .next t ∧ t.icnt = 1 :=
  ⟨{ fresh_inv .enc with }, ⟨fun _ _ => ⟨rfl, rfl, by decide, fun _ => rfl, fun h => by cases h⟩, fun h => by cases h⟩,
    _, rfl, rfl⟩

theorem witness_DecoderCountsInvariant :
    let s : State := { fresh .dec with pending := [.inByte 0x00] }
    s.Inv ∧ s.DecoderCounts ∧ ∃ t, step s = .next t ∧ t.icnt = 1 :=
  ⟨{ fresh_inv .dec with }, ⟨fun _ _ => ⟨by decide, by decide, rfl, Nat.le_refl _, fun _ => rfl⟩, fun h => by cases h⟩,
    _, rfl, rfl⟩

theorem witness_CompressionRatio :
    (let s : State := { State.reset with op := .cmp, done := true, rows := 1, cols := 2, ocnt := 4 }
     s.op = .cmp ∧ s.done = true ∧ s.err = .none ∧ s.z = false) ∧
    (let s : State := { State.reset with op := .cmp, done := true, z := true }
     s.op = .cmp ∧ s.done = true ∧ s.err = .none ∧ s.z = true) := by decide

theorem witness_RowMajorOrder : 0 < 1 ∧ 4 < 5 ∧ 4 < 1 * 5 := by decide

end Sys2Proof.Tests
end

section
/-! Every step of a well-formed machine: which row a presented event decodes to, that the row answers a next
state, and what the rows keep (the invariant, the events still to be taken). -/

namespace Sys2Proof.Machine

/-! ## Which step is taken -/

/-- The events still to be taken are no part of the well-formedness of a state. -/
theorem State.Inv.withPending {s : State} (hi : s.Inv) (es : List Event) : State.Inv { s with pending := es } :=
  { hi with }

theorem step_wait {s : State} (h : takeEvent s.busy s.pending = none) : step s = .next s := by
  simp only [step, h]

theorem step_taken {s : State} {e : Event} {rest : List Event} (h : takeEvent s.busy s.pending = some (e, rest)) :
    step s = stepEvent e { s with pending := rest } := by
  simp only [step, h]

theorem stepEvent_row {s : State} {e : Event} {x : Encoding} {i : Instr} (hx : e.encoding = some x)
    (hd : decode s.ctx x = .ok i) : stepEvent e s = exec i s := by
  simp only [stepEvent, hx, hd]

/-- The first event that has a step is taken; beats before it stay, and there are none while busy (R131). -/
theorem takeEvent_first {s : State} {waiting rest : List Event} {e : Event}
    (hp : s.pending = waiting ++ e :: rest) (hw : ∀ b ∈ waiting, isBeat b = true)
    (hbusy : s.mode ≠ .idle → waiting = []) (hidle : s.mode = .idle → isBeat e = false) :
    takeEvent s.busy s.pending = some (e, waiting ++ rest) := by
  rw [hp]
  by_cases hm : s.mode = .idle
  · rw [not_busy_iff.mpr hm, takeEvent_idle waiting hw e (hidle hm)]
  · rw [busy_iff.mpr hm, hbusy hm]
    exact takeEvent_busy e rest

/-- Settles O5: the event is taken by R131 and its encoding decodes in a context that taking it leaves alone. -/
theorem stepRunsTheDecodedInstruction : Obligations.StepRunsTheDecodedInstruction := by
  intro s waiting rest e x i hp hw hbusy hidle hx hd
  rw [step_taken (takeEvent_first hp hw hbusy hidle)]
  exact stepEvent_row (s := { s with pending := waiting ++ rest }) hx hd

/-! ## A row whose condition holds answers a next state -/

/-- A payload byte always has a next state: the half code is latched, or the code it completes has one of the
effects R162 to R167 give. -/
theorem parserStep_next {s : State} (hi : s.Inv) (hp : InPayload s) (b : Sym) : ∃ t, parserStep b s = .next t := by
  unfold parserStep
  split
  · rcases runCode_cases (s := { countIn s with hbv := false }) hp hi.chain hi.nextLow hi.working (codeOf s.hb b) with
      ⟨-, -, h⟩ | ⟨-, h⟩ | ⟨-, -, c, l, -, ⟨-, h⟩ | ⟨-, h⟩⟩ | ⟨-, -, c, l, -, h⟩
    all_goals exact ⟨_, h⟩
  · exact ⟨_, rfl⟩

theorem matcherStep_next (c : Sym) (s : State) : ∃ t, matcherStep c s = .next t := by
  rcases matcherStep_cases c s with ⟨-, h⟩ | ⟨-, k, -, h⟩ | ⟨-, -, -, h⟩ | ⟨-, -, -, h⟩
  all_goals exact ⟨_, h⟩

/-- A byte of a framed decompress is a header byte or, past the header, a payload byte (43_frame.md R193, R195). -/
theorem exec_dcmpIn_next {s : State} (hi : s.Inv) (hm : s.mode = .dcmp) (he : s.err = .none) (b : Sym) :
    ∃ t, exec (.dcmpIn b) s = .next t := by
  by_cases hc : s.hcnt.toNat < 8
  · rw [exec_dcmpIn_header hm he hc]
    exact ⟨_, headerStep_next hm he hc b⟩
  · rw [exec_dcmpIn_payload hm he (hi.hcnt_eq hc)]
    exact parserStep_next hi ⟨he, .inr ⟨hm, hi.hcnt_eq hc⟩⟩ b

/-- The condition of a beat row: its mode, and no fault latched. -/
theorem admitted_iff {m n : Mode} {e : ErrCode} :
    (decide (m = n) && decide (e = .none)) = true ↔ m = n ∧ e = .none := by simp

/-- The condition of a drain row: busy, and a fault latched. -/
theorem admitted_drain_iff {m : Mode} {e : ErrCode} :
    (decide (m ≠ .idle) && decide (e ≠ .none)) = true ↔ m ≠ .idle ∧ e ≠ .none := by simp

/-- A beat row answers a next state from every well-formed state in which its condition holds (R135). -/
theorem exec_beat_next {s : State} {i : Instr} (hi : s.Inv) (hb : isBeatRow i = true)
    (ha : i.admitted s.ctx = true) : ∃ t, exec i s = .next t := by
  cases i with
  | encIn c =>
    obtain ⟨hm, he⟩ := admitted_iff.mp ha
    rw [exec_encIn hm he]
    exact matcherStep_next c s
  | cmpIn c =>
    obtain ⟨hm, he⟩ := admitted_iff.mp ha
    rw [exec_cmpIn hm he]
    exact matcherStep_next c s
  | decIn b =>
    obtain ⟨hm, he⟩ := admitted_iff.mp ha
    rw [exec_decIn hm he]
    exact parserStep_next hi ⟨he, .inl hm⟩ b
  | dcmpIn b =>
    obtain ⟨hm, he⟩ := admitted_iff.mp ha
    exact exec_dcmpIn_next hi hm he b
  | drainIn b =>
    obtain ⟨hm, he⟩ := admitted_drain_iff.mp ha
    exact ⟨_, exec_drainIn hm he b⟩
  | encEnd =>
    obtain ⟨hm, he⟩ := admitted_iff.mp ha
    exact ⟨_, exec_encEnd hm he⟩
  | decEnd =>
    obtain ⟨hm, he⟩ := admitted_iff.mp ha
    exact ⟨_, exec_decEnd hm he⟩
  | cmpEnd =>
    obtain ⟨hm, he⟩ := admitted_iff.mp ha
    exact ⟨_, exec_cmpEnd hm he⟩
  | dcmpEnd =>
    obtain ⟨hm, he⟩ := admitted_iff.mp ha
    exact ⟨_, exec_dcmpEnd hm he⟩
  | drainEnd =>
    obtain ⟨hm, he⟩ := admitted_drain_iff.mp ha
    exact ⟨_, exec_drainEnd hm he⟩
  | nop | enc | dec | cmp | dcmp | cmdReserved | lit | ref | kwk | bad | hdr | rd | wr => cases hb

/-- Every command word has a next state, in any state (40_commands.md R128, R129, R130). -/
theorem exec_command_next (v : Word) (s : State) : ∃ t, exec (decodeCmd v) s = .next t := by
  rcases decodeCmd_cases v with ⟨-, h⟩ | ⟨-, h⟩ | ⟨-, h⟩ | ⟨-, h⟩ | ⟨-, h⟩ | ⟨hv, h⟩ <;> rw [h]
  · exact ⟨_, rfl⟩
  · exact ⟨_, rfl⟩
  · exact ⟨_, rfl⟩
  · rw [exec, execCmp]
    split
    all_goals exact ⟨_, rfl⟩
  · exact ⟨_, rfl⟩
  · exact ⟨s, by rw [exec, execCmdReserved, if_pos (by simpa [Instr.wellFormed] using hv)]⟩

/-! ## Every presented event decodes to such a row -/

/-- While busy a beat decodes to a beat row whose condition holds (R135). -/
theorem decode_beat_row {c : Ctx} {e : Event} (hm : c.mode ≠ .idle) (he : isBeat e = true) :
    ∃ x i, e.encoding = some x ∧ decode c x = .ok i ∧ isBeatRow i = true ∧ i.admitted c = true := by
  obtain ⟨m, err, next⟩ := c
  cases e with
  | inByte b =>
    simp only [Event.encoding, Option.some.injEq, exists_and_left, exists_eq_left', decode_inByte]
    cases m <;> by_cases h : err = .none <;> simp_all [decodeInByte, isBeatRow, Instr.admitted]
  | endMark =>
    simp only [Event.encoding, Option.some.injEq, exists_and_left, exists_eq_left', decode_endMark]
    cases m <;> by_cases h : err = .none <;> simp_all [decodeEndMark, isBeatRow, Instr.admitted]
  | reset | regWrite | regRead => cases he

/-- A well-formed event that has a step, taken from a well-formed state, has a next state. -/
theorem stepEvent_next {s : State} {e : Event} (hi : s.Inv) (hw : e.wellFormed = true)
    (hb : s.mode = .idle → isBeat e = false) : ∃ t, stepEvent e s = .next t := by
  by_cases he : isBeat e = true
  · have hm : s.mode ≠ .idle := fun hm => by simp [hb hm] at he
    obtain ⟨x, i, hx, hd, hrow, ha⟩ := decode_beat_row (c := s.ctx) hm he
    rw [stepEvent_row hx hd]
    exact exec_beat_next hi hrow ha
  · cases e with
    | reset => exact ⟨_, rfl⟩
    | regRead off =>
      have ha : aligned off = true := hw
      rw [stepEvent_row rfl (i := .rd off) (by simp [decode, decodeRead, ha])]
      exact ⟨_, by rw [exec, execRd, if_pos ha]⟩
    | regWrite off v =>
      have ha : aligned off = true := hw
      by_cases h0 : off = 0#8
      · subst h0
        rw [stepEvent_row rfl (i := decodeCmd v) (by simp [decodeWrite, ha])]
        exact exec_command_next v s
      · rw [stepEvent_row rfl (i := .wr off v) (by simp [decodeWrite, ha, h0])]
        exact ⟨_, by rw [exec, execWr, if_pos ha, if_neg h0]⟩
    | inByte | endMark => exact absurd rfl he

/-! ## What every row keeps -/

theorem flush_pending (s : State) : (flush s).pending = s.pending := by
  unfold flush
  split <;> rfl

theorem runCode_pending {k : Code} {s t : State} (h : runCode k s = .next t) : t.pending = s.pending := by
  rcases runCode_effect h with rfl | ⟨l, n, d, m, rfl, -⟩ <;> rfl

theorem parserStep_pending {b : Sym} {s t : State} (h : parserStep b s = .next t) : t.pending = s.pending := by
  rcases parserStep_effect h with ⟨-, rfl⟩ | ⟨-, h⟩
  · rfl
  · exact runCode_pending (s := { countIn s with hbv := false }) h

theorem matcherStep_pending {c : Sym} {s t : State} (h : matcherStep c s = .next t) : t.pending = s.pending := by
  rcases matcherStep_cases c s with ⟨-, e⟩ | ⟨-, k, -, e⟩ | ⟨-, -, -, e⟩ | ⟨-, -, -, e⟩
  all_goals
    rw [e] at h
    cases h
    rfl

/-- No row takes an event: the step that runs it has taken the one event it stands for. -/
theorem exec_pending {i : Instr} {s t : State} (h : exec i s = .next t) : t.pending = s.pending := by
  cases effect_of_next h with
  | encSymbol _ _ h | cmpSymbol _ _ h => exact matcherStep_pending h
  | decByte _ _ h | dcmpByte _ _ _ h => exact parserStep_pending h
  | code _ _ h => exact runCode_pending h
  | headerByte hm he hc h =>
    rw [headerStep_next hm he hc] at h
    cases h
    split <;> rfl
  | encEnd => exact flush_pending s
  | decEnd | dcmpEnd => rw [endOp_pending]; split <;> rfl
  | cmpEnd =>
    rw [endOp_pending]
    split
    · rfl
    · exact flush_pending s
  | unchanged | read | setRows | setCols | startEnc | startDec | startDcmp | startCmp | header | drainEnd => rfl

/-- A step invents no event: what is pending after it was pending before. -/
theorem step_pending_subset {s t : State} (h : step s = .next t) : ∀ e ∈ t.pending, e ∈ s.pending := by
  rcases step_effect h with ⟨rfl, -⟩ | ⟨e, rest, ht, ⟨-, rfl⟩ | ⟨x, i, -, -, hex⟩⟩
  · exact fun e he => he
  · exact (takeEvent_some ht).2.1
  · rw [exec_pending hex]
    exact (takeEvent_some ht).2.1

/-- Settles O11: the event taken decodes to a row whose condition holds, and such a row answers a next state. -/
theorem stepNeverStops : Obligations.StepNeverStops := by
  intro s hi hok
  have hnext : ∃ t, step s = .next t := by
    cases ht : takeEvent s.busy s.pending with
    | none => exact ⟨s, step_wait ht⟩
    | some p =>
      obtain ⟨e, rest⟩ := p
      obtain ⟨hmem, -, hbeat⟩ := takeEvent_some ht
      rw [step_taken ht]
      exact stepEvent_next (hi.withPending rest) (hok e hmem) fun hm => hbeat (not_busy_iff.mpr hm)
  obtain ⟨t, hst⟩ := hnext
  exact ⟨t, hst, fun e he => hok e (step_pending_subset hst e he)⟩

end Sys2Proof.Machine
end

section
/-! The invariant of 10_state.md R45 along every row and every step: each kind of effect keeps it. -/

namespace Sys2Proof.Machine

/-- The reset state is well-formed (10_state.md R41, R45). -/
theorem inv_reset : State.reset.Inv where
  memForm := rfl
  nextLow := Nat.le_refl 256
  nextHigh := show 256 ≤ 65536 by omega
  entries := fun k h1 h2 => absurd (show k < 256 from h2) (by omega)
  working := fun h => by cases h
  firstCode := fun h => absurd rfl h
  headerCount := Nat.zero_le 8
  headerOwner := fun h => absurd rfl h
  halfOwner := fun h => by cases h
  opMode := fun h => absurd rfl h
  doneIdle := fun _ => rfl
  infoOnly := fun _ => rfl
  unique := fun h => by rcases h with h | h <;> cases h

/-! ## The ends of an operation (40_commands.md R132) -/

/-- The end beat alone keeps the invariant. -/
theorem inv_end {s : State} (hi : s.Inv) (hm : s.mode ≠ .idle) : (endOp s).Inv :=
  { inv_endOp hi hm [] hi.infoOnly s.ocnt (v := s.wv) id with }

/-- An error without information, latched at the end beat. -/
theorem inv_end_raise {s : State} (hi : s.Inv) (hm : s.mode ≠ .idle) (e : ErrCode) :
    (endOp (raiseError e 0 s)).Inv :=
  { inv_endOp hi hm [] (e := e) (info := 0) (fun _ => rfl) s.ocnt (v := s.wv) id with }

/-- The flush before the end beat (41_encode.md R144, R145). -/
theorem inv_end_flush {s : State} (hi : s.Inv) (hm : s.mode ≠ .idle) : (endOp (flush s)).Inv := by
  unfold flush
  split
  · exact inv_endOp hi hm (codeBytes s.w) hi.infoOnly (s.ocnt + 2) (v := false) (fun h => by cases h)
  · exact inv_end hi hm

/-! ## Headers (43_frame.md R193, R194) -/

theorem inv_header {s : State} (hi : s.Inv) (hm : s.mode = .dcmp) (x : BitVec 64) (r c : Word) {n : BitVec 4}
    (hn : n.toNat ≤ 8) : State.Inv { s with hdr := x, hcnt := n, rows := r, cols := c } :=
  { hi with
    headerCount := hn
    headerOwner := fun _ => .inl hm }

theorem inv_headerStep {s t : State} {b : Sym} (hi : s.Inv) (hm : s.mode = .dcmp) (he : s.err = .none)
    (hc : s.hcnt.toNat < 8) (h : headerStep b s = .next t) : t.Inv := by
  rw [headerStep_next hm he hc] at h
  cases h
  split
  · exact inv_header hi hm _ _ _ (n := 8#4) (Nat.le_refl 8)
  · exact inv_header hi hm _ s.rows s.cols (n := s.hcnt + 1#4) (by
      simp only [BitVec.toNat_add, BitVec.toNat_ofNat]
      omega)

/-! ## Every row, every step -/

theorem mode_ne_idle {s : State} {m : Mode} (hm : s.mode = m) (hne : m ≠ .idle) : s.mode ≠ .idle := hm ▸ hne

/-- Every row keeps the invariant. -/
theorem inv_exec {i : Instr} {s t : State} (hi : s.Inv) (h : exec i s = .next t) : t.Inv := by
  cases effect_of_next h with
  | unchanged => exact hi
  | read | setRows | setCols => exact { hi with }
  | startEnc | startDec | startDcmp => exact { inv_startOp hi _ [] with }
  | startCmp => exact inv_startOp hi .cmp _
  | encSymbol hm _ h => exact inv_matcherStep hi (.inl hm) h
  | cmpSymbol hm _ h => exact inv_matcherStep hi (.inr hm) h
  | decByte hm he h => exact inv_parserStep hi ⟨he, .inl hm⟩ h
  | dcmpByte hm he hc h => exact inv_parserStep hi ⟨he, .inr ⟨hm, hi.hcnt_eq hc⟩⟩ h
  | headerByte hm he hc h => exact inv_headerStep hi hm he hc h
  | header hm => exact inv_header hi hm _ _ _ (n := 8#4) (Nat.le_refl 8)
  | code hp _ h => exact inv_runCode hi hp h
  | encEnd hm => exact inv_end_flush hi (mode_ne_idle hm (by decide))
  | decEnd hm =>
    split
    · exact inv_end_raise hi (mode_ne_idle hm (by decide)) _
    · exact inv_end hi (mode_ne_idle hm (by decide))
  | cmpEnd hm =>
    split
    · exact inv_end_raise hi (mode_ne_idle hm (by decide)) _
    · exact inv_end_flush hi (mode_ne_idle hm (by decide))
  | dcmpEnd hm =>
    split
    · exact inv_end hi (mode_ne_idle hm (by decide))
    · exact inv_end_raise hi (mode_ne_idle hm (by decide)) _
  | drainEnd hm => exact inv_end hi hm

/-- The `Reset` event gives a well-formed state, whatever the free values are (70_reset_and_hazards.md R250). -/
theorem inv_resetEvent (s : State) : (resetEvent s).Inv :=
  { inv_reset with working := fun h => by cases h }

/-- Every step keeps the invariant. -/
theorem inv_step {s t : State} (hi : s.Inv) (h : step s = .next t) : t.Inv := by
  rcases step_effect h with ⟨rfl, -⟩ | ⟨e, rest, -, ⟨-, rfl⟩ | ⟨x, i, -, -, hex⟩⟩
  · exact hi
  · exact inv_resetEvent _
  · exact inv_exec (hi.withPending rest) hex

end Sys2Proof.Machine
end

section
/-! Two runs of one operation that differ in what earlier operations left (00_scope.md R5, R6): a relation that
START establishes, every beat keeps, and under which the same beats leave the core. -/

namespace Sys2Proof.Machine

/-! ## The matcher reads present words only -/

/-- What `Match` answers (20_memory.md R63): the least present dynamic code that holds the pair. -/
theorem matchEntry_eq_some {d : Memory} {next : Nat} {w k : Code} {c : Sym} (hd : d.wf = true) :
    matchEntry d next w c = some k ↔ 256 ≤ k.toNat ∧ k.toNat < next ∧ d.get k.toNat = some ⟨w, c⟩ ∧
      ∀ j, 256 ≤ j → j < next → d.get j = some ⟨w, c⟩ → k.toNat ≤ j := by
  refine ⟨matchEntry_some hd, fun ⟨h1, h2, h3, h4⟩ => ?_⟩
  cases hm : matchEntry d next w c with
  | none => exact absurd h3 (matchEntry_none hm k.toNat h1 h2)
  | some j =>
    obtain ⟨g1, g2, g3, g4⟩ := matchEntry_some hd hm
    exact congrArg some (BitVec.eq_of_toNat_eq (Nat.le_antisymm (g4 _ h1 h2 h3) (h4 _ g1 g2 g3)))

/-- `Match` reads no word at or above `NEXT`. -/
theorem matchEntry_congr {d d' : Memory} {next : Nat} (hd : d.wf = true) (hd' : d'.wf = true)
    (h : ∀ k, 256 ≤ k → k < next → d'.get k = d.get k) (w : Code) (c : Sym) :
    matchEntry d' next w c = matchEntry d next w c := by
  refine Option.ext fun k => ?_
  rw [matchEntry_eq_some hd, matchEntry_eq_some hd']
  refine and_congr_right fun h1 => and_congr_right fun h2 => and_congr (by rw [h _ h1 h2]) ?_
  exact forall_congr' fun j => forall_congr' fun h3 => forall_congr' fun h4 => by rw [h j h3 h4]

/-! ## The relation -/

/-- What a running operation can tell apart is equal in both states: `W`, `HB` and `HDR` only count while they hold
something, the dictionary only below `NEXT` (10_state.md R26). `b` and `b'` are what each machine had emitted
before; since then both have emitted the same. -/
structure Agree (b b' : List OutEvent) (s s' : State) : Prop where
  mode : s'.mode = s.mode
  err : s'.err = s.err
  icnt : s'.icnt = s.icnt
  ocnt : s'.ocnt = s.ocnt
  next : s'.next = s.next
  wv : s'.wv = s.wv
  hbv : s'.hbv = s.hbv
  hcnt : s'.hcnt = s.hcnt
  rows : s'.rows = s.rows
  cols : s'.cols = s.cols
  pending : s'.pending = s.pending
  w : s.wv = true → s'.w = s.w
  hb : s.hbv = true → s'.hb = s.hb
  hdr : s.hcnt ≠ 0 → s'.hdr = s.hdr
  words : ∀ k, 256 ≤ k → k < s.next.toNat → s'.dict.get k = s.dict.get k
  outs : ∃ o, s.outs = b ++ o ∧ s'.outs = b' ++ o

/-- Both meanings answer next states, and these agree. -/
def Both (b b' : List OutEvent) (r r' : Result) : Prop :=
  ∃ t t', r = .next t ∧ r' = .next t' ∧ Agree b b' t t'

variable {b b' : List OutEvent} {s s' : State}

theorem Both.next {t t' : State} (h : Agree b b' t t') : Both b b' (.next t) (.next t') := ⟨t, t', rfl, rfl, h⟩

/-! ## What agreeing states have in common -/

theorem Agree.busy (h : Agree b b' s s') : s'.busy = s.busy := by rw [State.busy, State.busy, h.mode]

theorem Agree.ctx (h : Agree b b' s s') : s'.ctx = s.ctx := by
  rw [State.ctx, State.ctx, h.mode, h.err, h.next]

theorem Agree.inPayload (h : Agree b b' s s') (hp : InPayload s) : InPayload s' := by
  rw [InPayload, h.err, h.mode, h.hcnt]
  exact hp

theorem Agree.gridSize (h : Agree b b' s s') : gridSize s' = gridSize s := by
  rw [Machine.gridSize, Machine.gridSize, h.rows, h.cols]

theorem Agree.frameCheck (h : Agree b b' s s') : frameCheck s' = frameCheck s := by
  simp only [Machine.frameCheck, h.hcnt, h.hbv, h.icnt, h.ocnt, h.gridSize]

/-- The header register after one more byte: an empty one is overwritten (43_frame.md R193). -/
theorem Agree.hdrShift (h : Agree b b' s s') (x : Sym) :
    hdrShift s'.hcnt s'.hdr x = hdrShift s.hcnt s.hdr x := by
  rw [Machine.hdrShift, Machine.hdrShift, h.hcnt]
  split
  · rfl
  · rw [h.hdr ‹_›]

/-- Present codes stand for the same sequences. -/
theorem Agree.seqAt (h : Agree b b' s s') (hi : s.Inv) {k : Code} (hk : k.toNat < s.next.toNat) :
    seqAt s'.dict s'.next.toNat k = seqAt s.dict s.next.toNat k := by
  rw [h.next]
  exact hi.chain.seqAt_stable (Nat.le_refl _) h.words hk

theorem Agree.matchEntry (h : Agree b b' s s') (hi : s.Inv) (hi' : s'.Inv) (hv : s.wv = true) (c : Sym) :
    matchEntry s'.dict s'.next.toNat s'.w c = matchEntry s.dict s.next.toNat s.w c := by
  rw [h.next, h.w hv]
  exact matchEntry_congr hi.memForm hi'.memForm h.words s.w c

/-! ## The shared operations keep the agreement -/

theorem Agree.outs_append (h : Agree b b' s s') (l : List OutEvent) :
    ∃ o, s.outs ++ l = b ++ o ∧ s'.outs ++ l = b' ++ o := by
  obtain ⟨o, h1, h2⟩ := h.outs
  exact ⟨o ++ l, by rw [h1, List.append_assoc], by rw [h2, List.append_assoc]⟩

/-- Appending one pair to both dictionaries. -/
theorem Agree.append (h : Agree b b' s s') (hn : s.next.toNat < 65536) (e : Entry) :
    Agree b b' { s with dict := s.dict.set s.next.toNat e, next := s.next + 1#17 }
      { s' with dict := s'.dict.set s'.next.toNat e, next := s'.next + 1#17 } :=
  { h with
    next := congrArg (· + 1#17) h.next
    words := fun k h1 h2 => by
      simp only [next_succ hn] at h2
      simp only [h.next]
      by_cases hk : k = s.next.toNat
      · rw [hk, Memory.get_set_self, Memory.get_set_self]
      · rw [Memory.get_set_of_ne _ _ hk, Memory.get_set_of_ne _ _ hk, h.words k h1 (by omega)] }

/-- Emitting the same bytes and counting them alike. -/
theorem Agree.emit (h : Agree b b' s s') (l : List Sym) (n : Nat) :
    Agree b b' { emitBytes l s with ocnt := s.ocnt + n } { emitBytes l s' with ocnt := s'.ocnt + n } :=
  { h with
    ocnt := congrArg (· + n) h.ocnt
    outs := h.outs_append _ }

/-- The same working code in both. -/
theorem Agree.setW (h : Agree b b' s s') (k : Code) : Agree b b' { s with w := k } { s' with w := k } :=
  { h with w := fun _ => rfl }

theorem Agree.firstW (h : Agree b b' s s') (k : Code) :
    Agree b b' { s with w := k, wv := true } { s' with w := k, wv := true } :=
  { h with w := fun _ => rfl, wv := rfl }

theorem Agree.countIn (h : Agree b b' s s') : Agree b b' (countIn s) (countIn s') :=
  { h with icnt := congrArg (· + 1) h.icnt }

theorem Agree.emitCode (h : Agree b b' s s') (k : Code) : Agree b b' (emitCode k s) (emitCode k s') :=
  h.emit (codeBytes k) 2

theorem Agree.raiseError (h : Agree b b' s s') (e : ErrCode) (info : Word) :
    Agree b b' (raiseError e info s) (raiseError e info s') :=
  { h with err := rfl }

theorem Agree.flush (h : Agree b b' s s') : Agree b b' (flush s) (flush s') := by
  rw [Machine.flush, Machine.flush, h.wv]
  split
  · rw [h.w ‹_›]
    exact { h.emitCode s.w with wv := rfl, w := fun hv => by cases hv }
  · exact h

theorem Agree.endOp (h : Agree b b' s s') : Agree b b' (endOp s) (endOp s') :=
  { h with
    mode := rfl
    outs := by
      rw [endOp_outs, endOp_outs, h.err]
      exact h.outs_append _ }

/-- START makes any two states with equal `ROWS` and `COLS` agree (40_commands.md R123): `NEXT` is 256 and `WV`,
`HBV` and `HCNT` are 0, so nothing of what is left over counts. -/
theorem agree_startOp (m : Mode) (hr : s'.rows = s.rows) (hc : s'.cols = s.cols) (hp : s'.pending = s.pending)
    (l : List Sym) :
    Agree s.outs s'.outs (emitBytes l (startOp m s)) (emitBytes l (startOp m s')) where
  mode := rfl
  err := rfl
  icnt := rfl
  ocnt := rfl
  next := rfl
  wv := rfl
  hbv := rfl
  hcnt := rfl
  rows := hr
  cols := hc
  pending := hp
  w := fun h => by cases h
  hb := fun h => by cases h
  hdr := fun h => absurd rfl h
  words := fun k h1 h2 => absurd (show k < 256 from h2) (by omega)
  outs := ⟨l.map .out, rfl, rfl⟩

/-! ## Symbols and codes -/

/-- One symbol of the matcher (41_encode.md R140 to R143). -/
theorem Agree.matcherStep (h : Agree b b' s s') (hi : s.Inv) (hi' : s'.Inv) (c : Sym) :
    Both b b' (matcherStep c s) (matcherStep c s') := by
  rcases matcherStep_cases c s with ⟨h1, h2⟩ | ⟨h1, k, h2, h3⟩ | ⟨h1, h2, h3, h4⟩ | ⟨h1, h2, h3, h4⟩
  · rw [h2, matcherStep_first (h.wv.trans h1)]
    exact .next (h.countIn.firstW _)
  · rw [h3, matcherStep_match (h.wv.trans h1) ((h.matchEntry hi hi' h1 c).trans h2)]
    exact .next (h.countIn.setW k)
  · rw [h4, matcherStep_insert (h.wv.trans h1) ((h.matchEntry hi hi' h1 c).trans h2) (by rwa [h.next]), h.w h1]
    exact .next (((h.countIn.emitCode s.w).append h3 _).setW _)
  · rw [h4, matcherStep_full (h.wv.trans h1) ((h.matchEntry hi hi' h1 c).trans h2) (by rwa [h.next]), h.w h1]
    exact .next ((h.countIn.emitCode s.w).setW _)

/-- A later code with an entry (42_decode.md R164, R165). -/
theorem Agree.existingEntry (h : Agree b b' s s') (hi : s.Inv) (hi' : s'.Inv) (hv : s.wv = true) {k : Code}
    (hk : k.toNat < s.next.toNat) : Both b b' (existingEntry k s) (existingEntry k s') := by
  have hk' : k.toNat < s'.next.toNat := by rwa [h.next]
  by_cases hn : s.next.toNat < 65536
  · obtain ⟨c, l, h1, h2⟩ := existingEntry_room hi.chain hk hn
    obtain ⟨c', l', h1', h2'⟩ := existingEntry_room hi'.chain hk' (by rwa [h.next])
    obtain ⟨rfl, rfl⟩ := List.cons.inj (h1'.symm.trans ((h.seqAt hi hk).trans h1))
    rw [h2, h2', h.w hv]
    exact .next (((h.emit (c' :: l') _).append hn _).setW k)
  · rw [existingEntry_full hi.chain hk hn, existingEntry_full hi'.chain hk' (by rwa [h.next]), h.seqAt hi hk]
    exact .next ((h.emit _ _).setW k)

/-- The code that is not yet defined (R166). -/
theorem Agree.undefinedYet (h : Agree b b' s s') (hi : s.Inv) (hi' : s'.Inv) (hv : s.wv = true) {k : Code}
    (hk : k.toNat = s.next.toNat) : Both b b' (undefinedYet k s) (undefinedYet k s') := by
  have hw := hi.working hv
  have hn : s.next.toNat < 65536 := by have := k.isLt; omega
  obtain ⟨c, l, h1, h2⟩ := undefinedYet_next hi.chain hw hk hi.nextLow
  obtain ⟨c', l', h1', h2'⟩ :=
    undefinedYet_next hi'.chain (hi'.working (h.wv.trans hv)) (by rwa [h.next]) hi'.nextLow
  rw [h.w hv] at h1' h2'
  obtain ⟨rfl, rfl⟩ := List.cons.inj (h1'.symm.trans ((h.seqAt hi hw).trans h1))
  rw [h2, h2']
  exact .next (((h.emit _ _).append hn _).setW k)

/-- A complete code is of one class in both and does the same (30_encoding.md R91, 42_decode.md R162 to R167). -/
theorem Agree.runCode (h : Agree b b' s s') (hi : s.Inv) (hi' : s'.Inv) (hp : InPayload s) (k : Code) :
    Both b b' (runCode k s) (runCode k s') := by
  have hp' := h.inPayload hp
  have raise : Both b b' (.next (raiseUnderflow k s)) (.next (raiseUnderflow k s')) := .next (h.raiseError _ _)
  rw [runCode_eq_exec, runCode_eq_exec, h.next]
  cases hc : classify s.next k <;> simp only [decodeCode, hc]
  case lit =>
    have hk := classify_lit.mp hc
    rw [exec_lit hp hk, exec_lit hp' hk, h.wv]
    split
    · exact h.existingEntry hi hi' ‹_› (Nat.lt_of_lt_of_le hk hi.nextLow)
    · exact .next ((h.emit _ _).firstW _)
  case ref =>
    obtain ⟨h1, h2⟩ := classify_ref.mp hc
    rw [exec_ref hp h1 h2, exec_ref hp' h1 (by rwa [h.next]), h.wv]
    split
    · exact h.existingEntry hi hi' ‹_› h2
    · exact raise
  case kwk =>
    obtain ⟨h1, h2⟩ := classify_kwk.mp hc
    rw [exec_kwk hp h1 h2, exec_kwk hp' h1 (by rwa [h.next]), h.wv]
    split
    · exact h.undefinedYet hi hi' ‹_› h2
    · exact raise
  case bad =>
    obtain ⟨h1, h2⟩ := classify_bad.mp hc
    rw [exec_bad hp h1 h2, exec_bad hp' h1 (by rwa [h.next])]
    exact raise

/-- One payload byte (R160, R161). -/
theorem Agree.parserStep (h : Agree b b' s s') (hi : s.Inv) (hi' : s'.Inv) (hp : InPayload s) (x : Sym) :
    Both b b' (parserStep x s) (parserStep x s') := by
  rw [Machine.parserStep, Machine.parserStep, h.hbv]
  split
  · have h1 : Agree b b' { Machine.countIn s with hbv := false } { Machine.countIn s' with hbv := false } :=
      { h.countIn with hbv := rfl, hb := fun hv => by cases hv }
    rw [h.hb ‹_›]
    exact h1.runCode { hi with halfOwner := fun hv => by cases hv }
      { hi' with halfOwner := fun hv => by cases hv } hp _
  · exact .next { h.countIn with hbv := rfl, hb := fun _ => rfl }

/-- One header byte (43_frame.md R193, R194). -/
theorem Agree.headerStep (h : Agree b b' s s') (hm : s.mode = .dcmp) (he : s.err = .none)
    (hc : s.hcnt.toNat < 8) (x : Sym) : Both b b' (headerStep x s) (headerStep x s') := by
  rw [headerStep_next hm he hc, headerStep_next (h.mode.trans hm) (h.err.trans he) (by rwa [h.hcnt]), h.hdrShift,
    h.hcnt]
  split
  · exact .next { h with hdr := fun _ => rfl, hcnt := rfl, rows := rfl, cols := rfl }
  · exact .next { h with hdr := fun _ => rfl, hcnt := rfl }

/-! ## Beats, steps, runs -/

/-- Every beat row whose condition holds (40_commands.md R135). -/
theorem Agree.exec_beat (h : Agree b b' s s') (hi : s.Inv) (hi' : s'.Inv) {i : Instr} (hrow : isBeatRow i = true)
    (ha : i.admitted s.ctx = true) : Both b b' (exec i s) (exec i s') := by
  have hmode {m : Mode} (hm : s.mode = m) : s'.mode = m := h.mode.trans hm
  have herr {e : ErrCode} (he : s.err = e) : s'.err = e := h.err.trans he
  cases i with
  | encIn c =>
    obtain ⟨hm, he⟩ := admitted_iff.mp ha
    rw [exec_encIn hm he, exec_encIn (hmode hm) (herr he)]
    exact h.matcherStep hi hi' c
  | cmpIn c =>
    obtain ⟨hm, he⟩ := admitted_iff.mp ha
    rw [exec_cmpIn hm he, exec_cmpIn (hmode hm) (herr he)]
    exact h.matcherStep hi hi' c
  | decIn x =>
    obtain ⟨hm, he⟩ := admitted_iff.mp ha
    rw [exec_decIn hm he, exec_decIn (hmode hm) (herr he)]
    exact h.parserStep hi hi' ⟨he, .inl hm⟩ x
  | dcmpIn x =>
    obtain ⟨hm, he⟩ := admitted_iff.mp ha
    by_cases hc : s.hcnt.toNat < 8
    · rw [exec_dcmpIn_header hm he hc, exec_dcmpIn_header (hmode hm) (herr he) (by rwa [h.hcnt])]
      exact h.headerStep hm he hc x
    · have h8 := hi.hcnt_eq hc
      rw [exec_dcmpIn_payload hm he h8, exec_dcmpIn_payload (hmode hm) (herr he) (h.hcnt.trans h8)]
      exact h.parserStep hi hi' ⟨he, .inr ⟨hm, h8⟩⟩ x
  | drainIn x =>
    obtain ⟨hm, he⟩ := admitted_drain_iff.mp ha
    rw [exec_drainIn hm he, exec_drainIn (by rwa [h.mode]) (by rwa [h.err])]
    exact .next h
  | encEnd =>
    obtain ⟨hm, he⟩ := admitted_iff.mp ha
    rw [exec_encEnd hm he, exec_encEnd (hmode hm) (herr he)]
    exact .next h.flush.endOp
  | decEnd =>
    obtain ⟨hm, he⟩ := admitted_iff.mp ha
    rw [exec_decEnd hm he, exec_decEnd (hmode hm) (herr he), h.hbv]
    split
    · exact .next (h.raiseError _ _).endOp
    · exact .next h.endOp
  | cmpEnd =>
    obtain ⟨hm, he⟩ := admitted_iff.mp ha
    rw [exec_cmpEnd hm he, exec_cmpEnd (hmode hm) (herr he), h.icnt, h.gridSize]
    split
    · exact .next (h.raiseError _ _).endOp
    · exact .next h.flush.endOp
  | dcmpEnd =>
    obtain ⟨hm, he⟩ := admitted_iff.mp ha
    rw [exec_dcmpEnd hm he, exec_dcmpEnd (hmode hm) (herr he), h.frameCheck]
    split
    · exact .next h.endOp
    · exact .next (h.raiseError _ _).endOp
  | drainEnd =>
    obtain ⟨hm, he⟩ := admitted_drain_iff.mp ha
    rw [exec_drainEnd hm he, exec_drainEnd (by rwa [h.mode]) (by rwa [h.err])]
    exact .next h.endOp
  | nop | enc | dec | cmp | dcmp | cmdReserved | lit | ref | kwk | bad | hdr | rd | wr => cases hrow

/-- A step with only beats presented: idle, both wait; busy, both take the same beat as the same row. -/
theorem Agree.step (h : Agree b b' s s') (hi : s.Inv) (hi' : s'.Inv) (hbeats : ∀ e ∈ s.pending, isBeat e = true) :
    Both b b' (step s) (step s') := by
  have htake : takeEvent s'.busy s'.pending = takeEvent s.busy s.pending := by rw [h.busy, h.pending]
  cases ht : takeEvent s.busy s.pending with
  | none =>
    rw [step_wait ht, step_wait (htake.trans ht)]
    exact .next h
  | some p =>
    obtain ⟨e, rest⟩ := p
    obtain ⟨hmem, -, hidle⟩ := takeEvent_some ht
    have hm : s.mode ≠ .idle := fun hm => by
      simpa [hbeats e hmem] using hidle (not_busy_iff.mpr hm)
    obtain ⟨x, i, hx, hd, hrow, ha⟩ := decode_beat_row (c := s.ctx) hm (hbeats e hmem)
    have h1 : Agree b b' { s with pending := rest } { s' with pending := rest } := { h with pending := rfl }
    rw [step_taken ht, step_taken (htake.trans ht), stepEvent_row (s := { s with pending := rest }) hx hd,
      stepEvent_row (s := { s' with pending := rest }) hx (h1.ctx ▸ hd)]
    exact h1.exec_beat (hi.withPending rest) (hi'.withPending rest) hrow ha

theorem Agree.stepN (n : Nat) : ∀ {s s' : State}, Agree b b' s s' → s.Inv → s'.Inv →
    (∀ e ∈ s.pending, isBeat e = true) → Both b b' (stepN n s) (stepN n s') := by
  induction n with
  | zero => exact fun h _ _ _ => .next h
  | succ n ih =>
    intro s s' h hi hi' hbeats
    obtain ⟨t, t', h1, h2, ht⟩ := h.step hi hi' hbeats
    rw [stepN_succ h1, stepN_succ h2]
    exact ih ht (inv_step hi h1) (inv_step hi' h2) fun e he => hbeats e (step_pending_subset h1 e he)

/-- What follows the START of an operation is beats. -/
theorem isBeat_input {input : List Sym} {e : Event} (h : e ∈ bytesIn input ++ [.endMark]) : isBeat e = true := by
  rcases List.mem_append.mp h with h | h
  · obtain ⟨x, -, rfl⟩ := List.mem_map.mp h
    rfl
  · obtain rfl := List.mem_singleton.mp h
    rfl

theorem emitBytes_nil (s : State) : emitBytes [] s = s := by simp [emitBytes]

/-- The header a `CMP` emits at its START (40_commands.md R126); the other operations emit nothing there. -/
def startBytes (m : Mode) (s : State) : List Sym := if m = .cmp then hdrBytes s.rows s.cols else []

/-- A START while idle, in one form for all four operations. -/
theorem step_start_emit {m : Mode} {rest : List Event} (hm : s.mode = .idle) (hne : m ≠ .idle) :
    step { s with pending := startEvent m :: rest } =
      .next (emitBytes (startBytes m s) (startOp m { s with pending := rest })) := by
  rw [step_start (s := { s with pending := startEvent m :: rest }) hm hne rfl]
  unfold startBytes
  split
  · subst m
    rfl
  · rw [emitBytes_nil]

/-- Two whole operations over the same input, from well-formed idle states with equal `ROWS` and `COLS`: both
complete and emit the same. -/
theorem runOperation_agree {m : Mode} (hne : m ≠ .idle) (input : List Sym) (hi : s.Inv) (hi' : s'.Inv)
    (hm : s.mode = .idle) (hm' : s'.mode = .idle) (hr : s'.rows = s.rows) (hc : s'.cols = s.cols) :
    Both s.outs s'.outs (runOperation m input s) (runOperation m input s') := by
  have hbytes : startBytes m s' = startBytes m s := by rw [startBytes, startBytes, hr, hc]
  unfold runOperation operationEvents
  rw [stepN_succ (step_start_emit hm hne), stepN_succ (step_start_emit hm' hne), hbytes]
  exact (agree_startOp (s := { s with pending := bytesIn input ++ [.endMark] })
      (s' := { s' with pending := bytesIn input ++ [.endMark] }) m hr hc rfl _).stepN _
    (inv_startOp (hi.withPending _) m _) (inv_startOp (hi'.withPending _) m _) fun e he => isBeat_input he

end Sys2Proof.Machine
end

section
/-! Whole operations beside the same operation from reset. -/

namespace Sys2Proof.Machine

/-- Settles O56: every run is compared with the run from the reset state with the same `ROWS` and `COLS`, whose
outputs are the function of input, `ROWS` and `COLS` that is asked for. -/
theorem nothingElseSurvivesAnOperation : Obligations.NothingElseSurvivesAnOperation := by
  intro m input r c hne
  have hi₀ : State.Inv { State.reset with rows := r, cols := c } := { inv_reset with }
  obtain ⟨t₀, -, h₀, -, -⟩ := runOperation_agree hne input hi₀ hi₀ rfl rfl rfl rfl
  refine ⟨t₀.outs, fun s hi hm hr hc => ?_⟩
  obtain ⟨u, t, hu, ht, hagree⟩ := runOperation_agree hne input hi₀ hi rfl hm hr hc
  obtain ⟨o, ho, ho'⟩ := hagree.outs
  have htu : t₀ = u := Host.Outcome.next.inj (h₀.symm.trans hu)
  refine ⟨t, ht, ?_⟩
  rw [ho', htu, ho]
  rfl

end Sys2Proof.Machine
end

section
/-! What a row emits (00_scope.md R3, 70_reset_and_hazards.md R255): data beats, and one end beat where the
operation ends. -/

namespace Sys2Proof.Machine

/-- From `s` to `t` the instruction `i` has emitted data beats `l` within R255's bounds, then `e`: one end beat that
carries `ERR` when `i` is an end row, and nothing otherwise. -/
def Emits (i : Instr) (s t : State) : Prop :=
  ∃ (l : List Sym) (e : List OutEvent), t.outs = s.outs ++ l.map .out ++ e ∧ l.length ≤ 65281 ∧
    (e = [] ∨ e = [.outEnd t.err]) ∧
    (e = [.outEnd t.err] ↔ endsOperation i = true) ∧
    (s.mode = .enc ∨ s.mode = .cmp → l.length ≤ 2) ∧
    (s.mode = .idle → l.length = 0 ∨ (l.length = 8 ∧ i = .cmp))

section Shapes

variable {i : Instr} {s t : State} {l : List Sym}

theorem emits_data (hi : endsOperation i = false) (ho : t.outs = s.outs ++ l.map .out) (hl : l.length ≤ 65281)
    (hm : s.mode = .enc ∨ s.mode = .cmp → l.length ≤ 2)
    (hidle : s.mode = .idle → l.length = 0 ∨ (l.length = 8 ∧ i = .cmp)) : Emits i s t :=
  ⟨l, [], by rw [ho, List.append_nil], hl, .inl rfl, by simp [hi], hm, hidle⟩

theorem emits_nothing (hi : endsOperation i = false) (ho : t.outs = s.outs) : Emits i s t :=
  emits_data (l := []) hi (by simp [ho]) (Nat.zero_le _) (fun _ => Nat.zero_le _) fun _ => .inl rfl

theorem emits_end {u : State} (hi : endsOperation i = true) (hm : s.mode ≠ .idle)
    (ho : u.outs = s.outs ++ l.map .out) (hl : l.length ≤ 2) : Emits i s (endOp u) :=
  ⟨l, [.outEnd u.err], by rw [endOp_outs, ho], by omega, .inr rfl, by simp [hi], fun _ => hl, fun h => absurd h hm⟩

theorem emits_only_end {u : State} (hi : endsOperation i = true) (hm : s.mode ≠ .idle) (ho : u.outs = s.outs) :
    Emits i s (endOp u) :=
  emits_end (l := []) hi hm (by simp [ho]) (Nat.zero_le _)

end Shapes

/-! ## Data beats of the shared operations -/

theorem hdrBytes_length (r c : Word) : (hdrBytes r c).length = 8 := rfl

/-- A symbol emits at most one code (41_encode.md R142, R143). -/
theorem matcherStep_outs {s t : State} {c : Sym} (h : matcherStep c s = .next t) :
    ∃ l : List Sym, t.outs = s.outs ++ l.map .out ∧ l.length ≤ 2 := by
  rcases matcherStep_cases c s with ⟨-, e⟩ | ⟨-, k, -, e⟩ | ⟨-, -, -, e⟩ | ⟨-, -, -, e⟩
  all_goals
    rw [e] at h
    cases h
  · exact ⟨[], (List.append_nil _).symm, Nat.zero_le _⟩
  · exact ⟨[], (List.append_nil _).symm, Nat.zero_le _⟩
  · exact ⟨codeBytes s.w, rfl, Nat.le_refl 2⟩
  · exact ⟨codeBytes s.w, rfl, Nat.le_refl 2⟩

/-- The flush emits at most one code (R144, R145). -/
theorem flush_outs (s : State) : ∃ l : List Sym, (flush s).outs = s.outs ++ l.map .out ∧ l.length ≤ 2 := by
  unfold flush
  split
  · exact ⟨codeBytes s.w, rfl, Nat.le_refl 2⟩
  · exact ⟨[], (List.append_nil _).symm, Nat.zero_le _⟩

/-- A sequence is no longer than its code allows (10_state.md R27, R29). -/
theorem Chain.seqAt_length_le {d : Memory} {next : Nat} (h : Chain d next) {k : Code} (hk : k.toNat < next) :
    (seqAt d next k).length ≤ max 1 (k.toNat - 254) := by
  obtain ⟨c, l, h1, -, -, hlit, hdyn⟩ := h.sequence (k.toNat + 1) k (by omega) hk
  rw [show seqAt d next k = c :: l by simp [seqAt, h1]]
  by_cases hlo : k.toNat < 256
  · simp [hlit hlo]
  · have := hdyn (by omega)
    rw [List.length_cons]
    omega

/-- A code emits at most the longest sequence (42_decode.md R171, 10_state.md R29): an entry that is not yet
defined is one symbol longer than the entry of `W`, whose code is below `NEXT`. -/
theorem runCode_outs {s t : State} {k : Code} (hi : s.Inv) (hp : InPayload s) (h : runCode k s = .next t) :
    ∃ l : List Sym, t.outs = s.outs ++ l.map .out ∧ l.length ≤ 65281 := by
  have hk := k.isLt
  rcases runCode_cases hp hi.chain hi.nextLow hi.working k with
    ⟨-, -, e⟩ | ⟨-, e⟩ | ⟨-, hlt, c, l, hs, hcase⟩ | ⟨hv, hkn, c, l, hs, e⟩
  · rw [e] at h
    cases h
    exact ⟨[codeLow k], rfl, by simp⟩
  · rw [e] at h
    cases h
    exact ⟨[], (List.append_nil _).symm, Nat.zero_le _⟩
  · have hlen := hi.chain.seqAt_length_le hlt
    rw [hs] at hlen
    refine ⟨c :: l, ?_, by omega⟩
    rcases hcase with ⟨-, e⟩ | ⟨-, e⟩
    all_goals
      rw [e] at h
      cases h
      rfl
  · have hw := hi.working hv
    have hlen := hi.chain.seqAt_length_le hw
    rw [hs] at hlen
    rw [e] at h
    cases h
    refine ⟨c :: l ++ [c], rfl, ?_⟩
    rw [List.length_append, List.length_singleton]
    omega

theorem parserStep_outs {s t : State} {b : Sym} (hi : s.Inv) (hp : InPayload s) (h : parserStep b s = .next t) :
    ∃ l : List Sym, t.outs = s.outs ++ l.map .out ∧ l.length ≤ 65281 := by
  rcases parserStep_effect h with ⟨-, rfl⟩ | ⟨-, h⟩
  · exact ⟨[], (List.append_nil _).symm, Nat.zero_le _⟩
  · exact runCode_outs (s := { countIn s with hbv := false })
      { hi with halfOwner := fun hv => by cases hv } hp h

/-! ## Every row -/

theorem InPayload.not_encoding {s : State} (hp : InPayload s) : ¬ (s.mode = .enc ∨ s.mode = .cmp) := by
  rcases hp.2 with h | ⟨h, -⟩ <;> simp [h]

theorem InPayload.not_idle {s : State} (hp : InPayload s) : s.mode ≠ .idle := by
  rcases hp.2 with h | ⟨h, -⟩ <;> simp [h]

theorem endsOperation_decodeCode (n : BitVec 17) (k : Code) : endsOperation (decodeCode n k) = false := by
  unfold decodeCode
  split <;> rfl

/-- A row that feeds the matcher. -/
theorem emits_symbol {i : Instr} {s t : State} {c : Sym} (hi : endsOperation i = false) (hm : s.mode ≠ .idle)
    (h : matcherStep c s = .next t) : Emits i s t := by
  obtain ⟨l, ho, hl⟩ := matcherStep_outs h
  exact emits_data hi ho (by omega) (fun _ => hl) fun h => absurd h hm

/-- A row that works on an open payload. -/
theorem emits_payload {i : Instr} {s t : State} (hi : endsOperation i = false) (hp : InPayload s)
    (h : ∃ l : List Sym, t.outs = s.outs ++ l.map .out ∧ l.length ≤ 65281) : Emits i s t := by
  obtain ⟨l, ho, hl⟩ := h
  exact emits_data hi ho hl (fun h => absurd h hp.not_encoding) fun h => absurd h hp.not_idle

theorem emits_flush {i : Instr} {s : State} (hi : endsOperation i = true) (hm : s.mode ≠ .idle) :
    Emits i s (endOp (flush s)) := by
  obtain ⟨l, ho, hl⟩ := flush_outs s
  exact emits_end hi hm ho hl

/-- Every row of a well-formed machine emits within the bounds. -/
theorem exec_emits {i : Instr} {s t : State} (hi : s.Inv) (h : exec i s = .next t) : Emits i s t := by
  cases effect_of_next h with
  | unchanged hend => exact emits_nothing hend rfl
  | read | setRows | setCols | startEnc | startDec | startDcmp | header => exact emits_nothing rfl rfl
  | startCmp hm =>
    exact emits_data (l := hdrBytes s.rows s.cols) rfl rfl (by simp [hdrBytes_length]) (fun h => by simp [hm] at h)
      fun _ => .inr ⟨hdrBytes_length _ _, rfl⟩
  | encSymbol hm _ h | cmpSymbol hm _ h => exact emits_symbol rfl (mode_ne_idle hm (by decide)) h
  | decByte hm he h =>
    have hp : InPayload s := ⟨he, .inl hm⟩
    exact emits_payload rfl hp (parserStep_outs hi hp h)
  | dcmpByte hm he hc h =>
    have hp : InPayload s := ⟨he, .inr ⟨hm, hi.hcnt_eq hc⟩⟩
    exact emits_payload rfl hp (parserStep_outs hi hp h)
  | headerByte hm he hc h =>
    rw [headerStep_next hm he hc] at h
    cases h
    exact emits_nothing rfl (by split <;> rfl)
  | code hp hk h => exact emits_payload (hk ▸ endsOperation_decodeCode _ _) hp (runCode_outs hi hp h)
  | encEnd hm => exact emits_flush rfl (mode_ne_idle hm (by decide))
  | decEnd hm | dcmpEnd hm => exact emits_only_end rfl (mode_ne_idle hm (by decide)) (by split <;> rfl)
  | cmpEnd hm =>
    split
    · exact emits_only_end rfl (mode_ne_idle hm (by decide)) rfl
    · exact emits_flush rfl (mode_ne_idle hm (by decide))
  | drainEnd hm => exact emits_only_end rfl hm rfl

/-- Settles O51: the outputs of every row, effect by effect. -/
theorem outputsAreAppended : Obligations.OutputsAreAppended :=
  fun _ _ _ hi h => exec_emits hi h

end Sys2Proof.Machine
end

section
/-! The state, its registers and its dictionary (10_state.md, 20_memory.md): what reset gives, what every row may
do to `ROWS`, `COLS`, the dictionary and `NEXT`, and what the codes of a well-formed state stand for. -/

namespace Sys2Proof.Machine

/-- Settles O10: every kind of effect keeps the invariant. -/
theorem stepKeepsWellFormed : Obligations.StepKeepsWellFormed :=
  fun _ _ hi h => inv_step hi h

/-! ## What every row does to the dimensions and the dictionary (10_state.md R33, 20_memory.md R62) -/

/-- From `s` to `t` the dictionary and `NEXT` are kept, or one entry is appended at `NEXT`. -/
def AppendsAtMostOne (s t : State) : Prop :=
  (t.dict = s.dict ∧ t.next = s.next) ∨
  (s.next.toNat < 65536 ∧ t.next = s.next + 1#17 ∧ ∃ e, t.dict = s.dict.set s.next.toNat e)

/-- What most rows do: `ROWS` and `COLS` are kept, and the dictionary but for one append. -/
structure WorkFrame (s t : State) : Prop where
  rows : t.rows = s.rows
  cols : t.cols = s.cols
  dict : AppendsAtMostOne s t

/-- A row that touches none of `ROWS`, `COLS`, `DICT` and `NEXT`. -/
theorem workFrame_of_eq {s t : State} (hr : t.rows = s.rows) (hc : t.cols = s.cols) (hd : t.dict = s.dict)
    (hn : t.next = s.next) : WorkFrame s t :=
  ⟨hr, hc, .inl ⟨hd, hn⟩⟩

/-- The end of an operation adds nothing to what came before it (40_commands.md R132). -/
theorem WorkFrame.endOp {s u : State} (h : WorkFrame s u) : WorkFrame s (endOp u) :=
  ⟨h.rows, h.cols, h.dict⟩

theorem flush_frame (s : State) : WorkFrame s (flush s) := by
  unfold flush
  split
  all_goals exact workFrame_of_eq rfl rfl rfl rfl

theorem matcherStep_frame {c : Sym} {s t : State} (h : matcherStep c s = .next t) : WorkFrame s t := by
  rcases matcherStep_cases c s with ⟨-, e⟩ | ⟨-, k, -, e⟩ | ⟨-, -, hn, e⟩ | ⟨-, -, -, e⟩
  all_goals
    rw [e] at h
    cases h
  · exact workFrame_of_eq rfl rfl rfl rfl
  · exact workFrame_of_eq rfl rfl rfl rfl
  · exact ⟨rfl, rfl, .inr ⟨hn, rfl, _, rfl⟩⟩
  · exact workFrame_of_eq rfl rfl rfl rfl

theorem runCode_frame {k : Code} {s t : State} (h : runCode k s = .next t) : WorkFrame s t := by
  rcases runCode_effect h with rfl | ⟨l, n, d, m, rfl, hd⟩
  · exact workFrame_of_eq rfl rfl rfl rfl
  · exact ⟨rfl, rfl, hd⟩

theorem parserStep_frame {b : Sym} {s t : State} (h : parserStep b s = .next t) : WorkFrame s t := by
  rcases parserStep_effect h with ⟨-, rfl⟩ | ⟨-, h⟩
  · exact workFrame_of_eq rfl rfl rfl rfl
  · obtain ⟨hr, hc, hd⟩ := runCode_frame h
    exact ⟨hr, hc, hd⟩

/-- The rows that may change `ROWS` and `COLS`: a write of one of them while idle (40_commands.md R121), and in an
error-free `DCMP` the byte or the header that completes a header (43_frame.md R194). -/
def SetsGrid (i : Instr) (s : State) : Prop :=
  (s.mode = .idle ∧ ∃ v, i = .wr 0x08 v ∨ i = .wr 0x0C v) ∨
  (s.mode = .dcmp ∧ s.err = .none ∧ ((∃ b, i = .dcmpIn b ∧ s.hcnt.toNat = 7) ∨ ∃ r c, i = .hdr r c))

/-- A START while idle keeps the RAM's words and takes `NEXT` back to 256 (40_commands.md R123). -/
structure StartsAfresh (i : Instr) (s t : State) : Prop where
  command : startsOperation i = true
  idle : s.mode = .idle
  rows : t.rows = s.rows
  cols : t.cols = s.cols
  dict : t.dict = s.dict
  next : t.next = 256#17

/-- Every row sets a dimension and keeps the dictionary, or starts an operation, or does neither. -/
theorem exec_frame {i : Instr} {s t : State} (h : exec i s = .next t) :
    (SetsGrid i s ∧ t.dict = s.dict ∧ t.next = s.next) ∨ StartsAfresh i s t ∨ WorkFrame s t := by
  cases effect_of_next h with
  | setRows v hm => exact .inl ⟨.inl ⟨hm, v, .inl rfl⟩, rfl, rfl⟩
  | setCols v hm => exact .inl ⟨.inl ⟨hm, v, .inr rfl⟩, rfl, rfl⟩
  | header hm he => exact .inl ⟨.inr ⟨hm, he, .inr ⟨_, _, rfl⟩⟩, rfl, rfl⟩
  | headerByte hm he hc h =>
    rw [headerStep_next hm he hc] at h
    cases h
    split
    · exact .inl ⟨.inr ⟨hm, he, .inl ⟨_, rfl, ‹_›⟩⟩, rfl, rfl⟩
    · exact .inr (.inr (workFrame_of_eq rfl rfl rfl rfl))
  | startEnc hm | startDec hm | startDcmp hm | startCmp hm => exact .inr (.inl ⟨rfl, hm, rfl, rfl, rfl, rfl⟩)
  | encSymbol _ _ h | cmpSymbol _ _ h => exact .inr (.inr (matcherStep_frame h))
  | decByte _ _ h | dcmpByte _ _ _ h => exact .inr (.inr (parserStep_frame h))
  | code _ _ h => exact .inr (.inr (runCode_frame h))
  | encEnd => exact .inr (.inr (flush_frame s).endOp)
  | decEnd | dcmpEnd =>
    refine .inr (.inr (WorkFrame.endOp ?_))
    split
    all_goals exact workFrame_of_eq rfl rfl rfl rfl
  | cmpEnd =>
    refine .inr (.inr (WorkFrame.endOp ?_))
    split
    · exact workFrame_of_eq rfl rfl rfl rfl
    · exact flush_frame s
  | unchanged | read | drainEnd => exact .inr (.inr (workFrame_of_eq rfl rfl rfl rfl))

/-- Settles O21: a row that does not set the dimensions keeps both. -/
theorem dimensionsChangeOnlyAsStated : Obligations.DimensionsChangeOnlyAsStated := by
  intro i s t h hne
  rcases exec_frame h with ⟨hset, -⟩ | ⟨-, -, hr, hc, -, -⟩ | ⟨hr, hc, -⟩
  · exact hset
  all_goals exact absurd hne (by simp [hr, hc])

/-- What a row does to the dictionary: at most one append, or a START while idle. -/
theorem exec_dictionary {i : Instr} {s t : State} (h : exec i s = .next t) :
    AppendsAtMostOne s t ∨ StartsAfresh i s t := by
  rcases exec_frame h with ⟨-, hkeep⟩ | hstart | hwork
  · exact .inl (.inl hkeep)
  · exact .inr hstart
  · exact .inl hwork.dict

/-- Settles O46: the three things a row can do to the dictionary. -/
theorem dictionaryIsAppendOnly : Obligations.DictionaryIsAppendOnly := by
  intro i s t h
  rcases exec_dictionary h with (⟨hd, hn⟩ | ⟨hroom, hn, e, hd⟩) | ⟨hi, hm, -, -, hd, hn⟩
  · exact ⟨fun a _ => by rw [hd], fun hne => absurd hd hne, .inl hn⟩
  · have hsucc : t.next.toNat = s.next.toNat + 1 := by rw [hn, next_succ hroom]
    refine ⟨fun a ha => ?_, fun _ => ⟨hroom, hsucc⟩, .inr (.inl ⟨hroom, hsucc, e, hd⟩)⟩
    rw [hd, Memory.get_set_of_ne _ _ ha]
  · exact ⟨fun a _ => by rw [hd], fun hne => absurd hd hne, .inr (.inr ⟨hi, hm, by rw [hn]; rfl⟩)⟩

/-- Settles O47: the laws of the list. -/
theorem dictionaryReadAfterWrite : Obligations.DictionaryReadAfterWrite :=
  fun m a _ e => ⟨Memory.get_set_self m a e, Memory.get_set_of_ne m e,
    fun hm hlo ha => Memory.wf_set e hlo ha hm, fun n hm hn h => Memory.ext_of_get m n hm hn h⟩

/-! ## Absent entries (10_state.md R26) -/

/-- What is no present dynamic code cannot be read. -/
theorem dictRead_absent (d : Memory) {next : Nat} {k : Code} (h : k.toNat < 256 ∨ next ≤ k.toNat) :
    dictRead d next k = .error (.absentEntry k) := by
  rw [dictRead, if_neg]
  simp only [Config.firstDyn]
  omega

/-- A dynamic code at or above `NEXT` cannot be expanded. -/
theorem seqAux_absent (d : Memory) {next : Nat} (fuel : Nat) {k : Code} (hdyn : 256 ≤ k.toNat)
    (h : next ≤ k.toNat) : seqAux d next (fuel + 1) k = .error (.absentEntry k) := by
  rw [seqAux, if_neg (Nat.not_lt.mpr hdyn), dictRead_absent d (.inr h)]

/-- With no dynamic entry present, `Match` finds none, whatever words the RAM holds. -/
theorem matchEntry_empty (d : Memory) (w : Code) (c : Sym) : matchEntry d 256 w c = none := by
  rw [matchEntry, Option.map_eq_none_iff, List.find?_eq_none]
  intro x _
  simp only [Config.firstDyn, Bool.and_eq_true, decide_eq_true_eq]
  omega

/-- A row that starts an operation from idle leaves `NEXT` at 256 (40_commands.md R123). -/
theorem next_of_start {i : Instr} {s t : State} (hi : startsOperation i = true) (hm : s.mode = .idle)
    (h : exec i s = .next t) : t.next = 256#17 := by
  cases effect_of_next h with
  | startEnc | startDec | startDcmp | startCmp => rfl
  | unchanged _ hs =>
    rw [hs hm] at hi
    cases hi
  | code hp => exact absurd hm hp.not_idle
  | read | setRows | setCols | header | headerByte | encSymbol | cmpSymbol | decByte | dcmpByte | encEnd | decEnd
  | cmpEnd | dcmpEnd | drainEnd => cases hi

/-- Settles O45: reads and expansions at or above `NEXT` fault, and a START leaves `NEXT` at 256. -/
theorem absentEntriesCannotBeRead : Obligations.AbsentEntriesCannotBeRead := by
  refine ⟨fun s k hdyn hk => ⟨dictRead_absent _ (.inr hk), seqAux_absent _ _ hdyn hk⟩, ?_⟩
  intro i s t hi hm h k w c
  have hn : t.next.toNat = 256 := by rw [next_of_start hi hm h]; rfl
  rw [seqOf, hn]
  exact ⟨matchEntry_empty _ w c, fun hdyn => seqAux_absent _ _ hdyn hdyn, fun hlit => seqAux_lit _ _ _ hlit⟩

/-! ## What present codes stand for (10_state.md R24, R25, R27) -/

/-- The sequence of a present code ends, with its first symbol and length. -/
theorem State.Inv.sequence {s : State} (hi : s.Inv) {k : Code} (hk : k.toNat < s.next.toNat) :
    ∃ c l, seqAt s.dict s.next.toNat k = c :: l ∧ seqOf s k = .ok (c :: l) ∧ firstOf s k = .ok c ∧
      lenOf s k = .ok (c :: l).length := by
  obtain ⟨hseq, hlen, c, l, hcl, hfirst⟩ := hi.chain.eval hk
  rw [hcl] at hseq hlen
  exact ⟨c, l, hcl, hseq, hfirst, hlen⟩

/-- Settles O44: by the defining equations of `Seq` along a chain of prefixes that comes down. -/
theorem sequencesOfPresentCodes : Obligations.SequencesOfPresentCodes := by
  intro s k hi hk
  obtain ⟨c, l, hcl, hseq, hfirst, hlen⟩ := hi.sequence hk
  have hbound := hi.chain.seqAt_length_le hk
  rw [hcl] at hbound
  have hk16 := k.isLt
  refine ⟨c, l, hseq, hfirst, hlen, by omega, fun hlit => ?_, fun hdyn => ⟨by omega, ?_⟩⟩
  · rw [← hcl, seqAt_lit _ _ hlit]
    rfl
  · obtain ⟨e, he, hpre⟩ := hi.entries k.toNat hdyn hk
    obtain ⟨c', l', hcl', hseq', hfirst', -⟩ := hi.sequence (k := e.pre) (by omega)
    have heq : c :: l = c' :: l' ++ [e.suf] := by
      rw [← hcl, ← hcl', hi.chain.seqAt_dyn hdyn hk he]
    obtain ⟨rfl, -⟩ := List.cons.inj heq
    exact ⟨e, c :: l', he, hpre, hseq', heq, hfirst'⟩

/-- Settles O49: present codes stand for different sequences, and `Match` finds the code of the extended one. -/
theorem matchIsSequenceMembership : Obligations.MatchIsSequenceMembership := by
  intro s w k c l hi hm hw hk hl
  obtain ⟨c₁, l₁, hw', hseqw, -⟩ := hi.sequence hw
  obtain ⟨c₂, l₂, hk', hseqk, -⟩ := hi.sequence hk
  rw [hl] at hseqw
  rw [hi.chain.match_iff_mem (hi.uniqueIn hm) hi.memForm hw k hk, hk', hw', hseqk, ← Except.ok.inj hseqw,
    Except.ok.injEq]

/-! ## Reset (10_state.md R41, 70_reset_and_hazards.md R250) -/

/-- Settles O7: the event is taken by R131, and its step is `resetEvent`. -/
theorem resetEventGivesResetState : Obligations.ResetEventGivesResetState := by
  intro s waiting rest hp hw hbusy
  rw [step_taken (takeEvent_first hp hw hbusy fun _ => rfl)]
  refine ⟨_, rfl, rfl, rfl, rfl, rfl, rfl, rfl, rfl, rfl, rfl, rfl, rfl, rfl, rfl, rfl, fun k => ?_, rfl, rfl, rfl⟩
  exact dictRead_absent [] (Nat.lt_or_ge k.toNat 256)

/-- Settles O8: the reset column of the register map, read off the reset state. -/
theorem resetStateValues : Obligations.ResetStateValues := by
  unfold Obligations.ResetStateValues
  decide

/-- Settles O9: the invariant holds at reset, and no event is pending there. -/
theorem resetIsWellFormed : Obligations.ResetIsWellFormed :=
  ⟨inv_reset, fun e he => by cases he⟩

/-! ## The `STATUS` word (10_state.md R36) -/

/-- The `STATUS` word as a number: each field at its weight. -/
theorem statusWord_toNat (s : State) :
    (statusWord s).toNat =
      s.op.bits.toNat * 256 + s.z.toNat * 32 + s.err.bits.toNat * 4 + s.done.toNat * 2 + s.busy.toNat := by
  simp only [statusWord, toNat_concat, BitVec.toNat_ofBool, BitVec.toNat_ofNat]
  omega

theorem errBits_eq_zero {e : ErrCode} : e.bits = 0 ↔ e = .none := by
  cases e <;> decide

/-- A bit read off a word's number. -/
theorem getLsbD_of_toNat {n i : Nat} {v : BitVec n} {b : Bool} (h : v.toNat / 2 ^ i % 2 = b.toNat) :
    v.getLsbD i = b := by
  rw [← BitVec.testBit_toNat, Nat.testBit_eq_decide_div_mod_eq, h]
  cases b <;> rfl

/-- A field read off a word's number. -/
theorem extractLsb'_of_toNat {n lo w : Nat} {v : BitVec n} {x : BitVec w}
    (h : v.toNat / 2 ^ lo % 2 ^ w = x.toNat) : v.extractLsb' lo w = x :=
  BitVec.eq_of_toNat_eq (by rw [toNat_field, h])

/-- Settles O18: each field divided out of the word's number. -/
theorem statusWordLayout : Obligations.StatusWordLayout := by
  intro s
  have hword := statusWord_toNat s
  have hop := s.op.bits.isLt
  have herr := s.err.bits.isLt
  have hz := s.z.toNat_le
  have hdone := s.done.toNat_le
  have hbusy := s.busy.toNat_le
  have hdoneBit : (statusWord s).getLsbD 1 = s.done := getLsbD_of_toNat (by omega)
  have herrField : (statusWord s).extractLsb' 2 3 = s.err.bits := extractLsb'_of_toNat (by omega)
  have hbusyBit : (statusWord s).getLsbD 0 = s.busy := getLsbD_of_toNat (by omega)
  have herrO : s.errO = decide (s.err.bits ≠ 0) := decide_eq_decide.mpr (not_congr errBits_eq_zero.symm)
  refine ⟨hbusyBit, hdoneBit, herrField, getLsbD_of_toNat (by omega), extractLsb'_of_toNat ?_,
    extractLsb'_of_toNat (by omega), extractLsb'_of_toNat ?_, hdoneBit.symm, by rw [herrField, herrO]⟩
  · show _ = 0
    omega
  · show _ = 0
    omega

end Sys2Proof.Machine
end

section
/-! What the memory statements turn on (20_memory.md): the words written out from the encodings, the refusal of an
access that is no whole aligned word, what `Match` answers, and that an append is seen at once. -/

namespace Sys2Proof.Machine

/-- Settles O3: each word is decoded. -/
theorem wordsDecodeAsTheSpecSays : Obligations.WordsDecodeAsTheSpecSays := by
  unfold Obligations.WordsDecodeAsTheSpecSays
  decide

/-! ## Misaligned accesses (20_memory.md R65) -/

theorem aligned_eq_false {off : BitVec 8} (h : off.toNat % 4 ≠ 0) : aligned off = false :=
  beq_eq_false_iff_ne.mpr h

theorem decode_regRead_misaligned (c : Ctx) {off : BitVec 8} (h : off.toNat % 4 ≠ 0) :
    decode c (.regRead off) = .error (.misaligned off) := by
  simp [decode, decodeRead, aligned_eq_false h]

theorem decode_regWrite_misaligned (c : Ctx) {off : BitVec 8} (v : Word) (h : off.toNat % 4 ≠ 0) :
    decode c (.regWrite (off ++ v)) = .error (.misaligned off) := by
  simp [decodeWrite, aligned_eq_false h]

/-- An event at the head of the pending events that is no beat and does not decode is refused, busy or idle. -/
theorem step_decodeError {s : State} {e : Event} {rest : List Event} {x : Encoding} {d : DecodeError}
    (hp : s.pending = e :: rest) (he : isBeat e = false) (hx : e.encoding = some x)
    (hd : decode s.ctx x = .error d) : step s = .refused (decodeRefusal d) := by
  have htake : takeEvent s.busy s.pending = some (e, rest) :=
    takeEvent_first (waiting := []) hp (by simp) (fun _ => rfl) (fun _ => he)
  have hd' : decode (State.ctx { s with pending := rest }) x = .error d := hd
  simp only [step_taken htake, stepEvent, hx, hd']

/-- Settles O20: the rows test the offset, and the decoder rejects it before the step reaches a row. -/
theorem misalignedAccessRefused : Obligations.MisalignedAccessRefused := by
  intro s off v rest hoff
  have hal := aligned_eq_false hoff
  refine ⟨by simp [exec, execRd, hal], by simp [exec, execWr, hal], fun hp => ?_, fun hp => ?_⟩
  · exact step_decodeError hp rfl rfl (decode_regRead_misaligned s.ctx hoff)
  · exact step_decodeError hp rfl rfl (decode_regWrite_misaligned s.ctx v hoff)

/-! ## The matcher's answer (20_memory.md R63) -/

/-- `Match` finds nothing exactly when no present dynamic code holds the pair. -/
theorem matchEntry_eq_none {d : Memory} {next : Nat} {w : Code} {c : Sym} (hd : d.wf = true) :
    matchEntry d next w c = none ↔ ∀ j, 256 ≤ j → j < next → d.get j ≠ some ⟨w, c⟩ := by
  refine ⟨matchEntry_none, fun habsent => ?_⟩
  cases hm : matchEntry d next w c with
  | none => rfl
  | some k =>
    obtain ⟨hlo, hlt, hget, -⟩ := matchEntry_some hd hm
    exact absurd hget (habsent k.toNat hlo hlt)

/-- Settles O48: `Match` answers the first word of the canonical list that holds the pair. -/
theorem matchAnswersTheLeastCode : Obligations.MatchAnswersTheLeastCode :=
  fun _ _ _ hi => ⟨fun _ => matchEntry_eq_some hi.memForm, matchEntry_eq_none hi.memForm⟩

/-! ## An append is seen at once (20_memory.md R69, 70_reset_and_hazards.md R253) -/

/-- `NEXT` below the cap is a code. -/
theorem next_setWidth_toNat {n : BitVec 17} (h : n.toNat < 65536) : (n.setWidth 16).toNat = n.toNat := by
  rw [BitVec.toNat_setWidth]
  exact Nat.mod_eq_of_lt h

/-- A pair that `Match` did not find is found under the code it has just been appended at. -/
theorem matchEntry_append {d : Memory} {next : Nat} {w k : Code} {c : Sym} (hd : d.wf = true)
    (hlo : 256 ≤ next) (hk : k.toNat = next) (hm : matchEntry d next w c = none) :
    matchEntry (d.set next ⟨w, c⟩) (next + 1) w c = some k := by
  have hwf : Memory.wf (d.set next ⟨w, c⟩) = true := Memory.wf_set _ hlo (hk ▸ k.isLt) hd
  rw [matchEntry_eq_some hwf, hk]
  refine ⟨hlo, Nat.lt_succ_self next, Memory.get_set_self d next _, fun j hj _ hget => ?_⟩
  by_contra hlt
  rw [Memory.get_set_of_ne d _ (by omega)] at hget
  exact matchEntry_none hm j hj (by omega) hget

/-- An append leaves the sequence of every present code as it is (10_state.md R26). -/
theorem Chain.seqAux_append {d : Memory} {next : Nat} (h : Chain d next) (e : Entry) (fuel : Nat) {k : Code}
    (hk : k.toNat < next) : seqAux (d.set next e) (next + 1) fuel k = seqAux d next fuel k :=
  (h.stable (Nat.le_succ next) (fun _ _ hj => Memory.get_set_of_ne d e (by omega)) fuel k hk).1

/-- Settles O50: the new word is the only one that holds the pair, and the state after is well-formed, so the code
`Match` finds there stands for the extended sequence. -/
theorem appendIsVisibleAtOnce : Obligations.AppendIsVisibleAtOnce := by
  intro s t c l hi hm he hv hroom hnone hl h
  rw [exec_encIn hm he] at h
  have ht : t.Inv := inv_matcherStep hi (.inl hm) h
  rw [matcherStep_insert hv hnone hroom] at h
  cases h
  have hnext : (s.next + 1#17).toNat = s.next.toNat + 1 := next_succ hroom
  have hcode := next_setWidth_toNat hroom
  have hw : s.w.toNat < s.next.toNat := hi.working hv
  have hmatch : matchEntry (s.dict.set s.next.toNat ⟨s.w, c⟩) (s.next + 1#17).toNat s.w c =
      some (s.next.setWidth 16) := by
    rw [hnext]
    exact matchEntry_append hi.memForm hi.nextLow hcode hnone
  refine ⟨hmatch, (matchIsSequenceMembership _ s.w _ c l ht (.inl hm) ?_ ?_ ?_).mp hmatch⟩
  · show s.w.toNat < (s.next + 1#17).toNat
    omega
  · show (s.next.setWidth 16).toNat < (s.next + 1#17).toNat
    omega
  · show seqAux _ (s.next + 1#17).toNat _ s.w = .ok l
    rw [hnext, hi.chain.seqAux_append _ _ hw]
    exact hl

end Sys2Proof.Machine
end

section
/-! The encodings (30_encoding.md): the decoder undoes the encoder on every row, what decodes is a row whose
condition holds, and a header is its eight bytes. -/

namespace Sys2Proof.Machine

/-! ## From a row to its word -/

/-- A beat whose row's condition holds decodes to that row (R99, R135). -/
theorem decode_encode_beat {c : Ctx} {i : Instr} (hi : isBeatRow i = true) (ha : i.admitted c = true) :
    decode c (encode i) = .ok i := by
  obtain ⟨m, e, n⟩ := c
  cases i with
  | encIn b | decIn b | cmpIn b | dcmpIn b =>
    simp only [Instr.admitted, Bool.and_eq_true, decide_eq_true_eq] at ha
    obtain ⟨rfl, rfl⟩ := ha
    exact decode_inByte _ b
  | encEnd | decEnd | cmpEnd | dcmpEnd =>
    simp only [Instr.admitted, Bool.and_eq_true, decide_eq_true_eq] at ha
    obtain ⟨rfl, rfl⟩ := ha
    rfl
  | drainIn b =>
    simp only [Instr.admitted, Bool.and_eq_true, decide_eq_true_eq] at ha
    rw [encode, decode_inByte]
    cases m <;> simp_all [decodeInByte]
  | drainEnd =>
    simp only [Instr.admitted, Bool.and_eq_true, decide_eq_true_eq] at ha
    rw [encode, decode_endMark]
    cases m <;> simp_all [decodeEndMark]
  | _ => cases hi

/-- A literal's code is its symbol behind a zero byte (R91). -/
theorem zero_byte_concat (b : Sym) : 0#8 ++ b = literal b := by
  apply BitVec.eq_of_toNat_eq
  rw [toNat_concat, literal_toNat, BitVec.toNat_ofNat, Nat.zero_mod, Nat.zero_mul, Nat.zero_add]

/-- A literal's code decodes to `LIT` of its symbol (R91). -/
theorem decodeCode_lit (n : BitVec 17) (b : Sym) : decodeCode n (0#8 ++ b) = .lit b := by
  have hk : (literal b).toNat < 256 := by simpa using b.isLt
  simp [decodeCode, zero_byte_concat, classify_lit.mpr hk]

/-- Settles O1: row by row, the fields the encoder writes are the fields the decoder reads. -/
theorem decodeOfEncodeIsIdentity : Obligations.DecodeOfEncodeIsIdentity := by
  intro c i hw ha
  cases i with
  | nop | enc | dec | cmp | dcmp => rfl
  | cmdReserved v => exact congrArg _ (decodeCmd_reserved (of_decide_eq_true hw))
  | encIn | decIn | cmpIn | dcmpIn | drainIn | encEnd | decEnd | cmpEnd | dcmpEnd | drainEnd =>
    exact decode_encode_beat rfl ha
  | lit b => exact congrArg _ (decodeCode_lit c.next b)
  | ref k =>
    have hk := classify_ref.mpr ⟨of_decide_eq_true hw, of_decide_eq_true ha⟩
    simp only [encode, decode, decodeCode, hk]
  | kwk k =>
    have hk := classify_kwk.mpr ⟨of_decide_eq_true hw, of_decide_eq_true ha⟩
    simp only [encode, decode, decodeCode, hk]
  | bad k =>
    have hk := classify_bad.mpr ⟨Nat.le_of_succ_le (of_decide_eq_true hw), of_decide_eq_true ha⟩
    simp only [encode, decode, decodeCode, hk]
  | hdr r v => simp only [encode, decode, decodeHdr, hdrRows_concat, hdrCols_concat]
  | rd off =>
    have hal : aligned off = true := hw
    simp only [encode, decode, decodeRead, hal, if_true]
  | wr off v =>
    simp only [Instr.wellFormed, Bool.and_eq_true, bne_iff_ne] at hw
    obtain ⟨hal, hne⟩ := hw
    have h0 : off ≠ 0#8 := hne
    simp only [encode, decode_regWrite, decodeWrite, hal, if_true, if_neg h0]

/-! ## From a word to its row -/

/-- `x` is the encoding of a well-formed instruction `i` whose row's condition holds. -/
structure EncodesRow (c : Ctx) (x : Encoding) (i : Instr) : Prop where
  wellFormed : i.wellFormed = true
  admitted : i.admitted c = true
  encode_eq : encode i = x

/-- Every command word is the encoding of its row (R97, R98). -/
theorem encodesRow_cmd (c : Ctx) (v : Word) : EncodesRow c (.cmd32 v) (decodeCmd v) := by
  rcases decodeCmd_cases v with ⟨rfl, h⟩ | ⟨rfl, h⟩ | ⟨rfl, h⟩ | ⟨rfl, h⟩ | ⟨rfl, h⟩ | ⟨hv, h⟩ <;> rw [h]
  case inr.inr.inr.inr.inr => exact ⟨decide_eq_true hv, rfl, rfl⟩
  all_goals exact ⟨rfl, rfl, rfl⟩

/-- What a data beat decodes to is a row of that byte (R135). -/
theorem encodesRow_inByte {c : Ctx} {b : Sym} {i : Instr} (h : decodeInByte c b = .ok i) :
    EncodesRow c (encodeInByte b) i := by
  obtain ⟨m, e, n⟩ := c
  cases m with
  | idle => cases h
  | enc | dec | cmp | dcmp =>
    simp only [decodeInByte, Except.ok.injEq] at h
    subst h
    split <;> exact ⟨rfl, by simp_all [Instr.admitted], rfl⟩

/-- What the end beat decodes to is a row of the end beat (R135). -/
theorem encodesRow_endMark {c : Ctx} {i : Instr} (h : decodeEndMark c = .ok i) :
    EncodesRow c encodeEndMark i := by
  obtain ⟨m, e, n⟩ := c
  cases m with
  | idle => cases h
  | enc | dec | cmp | dcmp =>
    simp only [decodeEndMark, Except.ok.injEq] at h
    subst h
    split <;> exact ⟨rfl, by simp_all [Instr.admitted], rfl⟩

/-- Every code word is the encoding of the row of its class (R91). -/
theorem encodesRow_code {c : Ctx} (hn : 256 ≤ c.next.toNat) (k : Code) :
    EncodesRow c (.code16 k) (decodeCode c.next k) := by
  unfold decodeCode
  cases hk : classify c.next k with
  | lit =>
    have hlit := literal_codeLow (classify_lit.mp hk)
    exact ⟨rfl, rfl, congrArg _ ((zero_byte_concat _).trans hlit)⟩
  | ref =>
    obtain ⟨hlo, hlt⟩ := classify_ref.mp hk
    exact ⟨decide_eq_true hlo, decide_eq_true hlt, rfl⟩
  | kwk =>
    obtain ⟨hlo, heq⟩ := classify_kwk.mp hk
    exact ⟨decide_eq_true hlo, decide_eq_true heq, rfl⟩
  | bad =>
    obtain ⟨-, hgt⟩ := classify_bad.mp hk
    exact ⟨decide_eq_true (by omega), decide_eq_true hgt, rfl⟩

/-- An aligned read is the encoding of `RD` (R120). -/
theorem encodesRow_read {c : Ctx} {off : BitVec 8} {i : Instr} (h : decodeRead off = .ok i) :
    EncodesRow c (.regRead off) i := by
  unfold decodeRead at h
  split at h <;> cases h
  exact ⟨‹_›, rfl, rfl⟩

/-- What a register write decodes to: a command at offset 0, the encoding of `WR` elsewhere (R121 to R123). -/
theorem encodesRow_write {c : Ctx} {off : BitVec 8} {v : Word} {i : Instr} (h : decodeWrite off v = .ok i) :
    (off = 0#8 ∧ EncodesRow c (.cmd32 v) i) ∨ EncodesRow c (.regWrite (off ++ v)) i := by
  unfold decodeWrite at h
  split at h <;> cases h
  by_cases h0 : off = 0#8
  · rw [if_pos h0]
    exact .inl ⟨h0, encodesRow_cmd c v⟩
  · rw [if_neg h0]
    exact .inr ⟨by simp_all [Instr.wellFormed], rfl, rfl⟩

/-- A beat's nine bits are `in_end` and the data (R99). -/
theorem beat_halves (x : BitVec 9) : x.extractLsb' 8 1 ++ x.extractLsb' 0 8 = x :=
  (BitVec.extractLsb'_append_extractLsb'_eq_extractLsb' rfl).trans BitVec.extractLsb'_eq_self

/-- A register write's forty bits are the offset and the value. -/
theorem write_halves (x : BitVec 40) : x.extractLsb' 32 8 ++ x.extractLsb' 0 32 = x :=
  (BitVec.extractLsb'_append_extractLsb'_eq_extractLsb' rfl).trans BitVec.extractLsb'_eq_self

/-- A beat below 256 has `in_end` = 0, so it is the data beat of its byte. -/
theorem inEnd_of_lt {x : BitVec 9} (h : x.toNat < 256) : x.extractLsb' 8 1 = 0#1 := by
  apply BitVec.eq_of_toNat_eq
  rw [toNat_field, BitVec.toNat_ofNat]
  omega

/-- A register write from `2 ^ 32` on is no write to `CTRL`. -/
theorem offset_ne_zero {x : BitVec 40} (h : 2 ^ 32 ≤ x.toNat) : x.extractLsb' 32 8 ≠ 0#8 := by
  intro h0
  have hoff := congrArg BitVec.toNat h0
  rw [toNat_field, BitVec.toNat_ofNat] at hoff
  have := x.isLt
  omega

/-- What a beat decodes to: a row of the end beat, or the encoding of a data row (R99, R135). -/
theorem encodesRow_beat {c : Ctx} {x : BitVec 9} {i : Instr} (h : decodeBeat c x = .ok i) :
    (x.extractLsb' 8 1 = 1#1 ∧ EncodesRow c encodeEndMark i) ∨ EncodesRow c (.beat x) i := by
  unfold decodeBeat at h
  split at h
  · exact .inl ⟨‹_›, encodesRow_endMark h⟩
  · have h0 : x.extractLsb' 8 1 = 0#1 := (BitVec.eq_zero_or_eq_one _).resolve_right ‹_›
    have hx : encodeInByte (x.extractLsb' 0 8) = .beat x := by rw [encodeInByte, ← h0, beat_halves]
    exact .inr (hx ▸ encodesRow_inByte h)

/-- Settles O2: format by format, a word is the encoding of the row it decodes to, an end beat's data bits and
commands written through the register block apart. -/
theorem decodedIsWellFormedAndCanonical : Obligations.DecodedIsWellFormedAndCanonical := by
  intro c x i hn h
  have of_row (hr : EncodesRow c x i) : i.wellFormed = true ∧ i.admitted c = true ∧
      ((∀ b, x = .beat b → b.toNat < 256) → (∀ y, x = .regWrite y → 2 ^ 32 ≤ y.toNat) → encode i = x) :=
    ⟨hr.wellFormed, hr.admitted, fun _ _ => hr.encode_eq⟩
  cases x with
  | cmd32 v => cases h; exact of_row (encodesRow_cmd c v)
  | code16 k => cases h; exact of_row (encodesRow_code hn k)
  | hdr64 w => cases h; exact of_row ⟨rfl, rfl, congrArg _ (hdr_halves w)⟩
  | regRead a => exact of_row (encodesRow_read h)
  | beat b =>
    rcases encodesRow_beat h with ⟨hend, hr⟩ | hr
    · refine ⟨hr.wellFormed, hr.admitted, fun hdata _ => ?_⟩
      rw [inEnd_of_lt (hdata b rfl)] at hend
      cases hend
    · exact of_row hr
  | regWrite y =>
    rcases encodesRow_write (c := c) h with ⟨h0, hr⟩ | hr
    · exact ⟨hr.wellFormed, hr.admitted, fun _ hwr => absurd h0 (offset_ne_zero (hwr y rfl))⟩
    · exact of_row (write_halves y ▸ hr)

/-- Settles O4: each class by its own condition; with a full dictionary no code reaches `NEXT`. -/
theorem codeClassesPartition : Obligations.CodeClassesPartition := by
  intro next k hlo hhi
  refine ⟨classify_lit, classify_ref, classify_kwk.trans (by omega),
    classify_bad.trans (by omega), fun hfull => ?_⟩
  rw [classify_lit, classify_ref]
  have := k.isLt
  omega

/-! ## A header and its bytes (30_encoding.md R94, 43_frame.md R193, R194) -/

/-- `HDR` after the bytes `bs`, from the count `n` and the register `h` (R193). -/
def hdrShiftAll (n : BitVec 4) (h : BitVec 64) : List Sym → BitVec 64
  | [] => h
  | b :: bs => hdrShiftAll (n + 1#4) (hdrShift n h b) bs

/-- The register after one byte, as a number: a later byte pushes the top byte out. -/
theorem hdrShift_toNat (n : BitVec 4) (h : BitVec 64) (b : Sym) :
    (hdrShift n h b).toNat = if n = 0 then b.toNat else h.toNat % 2 ^ 56 * 2 ^ 8 + b.toNat := by
  by_cases hn : n = 0
  · rw [if_pos hn, hdrShift, if_pos hn, BitVec.toNat_setWidth_of_le (by decide)]
  · rw [if_neg hn, hdrShift, if_neg hn, toNat_concat, toNat_field, Nat.pow_zero, Nat.div_one]

/-- The eight bytes of a header, shifted in from the first on, are its two words. -/
theorem hdrShiftAll_hdrBytes (h : BitVec 64) (r c : Word) : hdrShiftAll 0#4 h (hdrBytes r c) = r ++ c := by
  apply BitVec.eq_of_toNat_eq
  have := r.isLt
  have := c.isLt
  rw [toNat_concat]
  simp only [hdrBytes, wordBytes, List.cons_append, List.nil_append, hdrShiftAll, hdrShift_toNat, toNat_field,
    BitVec.zero_add, BitVec.reduceAdd, BitVec.ofNat_eq_ofNat, BitVec.reduceEq, reduceIte]
  omega

theorem stepN_one (s : State) : stepN 1 s = step s := by
  rw [stepN]
  cases step s <;> rfl

/-- A byte of a header that is not complete reaches the header register (R193). -/
theorem step_header {s : State} {b : Sym} {rest : List Event} (hm : s.mode = .dcmp) (he : s.err = .none)
    (hc : s.hcnt.toNat < 8) (hp : s.pending = .inByte b :: rest) :
    step s = headerStep b { s with pending := rest } := by
  rw [step_inByte (by simp [hm]) hp ((decodeInByte_row he b).2.2.2 hm)]
  exact exec_dcmpIn_header (s := { s with pending := rest }) hm he hc b

/-- The last byte of a header runs the header row on the word it completes (R194). -/
theorem headerStep_last {s : State} (hc : s.hcnt.toNat = 7) (b : Sym) :
    headerStep b s = exec (decodeHdr (hdrShift s.hcnt s.hdr b)) s := by
  rw [headerStep, if_pos (by rw [hc])]
  rfl

/-- An earlier byte is shifted in and counted (R193). -/
theorem headerStep_more {s : State} (hc : s.hcnt.toNat < 7) (b : Sym) :
    headerStep b s = .next { s with hdr := hdrShift s.hcnt s.hdr b, hcnt := s.hcnt + 1#4 } := by
  rw [headerStep, if_neg (by simp only [Config.hdrBytes]; omega)]

/-- What the header row does depends neither on the bytes shifted in before nor on their count. -/
theorem exec_hdr_shifted {s : State} (hm : s.mode = .dcmp) (he : s.err = .none) (hc : s.hcnt.toNat < 8)
    (h x : BitVec 64) {n : BitVec 4} (hn : n.toNat < 8) :
    exec (decodeHdr x) { s with hdr := h, hcnt := n } = exec (decodeHdr x) s := by
  rw [decodeHdr, exec_hdr hm he hc, exec_hdr (s := { s with hdr := h, hcnt := n }) hm he hn]

/-- The bytes a header still lacks do together what the header row does with the word they complete. -/
theorem stepN_header (bs : List Sym) : ∀ (s : State) (rest : List Event), s.mode = .dcmp → s.err = .none →
    s.hcnt.toNat < 8 → s.hcnt.toNat + bs.length = 8 → s.pending = bytesIn bs ++ rest →
    stepN bs.length s = exec (decodeHdr (hdrShiftAll s.hcnt s.hdr bs)) { s with pending := rest } := by
  induction bs with
  | nil => intro s rest _ _ hc hlen _; rw [List.length_nil] at hlen; omega
  | cons b bs ih =>
    intro s rest hm he hc hlen hp
    rw [List.length_cons] at hlen ⊢
    have hstep : step s = headerStep b { s with pending := bytesIn bs ++ rest } := step_header hm he hc hp
    by_cases hlast : s.hcnt.toNat = 7
    · obtain rfl : bs = [] := List.eq_nil_of_length_eq_zero (by omega)
      rw [List.length_nil, stepN_one, hstep]
      exact headerStep_last (s := { s with pending := rest }) hlast b
    · have hcount : (s.hcnt + 1#4).toNat = s.hcnt.toNat + 1 := by
        rw [BitVec.toNat_add, BitVec.toNat_ofNat]
        omega
      have hlt : (s.hcnt + 1#4).toNat < 8 := by omega
      rw [headerStep_more (s := { s with pending := bytesIn bs ++ rest }) (show s.hcnt.toNat < 7 by omega)] at hstep
      have hsum : (s.hcnt + 1#4).toNat + bs.length = 8 := by omega
      rw [stepN_succ hstep]
      refine (ih { s with
        pending := bytesIn bs ++ rest, hdr := hdrShift s.hcnt s.hdr b, hcnt := s.hcnt + 1#4 }
        rest hm he hlt hsum rfl).trans ?_
      exact exec_hdr_shifted (s := { s with pending := rest }) hm he hc _ _ hlt

/-- Settles O38: the row's own meaning, and the run over the bytes that shift the row's word in. -/
theorem headerWordIsItsEightBytes : Obligations.HeaderWordIsItsEightBytes := by
  refine ⟨fun s r c hm he hc => exec_hdr hm he hc r c, fun s r c rest hm he hc hp => ?_⟩
  have hrun := stepN_header (hdrBytes r c) s rest hm he (by rw [hc]; decide)
    (by rw [hc, hdrBytes_length]; rfl) hp
  have hword : hdrShiftAll s.hcnt s.hdr (hdrBytes r c) = r ++ c := by rw [hc]; exact hdrShiftAll_hdrBytes _ r c
  rw [hdrBytes_length, hword, decodeHdr, hdrRows_concat, hdrCols_concat] at hrun
  exact hrun

end Sys2Proof.Machine
end

section
/-! The host's side of the core (40_commands.md): the commands, the mode machine, register accesses, and the beats of
the input stream where they wait, run, are refused or are drained. -/

namespace Sys2Proof.Machine

/-! ## The mode machine (R134) -/

/-- From `s` to `t` the machine stays in its operation: what a START and an end beat set is kept. -/
structure KeepsStatus (s t : State) : Prop where
  mode : t.mode = s.mode
  done : t.done = s.done
  op : t.op = s.op
  z : t.z = s.z

theorem KeepsStatus.refl (s : State) : KeepsStatus s s := ⟨rfl, rfl, rfl, rfl⟩

theorem matcherStep_keepsStatus {c : Sym} {s t : State} (h : matcherStep c s = .next t) : KeepsStatus s t := by
  rcases matcherStep_cases c s with ⟨-, e⟩ | ⟨-, k, -, e⟩ | ⟨-, -, -, e⟩ | ⟨-, -, -, e⟩
  all_goals
    rw [e] at h
    cases h
    exact ⟨rfl, rfl, rfl, rfl⟩

theorem runCode_keepsStatus {k : Code} {s t : State} (h : runCode k s = .next t) : KeepsStatus s t := by
  rcases runCode_effect h with rfl | ⟨l, n, d, m, rfl, -⟩
  all_goals exact ⟨rfl, rfl, rfl, rfl⟩

theorem parserStep_keepsStatus {b : Sym} {s t : State} (h : parserStep b s = .next t) : KeepsStatus s t := by
  rcases parserStep_effect h with ⟨-, rfl⟩ | ⟨-, h⟩
  · exact ⟨rfl, rfl, rfl, rfl⟩
  · obtain ⟨hm, hd, ho, hz⟩ := runCode_keepsStatus h
    exact ⟨hm, hd, ho, hz⟩

theorem headerStep_keepsStatus {b : Sym} {s t : State} (hm : s.mode = .dcmp) (he : s.err = .none)
    (hc : s.hcnt.toNat < 8) (h : headerStep b s = .next t) : KeepsStatus s t := by
  rw [headerStep_next hm he hc] at h
  cases h
  split <;> exact ⟨rfl, rfl, rfl, rfl⟩

theorem flush_keepsStatus (s : State) : KeepsStatus s (flush s) := by
  unfold flush
  split <;> exact ⟨rfl, rfl, rfl, rfl⟩

/-- A START taken while idle (R123). -/
structure Starts (i : Instr) (s t : State) : Prop where
  command : startsOperation i = true
  idle : s.mode = .idle
  mode : t.mode = t.op
  busy : t.mode ≠ .idle
  done : t.done = false

/-- An end beat taken while busy (R132). -/
structure Ends (i : Instr) (s t : State) : Prop where
  endBeat : endsOperation i = true
  busy : s.mode ≠ .idle
  mode : t.mode = .idle
  done : t.done = true
  op : t.op = s.op

theorem ends_endOp {i : Instr} {s u : State} (hi : endsOperation i = true) (hm : s.mode ≠ .idle)
    (hu : KeepsStatus s u) : Ends i s (endOp u) :=
  ⟨hi, hm, rfl, rfl, hu.op⟩

/-- Every row starts an operation, ends it, or stays in it. -/
theorem exec_status {i : Instr} {s t : State} (h : exec i s = .next t) :
    Starts i s t ∨ Ends i s t ∨ KeepsStatus s t := by
  cases effect_of_next h with
  | startEnc hm | startDec hm | startDcmp hm | startCmp hm => exact .inl ⟨rfl, hm, rfl, nofun, rfl⟩
  | encEnd hm => exact .inr (.inl (ends_endOp rfl (mode_ne_idle hm (by decide)) (flush_keepsStatus s)))
  | decEnd hm | dcmpEnd hm =>
    refine .inr (.inl (ends_endOp rfl (mode_ne_idle hm (by decide)) ?_))
    split <;> exact ⟨rfl, rfl, rfl, rfl⟩
  | cmpEnd hm =>
    refine .inr (.inl (ends_endOp rfl (mode_ne_idle hm (by decide)) ?_))
    split
    · exact ⟨rfl, rfl, rfl, rfl⟩
    · exact flush_keepsStatus s
  | drainEnd hm => exact .inr (.inl (ends_endOp rfl hm (.refl s)))
  | encSymbol _ _ h | cmpSymbol _ _ h => exact .inr (.inr (matcherStep_keepsStatus h))
  | decByte _ _ h | dcmpByte _ _ _ h => exact .inr (.inr (parserStep_keepsStatus h))
  | code _ _ h => exact .inr (.inr (runCode_keepsStatus h))
  | headerByte hm he hc h => exact .inr (.inr (headerStep_keepsStatus hm he hc h))
  | unchanged | read | setRows | setCols | header => exact .inr (.inr ⟨rfl, rfl, rfl, rfl⟩)

/-- Settles O16: the three things a row can do to the operation in progress. -/
theorem modeMachine : Obligations.ModeMachine := by
  intro i s t h
  rcases exec_status h with
    ⟨hi, hidle, hop, hbusy, hdone⟩ | ⟨hi, hbusy, hidle, hdone, hop⟩ | ⟨hm, hd, ho, hz⟩
  · exact .inl ⟨hi, hidle, hop, hbusy, hdone⟩
  · exact .inr (.inl ⟨hi, hbusy, hidle, hdone, hop⟩)
  · exact .inr (.inr ⟨hm, hd, ho, hz⟩)

/-! ## Commands (R123 to R130) -/

theorem startWhenIdle_of_idle {s : State} (hm : s.mode = .idle) (m : Mode) : startWhenIdle m s = startOp m s :=
  if_neg fun hb => busy_iff.mp hb hm

theorem startWhenIdle_of_busy {s : State} (hm : s.mode ≠ .idle) (m : Mode) : startWhenIdle m s = s :=
  if_pos (busy_iff.mpr hm)

theorem exec_cmp_of_idle {s : State} (hm : s.mode = .idle) :
    exec .cmp s = .next (emitBytes (hdrBytes s.rows s.cols) (startOp .cmp s)) :=
  if_neg fun hb => busy_iff.mp hb hm

theorem exec_cmp_of_busy {s : State} (hm : s.mode ≠ .idle) : exec .cmp s = .next s :=
  if_pos (busy_iff.mpr hm)

theorem exec_cmdReserved {v : Word} (h : 5 ≤ v.toNat) (s : State) : exec (.cmdReserved v) s = .next s :=
  if_pos (decide_eq_true h)

/-- A command while busy changes nothing (R130). -/
theorem exec_command_of_busy {s : State} (hm : s.mode ≠ .idle) (v : Word) : exec (decodeCmd v) s = .next s := by
  rcases decodeCmd_cases v with ⟨-, h⟩ | ⟨-, h⟩ | ⟨-, h⟩ | ⟨-, h⟩ | ⟨-, h⟩ | ⟨hv, h⟩ <;> rw [h]
  · rfl
  · exact congrArg _ (startWhenIdle_of_busy hm .enc)
  · exact congrArg _ (startWhenIdle_of_busy hm .dec)
  · exact exec_cmp_of_busy hm
  · exact congrArg _ (startWhenIdle_of_busy hm .dcmp)
  · exact exec_cmdReserved hv s

/-- Settles O15: every command word is ignored; a row that changes the mode is a START, which needs idle, or an end
beat. -/
theorem commandsIgnoredWhileBusy : Obligations.CommandsIgnoredWhileBusy := by
  refine ⟨fun s v hm => exec_command_of_busy hm v, fun i s t hm h hne => ?_⟩
  rcases exec_status h with hstart | hend | hkeep
  · exact absurd hstart.idle hm
  · exact hend.endBeat
  · exact absurd hkeep.mode hne

/-- Settles O13: each START taken while idle is `startOp`; `CMP` emits the header's bytes after it. -/
theorem startCommands : Obligations.StartCommands := by
  intro s hm
  have hstart := startWhenIdle_of_idle hm
  exact ⟨congrArg _ (hstart .enc), congrArg _ (hstart .dec), exec_cmp_of_idle hm, congrArg _ (hstart .dcmp)⟩

/-- Settles O14: a word whose fields R129 names is at least 5, and every such word is a reserved command. -/
theorem nopAndReservedCommandsIgnored : Obligations.NopAndReservedCommandsIgnored := by
  intro s v
  refine ⟨rfl, rfl, fun hv => exec_cmdReserved hv s, fun hfields => ?_⟩
  have hv : 5 ≤ v.toNat := by omega
  rw [decodeCmd_reserved hv]
  exact ⟨rfl, exec_cmdReserved hv s⟩

/-! ## Register accesses (R120 to R122) -/

theorem aligned_of_mod {off : BitVec 8} (h : off.toNat % 4 = 0) : aligned off = true :=
  beq_iff_eq.mpr h

theorem exec_rd {off : BitVec 8} (h : off.toNat % 4 = 0) (s : State) :
    exec (.rd off) s = .next { s with reads := s.reads ++ [regWord s off] } :=
  if_pos (aligned_of_mod h)

theorem exec_wr {off : BitVec 8} (h : off.toNat % 4 = 0) (h0 : off ≠ 0#8) (v : Word) (s : State) :
    exec (.wr off v) s = .next (writeReg off v s) :=
  (if_pos (aligned_of_mod h)).trans (if_neg h0)

theorem counterLow_toNat (n : Nat) : (counterLow n).toNat = n % 2 ^ 32 := by
  rw [counterLow, toNat_field, BitVec.toNat_ofNat]
  omega

theorem counterHigh_toNat (n : Nat) : (counterHigh n).toNat = n / 2 ^ 32 % 2 ^ 32 := by
  rw [counterHigh, toNat_field, BitVec.toNat_ofNat]
  omega

/-- The reserved offsets read 0 (10_state.md R40). -/
theorem regWord_reserved (s : State) {off : BitVec 8} (h : 0x28 ≤ off.toNat) : regWord s off = 0 := by
  have hne {k : BitVec 8} (hk : k.toNat < 0x28) : off ≠ k := by rintro rfl; omega
  simp (disch := decide) only [regWord, hne, if_false, BitVec.ofNat_eq_ofNat]

/-- Settles O17: the word read is `regWord`, evaluated at each offset of the map. -/
theorem registerReadReturnsTheMap : Obligations.RegisterReadReturnsTheMap := by
  intro s off hoff
  refine ⟨regWord s off, exec_rd hoff s, ?_, ?_, ?_, ?_, ?_, ?_, ?_, ?_, ?_, ?_, regWord_reserved s⟩
  all_goals rintro rfl
  · rfl
  · rfl
  · rfl
  · rfl
  · exact counterLow_toNat s.icnt
  · exact counterHigh_toNat s.icnt
  · exact counterLow_toNat s.ocnt
  · exact counterHigh_toNat s.ocnt
  · exact BitVec.toNat_setWidth_of_le (show 17 ≤ 32 by decide)
  · rfl

theorem writeReg_of_busy {s : State} (hm : s.mode ≠ .idle) (off : BitVec 8) (v : Word) : writeReg off v s = s :=
  if_pos (busy_iff.mpr hm)

/-- While idle a write reaches `ROWS`, `COLS` or nothing, by its offset. -/
theorem writeReg_of_idle {s : State} (hm : s.mode = .idle) (off : BitVec 8) (v : Word) :
    writeReg off v s =
      if off = 0x08#8 then { s with rows := v } else if off = 0x0C#8 then { s with cols := v } else s :=
  if_neg fun hb => busy_iff.mp hb hm

theorem writeReg_ignored {off : BitVec 8} (h8 : off ≠ 0x08#8) (hC : off ≠ 0x0C#8) (v : Word) (s : State) :
    writeReg off v s = s := by
  by_cases hm : s.mode = .idle
  · rw [writeReg_of_idle hm, if_neg h8, if_neg hC]
  · exact writeReg_of_busy hm off v

/-- Settles O19: an aligned write off `CTRL` is `writeReg`, by mode and offset. -/
theorem registerWrites : Obligations.RegisterWrites := by
  intro s v
  have hrows : exec (.wr 0x08 v) s = .next (writeReg 0x08#8 v s) := exec_wr rfl (by decide) v s
  have hcols : exec (.wr 0x0C v) s = .next (writeReg 0x0C#8 v s) := exec_wr rfl (by decide) v s
  refine ⟨fun hm => ?_, fun hm => ?_, fun off hoff h0 h8 hC => ?_⟩
  · rw [hrows, hcols, writeReg_of_idle hm, writeReg_of_idle hm]
    exact ⟨rfl, rfl⟩
  · rw [hrows, hcols, writeReg_of_busy hm, writeReg_of_busy hm]
    exact ⟨rfl, rfl⟩
  · rw [exec_wr hoff h0, writeReg_ignored h8 hC]

/-! ## Rows outside their condition (R135) -/

/-- A beat row whose condition does not hold is refused. -/
theorem exec_beat_refused {s : State} {i : Instr} (hi : isBeatRow i = true) (ha : i.admitted s.ctx = false) :
    ∃ m, exec i s = .refused (.outsideCondition m) := by
  have hn : ¬ i.admitted s.ctx = true := by simp [ha]
  cases i with
  | encIn | encEnd | decIn | decEnd | cmpIn | cmpEnd | dcmpIn | dcmpEnd | drainIn | drainEnd =>
    exact ⟨_, if_neg hn⟩
  | nop | enc | dec | cmp | dcmp | cmdReserved | lit | ref | kwk | bad | hdr | rd | wr => cases hi

/-- A code where no payload is open is refused, whatever its class (42_decode.md R160, R161). -/
theorem exec_code_refused {s : State} (hp : ¬ InPayload s) (k : Code) :
    ∃ m, exec (decodeCode s.next k) s = .refused (.outsideCondition m) := by
  have hn {cl : CodeClass} {j : Code} : ¬ codeAdmitted cl j s = true := fun h => hp (codeAdmitted_iff.mp h).1
  unfold decodeCode
  cases classify s.next k with
  | lit | ref | kwk | bad => exact ⟨_, if_neg hn⟩

/-- A header outside the header phase is refused (43_frame.md R193). -/
theorem exec_hdr_refused {s : State} (h : s.mode ≠ .dcmp ∨ s.err ≠ .none ∨ 8 ≤ s.hcnt.toNat) (r c : Word) :
    exec (.hdr r c) s = .refused (.outsideCondition "HDR") := by
  refine if_neg fun ⟨hm, he, hc⟩ => ?_
  rcases h with h | h | h
  · exact h hm
  · exact h he
  · exact absurd hc (Nat.not_lt.mpr h)

/-- Settles O12: where a row's condition holds its meaning answers a next state, and elsewhere its test fails. -/
theorem rowsRunUnderTheirCondition : Obligations.RowsRunUnderTheirCondition := by
  refine ⟨fun s i => exec_beat_next, fun s i => exec_beat_refused, fun s k hout => ?_, fun s r c v => ?_⟩
  · refine exec_code_refused (fun ⟨he, hm⟩ => ?_) k
    rcases hout with hne | ⟨hdec, hdcmp⟩
    · exact hne he
    · exact hm.elim hdec hdcmp
  · have hword (hv : v.toNat < 5) : ¬ (Instr.cmdReserved v).wellFormed = true := by
      simpa [Instr.wellFormed] using hv
    exact ⟨fun hout => exec_hdr_refused hout r c, rfl, fun hv => if_neg (hword hv)⟩

/-! ## Beats (R131, R133) -/

/-- While idle no beat has a step. -/
theorem takeEvent_beats {es : List Event} (h : ∀ b ∈ es, isBeat b = true) : takeEvent false es = none := by
  cases ht : takeEvent false es with
  | none => rfl
  | some p =>
    obtain ⟨hmem, -, hno⟩ := takeEvent_some ht
    exact absurd (h p.1 hmem) (by simp [hno rfl])

/-- While idle a START behind waiting beats is taken as if it came first. -/
theorem step_start_behind {s : State} {m : Mode} {waiting rest : List Event} (hm : s.mode = .idle)
    (hw : ∀ b ∈ waiting, isBeat b = true) (hp : s.pending = waiting ++ startEvent m :: rest) :
    step s = step { s with pending := startEvent m :: (waiting ++ rest) } := by
  rw [step_taken (takeEvent_first hp hw (fun hne => absurd hm hne) fun _ => rfl),
    step_taken (s := { s with pending := startEvent m :: (waiting ++ rest) })
      (takeEvent_first (waiting := []) rfl (by simp) (fun _ => rfl) fun _ => rfl)]
  rfl

/-- While busy the beat at the head is taken, and its row runs. -/
theorem step_beat {s : State} {b : Event} {rest : List Event} (hi : s.Inv) (hm : s.mode ≠ .idle)
    (hb : isBeat b = true) (hp : s.pending = b :: rest) : ∃ t, step s = .next t ∧ t.pending = rest := by
  obtain ⟨x, i, hx, hd, hrow, ha⟩ := decode_beat_row (c := s.ctx) hm hb
  have hstep : step s = exec i { s with pending := rest } :=
    stepRunsTheDecodedInstruction s [] rest b x i hp (by simp) (fun _ => rfl) (fun h => absurd h hm) hx hd
  obtain ⟨t, ht⟩ := exec_beat_next (hi.withPending rest) hrow ha
  exact ⟨t, hstep.trans ht, exec_pending ht⟩

/-- Settles O6: idle, beats are passed over and the START behind them is taken; busy, the first beat is. -/
theorem beatsWaitWhileIdle : Obligations.BeatsWaitWhileIdle := by
  refine ⟨fun s hm hb => ?_, fun s m waiting rest hm hne hw hp => ?_, fun s b rest => step_beat⟩
  · exact step_wait (by rw [not_busy_iff.mpr hm, takeEvent_beats hb])
  · rw [step_start_behind hm hw hp,
      step_start (s := { s with pending := startEvent m :: (waiting ++ rest) }) hm hne rfl]
    refine ⟨_, rfl, ?_⟩
    split
    · exact ⟨‹m = .cmp›.symm, rfl, rfl⟩
    · exact ⟨rfl, rfl, rfl⟩

/-- Settles O41: the two drain rows under their condition. -/
theorem drainAfterFault : Obligations.DrainAfterFault :=
  fun _ b hm he => ⟨exec_drainIn hm he b, exec_drainEnd hm he⟩

end Sys2Proof.Machine
end

section
/-! The encoder's rules one by one (41_encode.md R140 to R145), `ENC.IN` and `CMP.IN` together (43_frame.md R191). -/

namespace Sys2Proof.Machine

/-! ## A symbol -/

/-- What the matcher answers to a symbol is what both rows that feed it answer. -/
theorem exec_symbol {s : State} {c : Sym} {r : Result} (he : s.err = .none)
    (h : s.mode = .enc ∨ s.mode = .cmp → matcherStep c s = r) :
    (s.mode = .enc → exec (.encIn c) s = r) ∧ (s.mode = .cmp → exec (.cmpIn c) s = r) :=
  ⟨fun hm => (exec_encIn hm he c).trans (h (.inl hm)), fun hm => (exec_cmpIn hm he c).trans (h (.inr hm))⟩

/-- While a matcher is fed, `Match` answers any present code that holds the pair: there is only one (10_state.md R28). -/
theorem State.Inv.matchEntry_of_get {s : State} (hi : s.Inv) (hm : s.mode = .enc ∨ s.mode = .cmp) {w k : Code}
    {c : Sym} (hlo : 256 ≤ k.toNat) (hlt : k.toNat < s.next.toNat) (hget : s.dict.get k.toNat = some ⟨w, c⟩) :
    matchEntry s.dict s.next.toNat w c = some k :=
  (matchEntry_eq_some hi.memForm).mpr ⟨hlo, hlt, hget, fun _ hj hjlt hjget =>
    Nat.le_of_eq (hi.uniqueIn hm _ _ _ hlo hlt hj hjlt hget hjget)⟩

/-- Settles O22: the matcher's case with `WV = 0`. -/
theorem encoderFirstSymbol : Obligations.EncoderFirstSymbol :=
  fun _ c he hv => exec_symbol he fun _ => matcherStep_first hv c

/-- Settles O23: the present word that holds the pair is the one `Match` answers. -/
theorem encoderExtendsMatch : Obligations.EncoderExtendsMatch :=
  fun _ _ _ hi he hv hlo hlt hget => exec_symbol he fun hm =>
    matcherStep_match hv (hi.matchEntry_of_get hm hlo hlt hget)

/-- Settles O24: no present word holds the pair, so `Match` answers none, and there is room. -/
theorem encoderInsertsEntry : Obligations.EncoderInsertsEntry :=
  fun _ _ hi he hv hroom habsent => exec_symbol he fun _ =>
    matcherStep_insert hv ((matchEntry_eq_none hi.memForm).mpr habsent) hroom

/-- Settles O25: no word holds the pair, so `Match` answers none, and there is no room. -/
theorem encoderFrozenWhenFull : Obligations.EncoderFrozenWhenFull := by
  intro s c hi he hv hfull habsent
  rw [← hfull] at habsent
  exact exec_symbol he fun _ =>
    matcherStep_full hv ((matchEntry_eq_none hi.memForm).mpr habsent) (by omega)

/-! ## The end beat -/

theorem flush_of_working {s : State} (hv : s.wv = true) : flush s = { emitCode s.w s with wv := false } := if_pos hv

theorem flush_of_empty {s : State} (hv : s.wv = false) : flush s = s := if_neg (by simp [hv])

/-- Settles O26: the flush with and without a working sequence; with none, the counters' invariant says that nothing
was emitted (R147). -/
theorem encoderEnd : Obligations.EncoderEnd := by
  intro s hm he
  have hempty (hv : s.wv = false) : exec .encEnd s = .next { s with
      z := decide (s.ocnt = 0), done := true, mode := .idle, outs := s.outs ++ [.outEnd .none] } := by
    rw [exec_encEnd hm he, flush_of_empty hv, ← he]
    rfl
  refine ⟨fun hv => ?_, fun hv hcounts => ?_, hempty⟩
  · rw [exec_encEnd hm he, flush_of_working hv]
    simp [endOp, emitEnd, zFlag, emitCode, emitBytes, codeBytes, codeHigh, codeLow, he]
  · obtain ⟨-, -, -, hzero, -⟩ := hcounts.1 (.inl hm) he
    rw [hempty hv, decide_eq_true (hzero hv)]

end Sys2Proof.Machine
end

section
/-! The encoder's counters (41_encode.md R147 to R149) along every row and every step. -/

namespace Sys2Proof.Machine

/-- While codes are parsed nothing is said of the encoder. -/
theorem encoderCounts_of_decoding {t : State} (hm : t.mode = .dec ∨ t.mode = .dcmp) : t.EncoderCounts := by
  constructor
  · rintro (h | h) <;> rcases hm with hm | hm <;> cases hm.symm.trans h
  · intro h
    rcases hm with hm | hm <;> cases hm.symm.trans h

/-- After an operation that was no `ENC`, or that met an error, nothing is said of the encoder. -/
theorem encoderCounts_of_ended {t : State} (hm : t.mode = .idle) (h : t.op ≠ .enc ∨ t.err ≠ .none) :
    t.EncoderCounts := by
  constructor
  · rintro (h' | h') <;> cases hm.symm.trans h'
  · intro _ _ ho he
    exact (h.elim (· ho) (· he)).elim

/-- START clears the counters and empties the dictionary (40_commands.md R123). -/
theorem encoderCounts_startOp (m : Mode) (s : State) : (startOp m s).EncoderCounts :=
  ⟨fun _ _ => ⟨rfl, by simp, iff_of_true rfl rfl, fun _ => rfl, nofun⟩, fun _ => nofun⟩

/-- A symbol advances `ICNT`, and a code emitted for it advances `OCNT` by 2 and, below the cap, `NEXT` by 1
(R147 to R149). -/
theorem State.EncoderCounts.matcherStep {s t : State} {c : Sym} (hc : s.EncoderCounts)
    (hm : s.mode = .enc ∨ s.mode = .cmp) (he : s.err = .none) (h : matcherStep c s = .next t) :
    t.EncoderCounts := by
  obtain ⟨heven, hnext, -, hzero, hcodes⟩ := hc.1 hm he
  have hbusy : t.mode ≠ .idle := by
    rw [(matcherStep_keepsStatus h).mode]
    rcases hm with hm | hm <;> exact mode_ne_idle hm (by decide)
  refine ⟨fun _ _ => ?_, fun hidle => absurd hidle hbusy⟩
  rcases matcherStep_cases c s with ⟨hv, e⟩ | ⟨hv, k, -, e⟩ | ⟨hv, -, hroom, e⟩ | ⟨hv, -, hfull, e⟩
  all_goals
    rw [e] at h
    cases h
  · have := hzero hv
    simp
    omega
  · have := hcodes hv
    simp [hv]
    omega
  · have := hcodes hv
    have := next_succ hroom
    simp [hv]
    omega
  · have := hcodes hv
    simp [hv]
    omega

/-- The flush emits one last code exactly when a symbol was received (R144, R147). -/
theorem State.EncoderCounts.encEnd {s : State} (hc : s.EncoderCounts) (hm : s.mode = .enc) (he : s.err = .none) :
    (endOp (flush s)).EncoderCounts := by
  obtain ⟨heven, -, hfirst, hzero, hcodes⟩ := hc.1 (.inl hm) he
  refine ⟨by simp, fun _ _ _ _ => ?_⟩
  cases hv : s.wv with
  | false =>
    have := hzero hv
    have := hfirst.mp hv
    rw [flush_of_empty hv]
    simp
    omega
  | true =>
    have := hcodes hv
    rw [flush_of_working hv]
    simp
    omega

/-- Every row keeps the encoder's counters. -/
theorem encoderCounts_exec {i : Instr} {s t : State} (hi : s.Inv) (hc : s.EncoderCounts)
    (h : exec i s = .next t) : t.EncoderCounts := by
  have hop {m : Mode} (hm : s.mode = m) (hne : m ≠ .idle) : s.op = m := (hi.opMode (mode_ne_idle hm hne)).trans hm
  cases effect_of_next h with
  | unchanged | read | setRows | setCols => exact hc
  | startEnc | startDec | startDcmp | startCmp => exact encoderCounts_startOp _ s
  | encSymbol hm he h => exact hc.matcherStep (.inl hm) he h
  | cmpSymbol hm he h => exact hc.matcherStep (.inr hm) he h
  | decByte hm _ h => exact encoderCounts_of_decoding (.inl ((parserStep_keepsStatus h).mode.trans hm))
  | dcmpByte hm _ _ h => exact encoderCounts_of_decoding (.inr ((parserStep_keepsStatus h).mode.trans hm))
  | headerByte hm he hlt h =>
    exact encoderCounts_of_decoding (.inr ((headerStep_keepsStatus hm he hlt h).mode.trans hm))
  | header hm => exact encoderCounts_of_decoding (.inr hm)
  | code hp _ h =>
    refine encoderCounts_of_decoding ?_
    rw [(runCode_keepsStatus h).mode]
    exact hp.2.imp_right And.left
  | encEnd hm he => exact hc.encEnd hm he
  | decEnd hm =>
    refine encoderCounts_of_ended rfl (.inl ?_)
    split <;> simp [hop hm]
  | dcmpEnd hm =>
    refine encoderCounts_of_ended rfl (.inl ?_)
    split <;> simp [hop hm]
  | cmpEnd hm =>
    refine encoderCounts_of_ended rfl (.inl ?_)
    split <;> simp [(flush_keepsStatus s).op, hop hm]
  | drainEnd _ he => exact encoderCounts_of_ended rfl (.inr he)

/-- Settles O57: a row keeps the counters' invariant, and a `Reset` event leaves an idle core with no operation done. -/
theorem encoderCountsInvariant : Obligations.EncoderCountsInvariant := by
  refine ⟨encoderCounts_of_ended rfl (.inl nofun), fun s t hi hc h => ?_⟩
  rcases step_effect h with ⟨rfl, -⟩ | ⟨e, rest, -, ⟨-, rfl⟩ | ⟨x, i, -, -, hex⟩⟩
  · exact hc
  · exact encoderCounts_of_ended rfl (.inl nofun)
  · exact encoderCounts_exec (s := { s with pending := rest }) (hi.withPending rest) hc hex

end Sys2Proof.Machine
end

section
/-! A whole `ENC` and a whole `CMP` beside the source's `encode` and `compress` (41_encode.md R151, 43_frame.md R192). -/

namespace Sys2Proof.Machine

/-! ## The code left for the end beat -/

/-- The codes a flush still has to emit: the code of a working sequence (R144), none without one (R145). -/
def unflushed (s : State) : List Code := if s.wv then [s.w] else []

theorem streamBytes_append (ks js : List Code) : streamBytes (ks ++ js) = streamBytes ks ++ streamBytes js :=
  List.flatMap_append

/-- The flush emits and counts what is still to be emitted, and clears `WV`. -/
theorem flush_eq (s : State) : flush s = { s with
    outs := s.outs ++ (streamBytes (unflushed s)).map .out
    ocnt := s.ocnt + 2 * (unflushed s).length, wv := false } := by
  cases hv : s.wv with
  | true => simp [flush_of_working, hv, unflushed, streamBytes, emitCode, emitBytes]
  | false =>
    have hs : { s with wv := false } = s := by rw [← hv]
    simp [flush_of_empty, hv, unflushed, streamBytes, hs]

/-! ## The whole input taken -/

/-- The state `u` in which operation `m`, started in `s`, has taken all of `input` and runs its end beat: `codes` have
been emitted, and with the one still to be flushed they are the source's. -/
structure FedAll (m : Mode) (input : List Sym) (s u : State) (codes : List Code) : Prop where
  mode : u.mode = m
  op : u.op = m
  err : u.err = .none
  icnt : u.icnt = input.length
  ocnt : u.ocnt = 2 * codes.length
  rows : u.rows = s.rows
  cols : u.cols = s.cols
  source : Source.encode input = codes ++ unflushed u
  outs : u.outs = s.outs ++ (startBytes m s ++ streamBytes codes).map .out

/-- From a well-formed idle state an encoding operation takes its whole input; what is left is the row of its end
beat. -/
theorem runOperation_fedAll {s : State} {m : Mode} (hi : s.Inv) (hidle : s.mode = .idle)
    (hm : m = .enc ∨ m = .cmp) (input : List Sym) :
    ∃ u codes, FedAll m input s u codes ∧
      ∀ i, decodeEndMark u.ctx = .ok i → runOperation m input s = exec i u := by
  have hne : m ≠ .idle := by rcases hm with rfl | rfl <;> decide
  obtain ⟨u, codes, hrun, hmode, herr, hu, hpending, hicnt, hrows, hcols, hcodes, houts, hocnt⟩ :=
    stepN_symbols input
      (emitBytes (startBytes m s) (startOp m { s with pending := bytesIn input ++ [.endMark] }))
      Source.singletons [.endMark] (inv_startOp (hi.withPending _) m _) hm rfl (Tracks.start s.dict) rfl
  have hbusy : u.mode ≠ .idle := mode_ne_idle hmode hne
  refine ⟨{ u with pending := [] }, codes, ?_, fun i hrow => ?_⟩
  · exact {
      mode := hmode
      op := (hu.opMode hbusy).trans hmode
      err := herr
      icnt := by simpa using hicnt
      ocnt := by simpa using hocnt
      rows := hrows
      cols := hcols
      source := hcodes
      outs := by simpa using houts }
  · rw [runOperation, operationEvents, stepN_succ (step_start_emit hidle hne), stepN_add, hrun]
    exact (stepN_one u).trans (step_endMark hbusy hpending hrow)

section Fed

variable {m : Mode} {input : List Sym} {s u : State} {codes : List Code}

/-- An end beat with a flush has emitted the bytes of the source's code list. -/
theorem FedAll.outs_flushed (h : FedAll m input s u codes) : (endOp (flush u)).outs =
    s.outs ++ ((startBytes m s ++ streamBytes (Source.encode input)).map .out ++ [.outEnd .none]) := by
  simp [flush_eq, h.outs, h.err, h.source, streamBytes_append]

/-- An end beat with an error instead has emitted the codes before the last. -/
theorem FedAll.outs_raised (h : FedAll m input s u codes) (e : ErrCode) : (endOp (raiseError e 0 u)).outs =
    s.outs ++ ((startBytes m s ++ streamBytes codes).map .out ++ [.outEnd e]) := by
  simp [h.outs]

/-- The result of an operation that flushed: the source's bytes. -/
theorem FedAll.result_flushed (h : FedAll m input s u codes) (hm : m ≠ .dcmp) (out : List Sym) :
    operationResult (endOp (flush u)) (out.map .out ++ [.outEnd .none]) = some (.ok (.bytes out)) := by
  have hop : (endOp (flush u)).op = m := (flush_keepsStatus u).op.trans h.op
  rw [operationResult_closed, operationValue_bytes (hop ▸ hm), if_pos rfl]

end Fed

/-! ## Whole operations -/

/-- A whole `ENC` is the source's `encode`. -/
theorem runOperation_enc {s : State} (hi : s.Inv) (hidle : s.mode = .idle) (input : List Sym) :
    ∃ t o, runOperation .enc input s = .next t ∧ t.mode = .idle ∧ t.err = .none ∧
      t.icnt = input.length ∧ t.ocnt = 2 * (Source.encode input).length ∧ t.outs = s.outs ++ o ∧
      o = (streamBytes (Source.encode input)).map .out ++ [.outEnd .none] ∧
      operationResult t o = some (.ok (.bytes (streamBytes (Source.encode input)))) := by
  obtain ⟨u, codes, hfed, hrun⟩ := runOperation_fedAll hi hidle (.inl rfl) input
  rw [hrun _ ((decodeEndMark_row hfed.err).1 hfed.mode), exec_encEnd hfed.mode hfed.err]
  refine ⟨_, _, rfl, rfl, ?_, ?_, ?_, hfed.outs_flushed, rfl, hfed.result_flushed (by decide) _⟩
  · simp [flush_eq, hfed.err]
  · simp [flush_eq, hfed.icnt]
  · simp [flush_eq, hfed.ocnt, hfed.source, Nat.mul_add]

/-- A whole `CMP` is the source's `compress` when the samples fill the grid; otherwise it is `GridMismatch`, with
nothing flushed. -/
theorem runOperation_cmp {s : State} (hi : s.Inv) (hidle : s.mode = .idle) (samples : List Sym) :
    ∃ t o, runOperation .cmp samples s = .next t ∧ t.mode = .idle ∧ t.outs = s.outs ++ o ∧
      t.rows = s.rows ∧ t.cols = s.cols ∧
      (samples.length = s.rows.toNat * s.cols.toNat →
        operationResult t o = some (.ok (.bytes (Source.compress s.rows s.cols samples)))) ∧
      (samples.length ≠ s.rows.toNat * s.cols.toNat → operationResult t o = some (.error .gridMismatch)) := by
  obtain ⟨u, codes, hfed, hrun⟩ := runOperation_fedAll hi hidle (.inr rfl) samples
  rw [hrun _ ((decodeEndMark_row hfed.err).2.2.1 hfed.mode), exec_cmpEnd hfed.mode hfed.err, gridSize,
    hfed.icnt, hfed.rows, hfed.cols]
  by_cases hfull : samples.length = s.rows.toNat * s.cols.toNat
  · rw [if_neg (not_not_intro hfull)]
    have hframe := (flush_frame u).endOp
    exact ⟨_, _, rfl, rfl, hfed.outs_flushed, hframe.rows.trans hfed.rows, hframe.cols.trans hfed.cols,
      fun _ => hfed.result_flushed (by decide) _, fun hne => absurd hfull hne⟩
  · rw [if_pos hfull]
    exact ⟨_, _, rfl, rfl, hfed.outs_raised .gridMismatch, hfed.rows, hfed.cols, fun h => absurd h hfull,
      fun _ => operationResult_closed _ _ _⟩

/-- Settles O52: the run over the symbols keeps step with the source's loop, and the end beat flushes the code left. -/
theorem encoderRefinesSource : Obligations.EncoderRefinesSource :=
  ⟨fun _ input hi hm => runOperation_enc hi hm input, fun _ samples hi hm => runOperation_cmp hi hm samples⟩

end Sys2Proof.Machine
end

section
/-! The decoder's rules one by one (42_decode.md R160 to R170), `DEC.IN` and `DCMP.IN` together (43_frame.md R195). -/

namespace Sys2Proof.Machine

/-! ## A payload byte -/

/-- What the parser answers to a byte is what both rows that feed it answer. -/
theorem exec_payloadByte {s : State} {b : Sym} {r : Result} (he : s.err = .none) (h : parserStep b s = r) :
    (s.mode = .dec → exec (.decIn b) s = r) ∧ (s.mode = .dcmp → s.hcnt = 8#4 → exec (.dcmpIn b) s = r) :=
  ⟨fun hm => (exec_decIn hm he b).trans h, fun hm hc => (exec_dcmpIn_payload hm he hc b).trans h⟩

theorem parserStep_high {s : State} (h : s.hbv = false) (b : Sym) :
    parserStep b s = .next { countIn s with hb := b, hbv := true } :=
  if_neg (by simp [h])

theorem parserStep_low {s : State} (h : s.hbv = true) (b : Sym) :
    parserStep b s = runCode (codeOf s.hb b) { countIn s with hbv := false } :=
  if_pos h

/-- Settles O28: the parser's case with `HBV = 0`. -/
theorem decoderLatchesHighByte : Obligations.DecoderLatchesHighByte :=
  fun _ b he hb => exec_payloadByte he (parserStep_high hb b)

/-- Settles O29: the parser's case with `HBV = 1`; the code is run as the row it decodes to. -/
theorem decoderLowByteRunsTheCode : Obligations.DecoderLowByteRunsTheCode :=
  fun _ b he hb => exec_payloadByte he ((parserStep_low hb b).trans (runCode_eq_exec _ _))

/-! ## The row of a code (30_encoding.md R91) -/

theorem decodeCode_eq_lit (n : BitVec 17) {k : Code} (h : k.toNat < 256) : decodeCode n k = .lit (codeLow k) := by
  rw [decodeCode, classify_lit.mpr h]

theorem decodeCode_eq_ref {n : BitVec 17} {k : Code} (hlo : 256 ≤ k.toNat) (h : k.toNat < n.toNat) :
    decodeCode n k = .ref k := by
  rw [decodeCode, classify_ref.mpr ⟨hlo, h⟩]

theorem decodeCode_eq_kwk {n : BitVec 17} {k : Code} (hlo : 256 ≤ k.toNat) (h : k.toNat = n.toNat) :
    decodeCode n k = .kwk k := by
  rw [decodeCode, classify_kwk.mpr ⟨hlo, h⟩]

theorem decodeCode_eq_bad {n : BitVec 17} {k : Code} (hlo : 256 ≤ k.toNat) (h : n.toNat < k.toNat) :
    decodeCode n k = .bad k := by
  rw [decodeCode, classify_bad.mpr ⟨hlo, h⟩]

/-! ## The first code -/

theorem runCode_firstLiteral {s : State} (hp : InPayload s) (hv : s.wv = false) {k : Code} (hk : k.toNat < 256) :
    runCode k s = .next (firstLiteral (codeLow k) s) := by
  rw [runCode_eq_exec, decodeCode_eq_lit _ hk, exec_lit hp hk]
  exact if_neg (by simp [hv])

theorem runCode_firstNotLiteral {s : State} (hp : InPayload s) (hv : s.wv = false) {k : Code}
    (hk : 256 ≤ k.toNat) : runCode k s = .next (raiseUnderflow k s) := by
  have hn : ¬ s.wv = true := by simp [hv]
  rw [runCode_eq_exec]
  rcases Nat.lt_trichotomy k.toNat s.next.toNat with hlt | heq | hgt
  · rw [decodeCode_eq_ref hk hlt, exec_ref hp hk hlt]
    exact if_neg hn
  · rw [decodeCode_eq_kwk hk heq, exec_kwk hp hk heq]
    exact if_neg hn
  · rw [decodeCode_eq_bad hk hgt, exec_bad hp hk hgt]

/-- Settles O30: a literal with `WV = 0`. -/
theorem decoderFirstLiteral : Obligations.DecoderFirstLiteral := by
  intro s c he hm hv
  have hk : (literal c).toNat < 256 := by rw [literal_toNat]; exact c.isLt
  have h := runCode_firstLiteral ⟨he, hm⟩ hv hk
  rwa [runCode_eq_exec, decodeCode_eq_lit _ hk, codeLow_literal] at h

/-- Settles O31: each of the three dynamic classes with `WV = 0`. -/
theorem decoderFirstCodeNotLiteral : Obligations.DecoderFirstCodeNotLiteral := by
  intro s k he hm hv hk
  have h := runCode_firstNotLiteral ⟨he, hm⟩ hv hk
  rw [runCode_eq_exec] at h
  exact ⟨h, decodeCode_eq_ref hk, decodeCode_eq_kwk hk, decodeCode_eq_bad hk⟩

/-! ## A later code -/

/-- A later code that is present is an existing entry, of either row. -/
theorem exec_existing {s : State} {k : Code} {t : State} (hp : InPayload s) (hv : s.wv = true)
    (hk : k.toNat < s.next.toNat) (h : existingEntry k s = .next t) :
    (k.toNat < 256 → exec (.lit (codeLow k)) s = .next t) ∧ (256 ≤ k.toNat → exec (.ref k) s = .next t) := by
  refine ⟨fun hlit => ?_, fun hdyn => ?_⟩
  · rw [exec_lit hp hlit, if_pos hv, h]
  · rw [exec_ref hp hdyn hk, if_pos hv, h]

/-- Settles O32: the existing entry while there is room. -/
theorem decoderExistingEntry : Obligations.DecoderExistingEntry := by
  intro s k hi he hm hv hk hroom
  obtain ⟨c, l, hcl, hrun⟩ := existingEntry_room hi.chain hk hroom
  have hseq : seqOf s k = .ok (seqAt s.dict s.next.toNat k) := (hi.chain.eval hk).1
  rw [hcl] at hseq
  exact ⟨c, l, _, hseq, rfl, exec_existing ⟨he, hm⟩ hv hk hrun⟩

/-- Settles O33: the existing entry with the dictionary full, where every code is present. -/
theorem decoderExistingEntryFull : Obligations.DecoderExistingEntryFull := by
  intro s k hi he hm hv hfull
  have hk : k.toNat < s.next.toNat := hfull ▸ k.isLt
  obtain ⟨c, l, hcl, hseq, -⟩ := hi.sequence hk
  have hrun := existingEntry_full hi.chain hk (Nat.not_lt.mpr hfull.ge)
  rw [hcl] at hrun
  exact ⟨c :: l, _, hseq, nofun, rfl, exec_existing ⟨he, hm⟩ hv hk hrun⟩

/-- The code an entry is appended at stands for what the entry holds (10_state.md R24). -/
theorem Chain.seqAux_appended {d : Memory} {next : Nat} (h : Chain d next) {k w : Code} (c : Sym)
    (hw : w.toNat < next) (hk : k.toNat = next) (hlo : 256 ≤ k.toNat) :
    seqAux (d.set next ⟨w, c⟩) (next + 1) (k.toNat + 1) k = .ok (seqAt d next w ++ [c]) := by
  have hc : Chain (d.set next ⟨w, c⟩) (next + 1) := h.append ⟨w, c⟩ hw
  have hlt : k.toNat < next + 1 := by omega
  have hget : Memory.get (d.set next ⟨w, c⟩) k.toNat = some ⟨w, c⟩ := by rw [hk, Memory.get_set_self]
  rw [(hc.eval hlt).1, hc.seqAt_dyn hlo hlt hget, seqAt, h.seqAux_append _ _ hw, ← seqAt]

/-- Settles O34: the code `k = NEXT`; in the state after it is the code `(W, First(W))` was appended at. -/
theorem decoderNotYetDefined : Obligations.DecoderNotYetDefined := by
  intro s k hi he hm hv hk
  have hp : InPayload s := ⟨he, hm⟩
  have hlo : 256 ≤ k.toNat := hk ▸ hi.nextLow
  have hw : s.w.toNat < s.next.toNat := hi.working hv
  obtain ⟨c, l, hcl, hrun⟩ := undefinedYet_next hi.chain hw hk hi.nextLow
  have hseq : seqOf s s.w = .ok (seqAt s.dict s.next.toNat s.w) := (hi.chain.eval hw).1
  have happended := hi.chain.seqAux_appended c hw hk hlo
  rw [hcl] at hseq happended
  refine ⟨c, l, _, hseq, ?_, rfl, ?_⟩
  · rw [exec_kwk hp hlo hk, if_pos hv, hrun]
    rfl
  · show seqAux _ (s.next + 1#17).toNat _ k = _
    rw [next_succ (hk ▸ k.isLt), happended]

/-- Settles O35: a code above `NEXT` is dynamic, as `NEXT` is at least 256. -/
theorem decoderBadCode : Obligations.DecoderBadCode :=
  fun _ _ hi he hm _ hk => exec_bad ⟨he, hm⟩ (hi.nextLow.trans hk.le) hk

/-! ## The end beat -/

/-- Settles O36: the end beat with and without half a code; the counters' invariant says whether anything was
emitted (R174). -/
theorem decoderEnd : Obligations.DecoderEnd := by
  intro s hm he
  have hwhole (hb : s.hbv = false) : exec .decEnd s = .next { s with
      z := decide (s.ocnt = 0), done := true, mode := .idle, outs := s.outs ++ [.outEnd .none] } := by
    rw [exec_decEnd hm he, if_neg (by simp [hb]), ← he]
    rfl
  refine ⟨fun hb => ?_, fun hb hcounts hpos => ?_, fun hb hcounts hzero => ?_, hwhole⟩
  · rw [exec_decEnd hm he, if_pos hb]
    rfl
  · obtain ⟨hparity, -, -, hsymbols, -⟩ := hcounts.1 (.inl hm) he
    have heven : ¬ s.icnt % 2 = 1 := fun h => by simp [hparity.mpr h] at hb
    rw [hwhole hb, decide_eq_false (by omega)]
  · obtain ⟨-, hfirst, -, -, hnone⟩ := hcounts.1 (.inl hm) he
    rw [hwhole hb, decide_eq_true (hnone (hfirst.mpr (by rw [hzero])))]

end Sys2Proof.Machine
end

section
/-! The decoder's counters (42_decode.md R174) along every row a step can run. -/

namespace Sys2Proof.Machine

/-! ## The rows that events decode to -/

theorem encode_decodeCode (n : BitVec 17) (k : Code) : ∃ j, encode (decodeCode n k) = .code16 j := by
  unfold decodeCode
  cases classify n k
  all_goals exact ⟨_, rfl⟩

/-- No event is a code word: a code travels as two data beats (30_encoding.md R90). -/
theorem decode_event_not_code {c : Ctx} {e : Event} {x : Encoding} (hx : e.encoding = some x) (n : BitVec 17)
    (k : Code) : decode c x ≠ .ok (decodeCode n k) := by
  intro hd
  obtain ⟨j, hj⟩ := encode_decodeCode n k
  have row_code {y : Encoding} (hr : EncodesRow c y (decodeCode n k)) : y = .code16 j := hr.encode_eq.symm.trans hj
  cases e with
  | reset => cases hx
  | regRead off =>
    cases hx
    cases row_code (encodesRow_read hd)
  | regWrite off v =>
    cases hx
    rw [decode_regWrite] at hd
    rcases encodesRow_write hd with ⟨-, hr⟩ | hr <;> cases row_code hr
  | inByte b =>
    cases hx
    rw [decode_inByte] at hd
    cases row_code (encodesRow_inByte hd)
  | endMark =>
    cases hx
    rw [decode_endMark] at hd
    cases row_code (encodesRow_endMark hd)

/-! ## Where nothing is said of the decoder -/

theorem decoderCounts_of_encoding {t : State} (hm : t.mode = .enc ∨ t.mode = .cmp) : t.DecoderCounts := by
  constructor
  · rintro (h | h) <;> rcases hm with hm | hm <;> cases hm.symm.trans h
  · intro h
    rcases hm with hm | hm <;> cases hm.symm.trans h

/-- Once a fault is latched nothing is said. -/
theorem decoderCounts_of_fault {t : State} (he : t.err ≠ .none) : t.DecoderCounts :=
  ⟨fun _ h => absurd h he, fun _ _ _ h => absurd h he⟩

/-- After an operation that was no `DEC` nothing is said. -/
theorem decoderCounts_of_ended {t : State} (hm : t.mode = .idle) (ho : t.op ≠ .dec) : t.DecoderCounts := by
  constructor
  · rintro (h | h) <;> cases hm.symm.trans h
  · exact fun _ _ h => absurd h ho

/-! ## The rows that keep the counters -/

/-- START clears the counters and empties the dictionary (40_commands.md R123). -/
theorem decoderCounts_startOp (m : Mode) (s : State) : (startOp m s).DecoderCounts :=
  ⟨fun _ _ => ⟨by simp, by simp, by simp, by simp, fun _ => rfl⟩, fun _ => nofun⟩

/-- A header byte is not counted (43_frame.md R193). -/
theorem State.DecoderCounts.headerStep {s t : State} {b : Sym} (hc : s.DecoderCounts) (hm : s.mode = .dcmp)
    (he : s.err = .none) (hlt : s.hcnt.toNat < 8) (h : headerStep b s = .next t) : t.DecoderCounts := by
  rw [headerStep_next hm he hlt] at h
  cases h
  split <;> exact hc

/-- What a code that is no fault has done to the counters from `s` to `t`: it has emitted something, and every code
but the first has appended an entry while there was room. -/
structure CodeCounted (s t : State) : Prop where
  wv : t.wv = true
  hbv : t.hbv = s.hbv
  icnt : t.icnt = s.icnt
  ocnt : s.ocnt < t.ocnt
  nextFirst : s.wv = false → t.next = s.next
  nextLater : s.wv = true → t.next.toNat = min (s.next.toNat + 1) 65536

/-- A code latches a fault or is counted (R162 to R167). -/
theorem runCode_counted {s t : State} {k : Code} (hi : s.Inv) (hp : InPayload s) (h : runCode k s = .next t) :
    t.err ≠ .none ∨ CodeCounted s t := by
  have hhi := hi.nextHigh
  rcases runCode_cases hp hi.chain hi.nextLow hi.working k with
    ⟨hv, -, e⟩ | ⟨-, e⟩ | ⟨hv, -, c, l, -, ⟨hroom, e⟩ | ⟨hfull, e⟩⟩ | ⟨hv, hkn, c, l, -, e⟩
  all_goals
    rw [e] at h
    cases h
  · exact .inr ⟨rfl, rfl, rfl, Nat.lt_succ_self _, fun _ => rfl, fun h => nomatch hv.symm.trans h⟩
  · exact .inl nofun
  all_goals
    refine .inr ⟨hv, rfl, rfl, Nat.lt_add_of_pos_right (Nat.succ_pos _), fun h => (nomatch hv.symm.trans h),
      fun _ => ?_⟩
  · show (s.next + 1#17).toNat = _
    rw [next_succ hroom]
    omega
  · show s.next.toNat = _
    omega
  · have hroom : s.next.toNat < 65536 := hkn ▸ k.isLt
    show (s.next + 1#17).toNat = _
    rw [next_succ hroom]
    omega

/-- The low byte of a code makes `ICNT` even, and the code is counted. -/
theorem State.DecoderCounts.runCode {s t : State} {k : Code} (hc : s.DecoderCounts) (hi : s.Inv)
    (hp : InPayload s) (hb : s.hbv = true) (h : runCode k { countIn s with hbv := false } = .next t) :
    t.DecoderCounts := by
  obtain ⟨hparity, hfirst, hnext, hsymbols, -⟩ := hc.1 (hp.2.imp_right And.left) hp.1
  have hodd := hparity.mp hb
  have hbusy : t.mode ≠ .idle := by
    rw [(runCode_keepsStatus h).mode]
    exact hp.not_idle
  have hi' : State.Inv { countIn s with hbv := false } := { hi with halfOwner := nofun }
  rcases runCode_counted hi' hp h with hfault | ⟨hv, hb', hicnt, hocnt, hnextFirst, hnextLater⟩
  · exact decoderCounts_of_fault hfault
  · change t.icnt = s.icnt + 1 at hicnt
    change s.ocnt < t.ocnt at hocnt
    have heven : t.icnt % 2 = 0 := by omega
    have hcodes : t.icnt / 2 = s.icnt / 2 + 1 := by omega
    have hnext' : t.next.toNat = max 256 (min (255 + t.icnt / 2) 65536) := by
      cases hw : s.wv with
      | false =>
        have hnone := hfirst.mp hw
        rw [hnextFirst hw]
        exact hnext.trans (by omega)
      | true =>
        have hsome : s.icnt / 2 ≠ 0 := fun h0 => nomatch (hfirst.mpr h0).symm.trans hw
        have hsucc : t.next.toNat = min (s.next.toNat + 1) 65536 := hnextLater hw
        omega
    refine ⟨fun _ _ => ⟨?_, ?_, hnext', by omega, fun h => nomatch hv.symm.trans h⟩,
      fun hidle => absurd hidle hbusy⟩
    · simp [hb', heven]
    · simp [hv, hcodes]

/-- A payload byte is counted: a high byte sets `HBV` (R160), a low byte completes a code (R161). -/
theorem State.DecoderCounts.parserStep {s t : State} {b : Sym} (hc : s.DecoderCounts) (hi : s.Inv)
    (hp : InPayload s) (h : parserStep b s = .next t) : t.DecoderCounts := by
  rcases parserStep_effect h with ⟨hb, rfl⟩ | ⟨hb, hrun⟩
  · obtain ⟨hparity, hfirst, hnext, hsymbols, hnone⟩ := hc.1 (hp.2.imp_right And.left) hp.1
    have heven : s.icnt % 2 ≠ 1 := fun h1 => nomatch (hparity.mpr h1).symm.trans hb
    have hcodes : (s.icnt + 1) / 2 = s.icnt / 2 := by omega
    refine ⟨fun _ _ => ?_, fun hidle => absurd hidle hp.not_idle⟩
    rw [← hcodes] at hfirst hnext hsymbols
    exact ⟨iff_of_true rfl (show (s.icnt + 1) % 2 = 1 by omega), hfirst, hnext, hsymbols, hnone⟩
  · exact hc.runCode hi hp hb hrun

/-- The end of a fault-free `DEC` (R169, R170). -/
theorem State.DecoderCounts.decEnd {s : State} (hc : s.DecoderCounts) (hm : s.mode = .dec) (he : s.err = .none) :
    (endOp (if s.hbv then raiseError .malformedStream 0 s else s)).DecoderCounts := by
  obtain ⟨hparity, hfirst, -, hsymbols, hnone⟩ := hc.1 (.inl hm) he
  split
  · exact decoderCounts_of_fault nofun
  · rename_i hb
    have heven : s.icnt % 2 ≠ 1 := fun h1 => hb (hparity.mpr h1)
    have hempty : s.icnt / 2 = 0 → s.ocnt = 0 := fun h0 => hnone (hfirst.mpr h0)
    refine ⟨by simp, fun _ _ _ _ => ?_⟩
    simp
    omega

/-- Every row but a code word's keeps the counters: a code is counted by the beats that bring it. -/
theorem decoderCounts_exec {i : Instr} {s t : State} (hi : s.Inv) (hc : s.DecoderCounts)
    (hcode : ∀ k, i ≠ decodeCode s.next k) (h : exec i s = .next t) : t.DecoderCounts := by
  have hop {m : Mode} (hm : s.mode = m) (hne : m ≠ .idle) : s.op = m := (hi.opMode (mode_ne_idle hm hne)).trans hm
  cases effect_of_next h with
  | unchanged | read | setRows | setCols | header => exact hc
  | startEnc | startDec | startDcmp | startCmp => exact decoderCounts_startOp _ s
  | encSymbol hm _ h => exact decoderCounts_of_encoding (.inl ((matcherStep_keepsStatus h).mode.trans hm))
  | cmpSymbol hm _ h => exact decoderCounts_of_encoding (.inr ((matcherStep_keepsStatus h).mode.trans hm))
  | decByte hm he h => exact hc.parserStep hi ⟨he, .inl hm⟩ h
  | dcmpByte hm he hlt h => exact hc.parserStep hi ⟨he, .inr ⟨hm, hi.hcnt_eq hlt⟩⟩ h
  | headerByte hm he hlt h => exact hc.headerStep hm he hlt h
  | code _ hk => exact absurd hk (hcode _)
  | decEnd hm he => exact hc.decEnd hm he
  | encEnd hm =>
    refine decoderCounts_of_ended rfl ?_
    simp [(flush_keepsStatus s).op, hop hm]
  | cmpEnd hm =>
    refine decoderCounts_of_ended rfl ?_
    split <;> simp [(flush_keepsStatus s).op, hop hm]
  | dcmpEnd hm =>
    refine decoderCounts_of_ended rfl ?_
    split <;> simp [hop hm]
  | drainEnd _ he => exact decoderCounts_of_fault he

/-- Settles O58: a row that an event decodes to keeps the counters, and a `Reset` event leaves an idle core with no
operation done. -/
theorem decoderCountsInvariant : Obligations.DecoderCountsInvariant := by
  refine ⟨decoderCounts_of_ended rfl nofun, fun s t hi hc h => ?_⟩
  rcases step_effect h with ⟨rfl, -⟩ | ⟨e, rest, -, ⟨-, rfl⟩ | ⟨x, i, hx, hd, hex⟩⟩
  · exact hc
  · exact decoderCounts_of_ended rfl nofun
  · exact decoderCounts_exec (s := { s with pending := rest }) (hi.withPending rest) hc
      (fun k hk => decode_event_not_code hx _ k (hk ▸ hd)) hex

end Sys2Proof.Machine
end

section
/-! A whole `DEC` and a whole `DCMP` beside the source's `decode` and `decompress` (42_decode.md R175, 43_frame.md
R196, R197), and the round trip (R173). -/

namespace Sys2Proof.Machine

/-! ## The first code beside the source's -/

theorem singletons_get_code {k : Code} (h : k.toNat < 256) : Source.singletons[k.toNat]? = some [codeLow k] :=
  ((Tracks.start []).get k h).trans (congrArg some (seqAt_lit _ _ h))

theorem decode_cons_literal {k : Code} (h : k.toNat < 256) (ks : List Code) :
    Source.decode (k :: ks) = (Source.decodeLoop Source.singletons [codeLow k] ks).map (codeLow k :: ·) := by
  simp only [Source.decode, singletons_get_code h]
  cases Source.decodeLoop Source.singletons [codeLow k] ks <;> rfl

theorem decode_cons_dynamic {k : Code} (h : 256 ≤ k.toNat) (ks : List Code) :
    Source.decode (k :: ks) = .error k := by
  rw [Source.decode, List.getElem?_eq_none (by rwa [Source.singletons_length])]

/-- The working sequence after a first literal (R162). -/
theorem workSeq_firstLiteral (s : State) {k : Code} (h : k.toNat < 256) :
    workSeq (firstLiteral (codeLow k) s) = [codeLow k] := by
  simp [workSeq, firstLiteral, literal_codeLow h, seqAt_lit _ _ h]

/-! ## A whole payload -/

/-- A payload that holds the codes `ks` has been taken from `s` to `t` and `o` has been emitted: the source's symbols,
or a fault at the source's code. -/
structure Decoded (ks : List Code) (s t : State) (o : List Sym) : Prop where
  mode : t.mode = s.mode
  hcnt : t.hcnt = s.hcnt
  hbv : t.hbv = false
  rows : t.rows = s.rows
  cols : t.cols = s.cols
  outs : t.outs = s.outs ++ o.map .out
  ok : ∀ l, Source.decode ks = .ok l →
    t.err = .none ∧ o = l ∧ t.ocnt = s.ocnt + l.length ∧ t.icnt = s.icnt + 2 * ks.length
  error : ∀ k, Source.decode ks = .error k → t.err = .dictionaryUnderflow ∧ t.errinfo = k.setWidth 32

/-- The two bytes of code `k` have been taken and `rest` is still to come; the code is not executed yet (R160, R161). -/
def takeCode (k : Code) (rest : List Event) (s : State) : State :=
  { s with pending := rest, icnt := s.icnt + 2, hb := codeHigh k, hbv := false }

theorem takeCode_inv {s : State} (hi : s.Inv) (k : Code) (rest : List Event) : (takeCode k rest s).Inv :=
  { hi with halfOwner := nofun }

section Payload

variable {s : State} {k : Code} {rest : List Event}

/-- A payload that begins with a literal: the rest is later codes, from the singletons on. -/
theorem stepN_afterLiteral (ks : List Code) (hi : s.Inv) (hp : InPayload s) (hv : s.wv = false) (hk : k.toNat < 256) :
    ∃ t o, andThen (runCode k (takeCode k (bytesIn (streamBytes ks) ++ rest) s)) (stepN (streamBytes ks).length) =
      .next t ∧ t.pending = rest ∧ Decoded (k :: ks) s t o := by
  have hinv := takeCode_inv hi k (bytesIn (streamBytes ks) ++ rest)
  have hrun := runCode_firstLiteral (s := takeCode k (bytesIn (streamBytes ks) ++ rest) s) hp hv hk
  have hnext : s.next.toNat = 256 := hi.firstCode hp.not_idle hv
  have htracks : Tracks s.dict s.next.toNat Source.singletons := hnext ▸ Tracks.start s.dict
  obtain ⟨t, o, hstep, hmode, hhcnt, hpending, hrows, hcols, houts, hhbv, hok, herror⟩ :=
    stepN_codes ks (firstLiteral (codeLow k) (takeCode k (bytesIn (streamBytes ks) ++ rest) s)) Source.singletons rest
      (inv_runCode hinv hp hrun) hp.2 hp.1 rfl rfl htracks rfl
  rw [workSeq_firstLiteral _ hk] at hok herror
  rw [hrun, andThen_next, hstep]
  refine ⟨t, codeLow k :: o, rfl, hpending, hmode, hhcnt, hhbv, hrows, hcols, ?_, ?_, ?_⟩
  · rw [houts]
    simp [firstLiteral, takeCode]
  · intro l hl
    rw [decode_cons_literal hk] at hl
    cases hloop : Source.decodeLoop Source.singletons [codeLow k] ks with
    | error j => rw [hloop] at hl; cases hl
    | ok l' =>
      rw [hloop] at hl
      cases hl
      obtain ⟨herr, rfl, hocnt, hicnt⟩ := hok l' hloop
      refine ⟨herr, rfl, hocnt.trans ?_, hicnt.trans ?_⟩
      · show s.ocnt + 1 + _ = _
        rw [List.length_cons]
        omega
      · show s.icnt + 2 + _ = _
        rw [List.length_cons]
        omega
  · intro j hj
    rw [decode_cons_literal hk] at hj
    cases hloop : Source.decodeLoop Source.singletons [codeLow k] ks with
    | error j' => rw [hloop] at hj; cases hj; exact herror _ hloop
    | ok l' => rw [hloop] at hj; cases hj

/-- A payload that begins with another code: the fault is latched and the rest drained (R163, 40_commands.md R133). -/
theorem stepN_afterDynamic (ks : List Code) (hp : InPayload s) (hv : s.wv = false) (hk : 256 ≤ k.toNat) :
    ∃ t, andThen (runCode k (takeCode k (bytesIn (streamBytes ks) ++ rest) s)) (stepN (streamBytes ks).length) =
      .next t ∧ t.pending = rest ∧ Decoded (k :: ks) s t [] := by
  have hsource := decode_cons_dynamic hk ks
  rw [runCode_firstNotLiteral (s := takeCode k (bytesIn (streamBytes ks) ++ rest) s) hp hv hk, andThen_next,
    stepN_drain (streamBytes ks) (raiseUnderflow k (takeCode k (bytesIn (streamBytes ks) ++ rest) s)) rest
      hp.not_idle nofun rfl]
  refine ⟨_, rfl, rfl, rfl, rfl, rfl, rfl, rfl, (List.append_nil _).symm, fun l hl => ?_, fun j hj => ?_⟩
  · cases hsource.symm.trans hl
  · cases hsource.symm.trans hj
    exact ⟨rfl, rfl⟩

/-- The bytes of a whole payload, from a state that has met no code of it yet. -/
theorem stepN_payload (ks : List Code) (hi : s.Inv) (hp : InPayload s) (hb : s.hbv = false) (hv : s.wv = false)
    (hpending : s.pending = bytesIn (streamBytes ks) ++ rest) :
    ∃ t o, stepN (streamBytes ks).length s = .next t ∧ t.pending = rest ∧ Decoded ks s t o := by
  cases ks with
  | nil =>
    refine ⟨s, [], rfl, hpending, rfl, rfl, hb, rfl, rfl, (List.append_nil _).symm, fun l hl => ?_, nofun⟩
    cases hl
    exact ⟨hp.1, rfl, rfl, rfl⟩
  | cons k ks =>
    have hcode : stepN ((streamBytes ks).length + 2) s =
        andThen (runCode k (takeCode k (bytesIn (streamBytes ks) ++ rest) s)) (stepN (streamBytes ks).length) :=
      stepN_code hp.2 hp.1 hb (by simpa [streamBytes, bytesIn, codeIn] using hpending) _
    have hlen : (streamBytes (k :: ks)).length = (streamBytes ks).length + 2 := by
      simp [streamBytes_length, Nat.mul_add]
    rw [hlen, hcode]
    by_cases hk : k.toNat < 256
    · exact stepN_afterLiteral ks hi hp hv hk
    · obtain ⟨t, h⟩ := stepN_afterDynamic ks hp hv (Nat.not_lt.mp hk)
      exact ⟨t, [], h⟩

end Payload

/-! ## The end beat -/

/-- An end beat after a fault runs the drain row (40_commands.md R133, R135). -/
theorem decodeEndMark_drain {s : State} (hm : s.mode ≠ .idle) (he : s.err ≠ .none) :
    decodeEndMark s.ctx = .ok .drainEnd := by
  unfold decodeEndMark State.ctx
  cases h : s.mode with
  | idle => exact absurd h hm
  | enc | dec | cmp | dcmp => simp [he]

theorem inv_stepN {n : Nat} : ∀ {s t : State}, s.Inv → stepN n s = .next t → t.Inv := by
  induction n with
  | zero =>
    intro s t hi h
    cases h
    exact hi
  | succ n ih =>
    intro s t hi h
    obtain ⟨u, hstep, hrest⟩ := andThen_eq_next.mp h
    exact ih (inv_step hi hstep) hrest

/-! ## Whole operations -/

/-- The START of a decoding operation `m` has been taken, its input is still to come. -/
def started (m : Mode) (input : List Sym) (s : State) : State :=
  startOp m { s with pending := bytesIn input ++ [.endMark] }

theorem started_inv {s : State} (hi : s.Inv) (m : Mode) (input : List Sym) : (started m input s).Inv := by
  have h := inv_startOp (hi.withPending (bytesIn input ++ [.endMark])) m []
  rwa [emitBytes_nil] at h

/-- A whole operation is its START, the run over its input, and the row of its end beat. -/
theorem runOperation_of_stepN {m : Mode} {input : List Sym} {s u : State} {i : Instr} (hidle : s.mode = .idle)
    (hm : m = .dec ∨ m = .dcmp) (hrun : stepN input.length (started m input s) = .next u)
    (hpending : u.pending = [.endMark]) (hbusy : u.mode ≠ .idle) (hrow : decodeEndMark u.ctx = .ok i) :
    runOperation m input s = exec i { u with pending := [] } := by
  have hne : m ≠ .idle := by rcases hm with rfl | rfl <;> decide
  have hsilent : startBytes m s = [] := by rcases hm with rfl | rfl <;> rfl
  rw [runOperation, operationEvents, stepN_succ (step_start_emit hidle hne), hsilent, emitBytes_nil, stepN_add]
  exact (congrArg (andThen · _) hrun).trans ((stepN_one u).trans (step_endMark hbusy hpending hrow))

/-- A START, and the bytes `pre` of the input, have opened a payload in `s₁`: the rest of the input is decoded, and
what is left is the row of the end beat. -/
theorem runOperation_decoded {m : Mode} {pre : List Sym} {ks : List Code} {s s₁ : State} (hi : s.Inv)
    (hidle : s.mode = .idle) (hm : m = .dec ∨ m = .dcmp)
    (hopen : stepN pre.length (started m (pre ++ streamBytes ks) s) = .next s₁)
    (hpending : s₁.pending = bytesIn (streamBytes ks) ++ [.endMark]) (hp : InPayload s₁) (hb : s₁.hbv = false)
    (hv : s₁.wv = false) :
    ∃ u o, Decoded ks s₁ u o ∧ u.op = s₁.mode ∧
      ∀ i, decodeEndMark u.ctx = .ok i → runOperation m (pre ++ streamBytes ks) s = exec i u := by
  have hi₁ : s₁.Inv := inv_stepN (started_inv hi m _) hopen
  obtain ⟨u, o, hstep, hlast, hdec⟩ := stepN_payload ks hi₁ hp hb hv hpending
  have hbusy : u.mode ≠ .idle := hdec.mode ▸ hp.not_idle
  refine ⟨{ u with pending := [] }, o, { hdec with }, ?_, fun i hrow => ?_⟩
  · exact ((inv_stepN hi₁ hstep).opMode hbusy).trans hdec.mode
  · refine runOperation_of_stepN hidle hm ?_ hlast hbusy hrow
    rw [List.length_append, stepN_add, hopen]
    exact hstep

/-- A whole `DEC` is the source's `decode`: its end beat carries what the codes have latched. -/
theorem runOperation_dec {s : State} (hi : s.Inv) (hidle : s.mode = .idle) (ks : List Code) :
    ∃ t o, runOperation .dec (streamBytes ks) s = .next t ∧ t.mode = .idle ∧ t.outs = s.outs ++ o ∧
      (∀ l, Source.decode ks = .ok l →
        t.err = .none ∧ t.ocnt = l.length ∧ o = l.map .out ++ [.outEnd .none] ∧
        operationResult t o = some (.ok (.bytes l))) ∧
      (∀ k, Source.decode ks = .error k → t.err = .dictionaryUnderflow ∧ t.errinfo = k.setWidth 32 ∧
        operationResult t o = some (.error .dictionaryUnderflow)) := by
  obtain ⟨u, o, hdec, hop, hend⟩ :=
    runOperation_decoded (pre := []) (ks := ks) hi hidle (.inl rfl) rfl rfl ⟨rfl, .inl rfl⟩ rfl rfl
  have hmode : u.mode = .dec := hdec.mode
  have hbusy : u.mode ≠ .idle := mode_ne_idle hmode nofun
  have hrun : runOperation .dec (streamBytes ks) s = .next (endOp u) := by
    by_cases he : u.err = .none
    · refine (hend _ ((decodeEndMark_row he).2.1 hmode)).trans ?_
      rw [exec_decEnd hmode he, if_neg (by simp [hdec.hbv])]
    · exact (hend _ (decodeEndMark_drain hbusy he)).trans (exec_drainEnd hbusy he)
  have hbytes : operationValue (endOp u) o = .bytes o := operationValue_bytes (by rw [endOp_op, hop]; nofun) o
  refine ⟨endOp u, o.map .out ++ [.outEnd u.err], hrun, rfl, ?_, fun l hl => ?_, fun k hk => ?_⟩
  · rw [endOp_outs, hdec.outs, List.append_assoc]
    rfl
  · obtain ⟨he, rfl, hocnt, -⟩ := hdec.ok l hl
    exact ⟨he, hocnt.trans (Nat.zero_add _), by rw [he], by rw [operationResult_closed, if_pos he, hbytes]⟩
  · obtain ⟨he, hinfo⟩ := hdec.error k hk
    exact ⟨he, hinfo, by rw [operationResult_closed, he]; rfl⟩

/-- The header of a `DCMP` opens its payload: `ROWS` and `COLS` are set, and nothing has been counted yet (43_frame.md
R193, R194). -/
theorem stepN_openFrame (r c : Word) (ks : List Code) (s : State) :
    stepN (hdrBytes r c).length (started .dcmp (frameBytes r c ks) s) =
      .next { started .dcmp (streamBytes ks) s with hdr := r ++ c, hcnt := 8#4, rows := r, cols := c } := by
  have hpending : (started .dcmp (frameBytes r c ks) s).pending =
      hdrIn r c ++ (bytesIn (streamBytes ks) ++ [.endMark]) := by
    simp [started, frameBytes, bytesIn, hdrIn]
  exact (headerWordIsItsEightBytes.2 _ r c _ rfl rfl rfl hpending).trans
    (exec_hdr (s := started .dcmp (streamBytes ks) s) rfl rfl (show 0 < 8 by decide) r c)

/-- The checks at the end of a frame (R196) are the source's, once the codes are decoded without a fault. -/
theorem decompress_eq_frameCheck {ks : List Code} {s u : State} {o l : List Sym} (hdec : Decoded ks s u o)
    (hh : s.hcnt = 8#4) (hi : s.icnt = 0) (ho : s.ocnt = 0) (hl : Source.decode ks = .ok l) :
    Source.decompress s.rows s.cols ks =
      if frameCheck u = .none then .ok (.grid l s.rows s.cols) else .error (frameCheck u) := by
  obtain ⟨-, -, hocnt, hicnt⟩ := hdec.ok l hl
  have hempty : u.icnt = 0 ↔ ks = [] := by
    rw [hicnt, hi, ← List.length_eq_zero_iff]
    omega
  have hheader : ¬ u.hcnt.toNat < Config.hdrBytes := by rw [hdec.hcnt, hh]; decide
  have hcheck : frameCheck u =
      if ks = [] ∧ 0 < s.rows.toNat * s.cols.toNat then .malformedStream
      else if l.length ≠ s.rows.toNat * s.cols.toNat then .sizeMismatch else .none := by
    rw [frameCheck, if_neg hheader, if_neg (by simp [hdec.hbv]), gridSize, hdec.rows, hdec.cols, hocnt, ho,
      Nat.zero_add]
    simp only [hempty]
  rw [hcheck]
  simp only [Source.decompress, hl]
  by_cases hmissing : ks = [] ∧ 0 < s.rows.toNat * s.cols.toNat
  · rw [if_pos hmissing, if_pos hmissing]
    rfl
  · by_cases hsize : l.length ≠ s.rows.toNat * s.cols.toNat
    · rw [if_neg hmissing, if_neg hmissing, if_pos hsize, if_pos hsize]
      rfl
    · rw [if_neg hmissing, if_neg hmissing, if_neg hsize, if_neg hsize]
      rfl

/-- The end beat of a `DCMP` ends it with the source's error, or with none. -/
theorem exec_dcmp_endBeat {ks : List Code} {s u : State} {o : List Sym} (hdec : Decoded ks s u o)
    (hm : s.mode = .dcmp) (hh : s.hcnt = 8#4) (hi : s.icnt = 0) (ho : s.ocnt = 0) :
    ∃ i e info, decodeEndMark u.ctx = .ok i ∧ exec i u = .next (endOp (raiseError e info u)) ∧
      Source.decompress s.rows s.cols ks = if e = .none then .ok (.grid o s.rows s.cols) else .error e := by
  have hmode : u.mode = .dcmp := hdec.mode.trans hm
  cases hsource : Source.decode ks with
  | error k =>
    have hbusy : u.mode ≠ .idle := mode_ne_idle hmode nofun
    have hunderflow : u.err = .dictionaryUnderflow := (hdec.error k hsource).1
    have he : u.err ≠ .none := hunderflow ▸ nofun
    refine ⟨_, u.err, u.errinfo, decodeEndMark_drain hbusy he, exec_drainEnd hbusy he, ?_⟩
    rw [if_neg he, hunderflow, Source.decompress, hsource]
  | ok l =>
    obtain ⟨he, rfl, -, -⟩ := hdec.ok l hsource
    have hrow := (decodeEndMark_row he).2.2.2 hmode
    have hsame := decompress_eq_frameCheck hdec hh hi ho hsource
    by_cases hcheck : frameCheck u = .none
    · refine ⟨_, u.err, u.errinfo, hrow, ?_, ?_⟩
      · rw [exec_dcmpEnd hmode he, if_pos hcheck]
        rfl
      · rw [hsame, if_pos hcheck, if_pos he]
    · refine ⟨_, frameCheck u, 0, hrow, ?_, hsame⟩
      rw [exec_dcmpEnd hmode he, if_neg hcheck]

/-- A whole `DCMP` is the source's `decompress`. -/
theorem runOperation_dcmp {s : State} (hi : s.Inv) (hidle : s.mode = .idle) (r c : Word) (ks : List Code) :
    ∃ t o, runOperation .dcmp (frameBytes r c ks) s = .next t ∧ t.mode = .idle ∧ t.outs = s.outs ++ o ∧
      t.rows = r ∧ t.cols = c ∧ operationResult t o = some (Source.decompress r c ks) := by
  obtain ⟨u, o, hdec, hop, hend⟩ := runOperation_decoded (ks := ks) hi hidle (.inr rfl)
    (stepN_openFrame r c ks s) rfl ⟨rfl, .inr ⟨rfl, rfl⟩⟩ rfl rfl
  obtain ⟨i, e, info, hrow, hexec, hsource⟩ := exec_dcmp_endBeat hdec rfl rfl rfl rfl
  refine ⟨_, o.map .out ++ [.outEnd e], (hend i hrow).trans hexec, rfl, ?_, hdec.rows, hdec.cols, ?_⟩
  · rw [endOp_outs, raiseError_outs, hdec.outs, List.append_assoc]
    rfl
  · rw [operationResult_closed, operationValue_dcmp (by rw [endOp_op, raiseError_op, hop]; rfl), endOp_rows,
      endOp_cols, raiseError_rows, raiseError_cols, hdec.rows, hdec.cols, ← hsource]

/-- Settles O53: the run over the codes keeps step with the source's loop, and the end beat carries the source's
error. -/
theorem decoderRefinesSource : Obligations.DecoderRefinesSource :=
  ⟨fun _ ks hi hm => runOperation_dec hi hm ks, fun _ r c ks hi hm => runOperation_dcmp hi hm r c ks⟩

/-- Settles O54: both operations are the source's, and its decoder undoes its encoder. -/
theorem roundTrip : Obligations.RoundTrip := by
  intro s s' input hi hidle hi' hidle'
  obtain ⟨t, o, hrun, -, -, -, -, houts, -, hresult⟩ := runOperation_enc hi hidle input
  obtain ⟨t', o', hrun', -, houts', hok, -⟩ := runOperation_dec hi' hidle' (Source.encode input)
  obtain ⟨herr, -, -, hresult'⟩ := hok input (Source.decode_encode input)
  exact ⟨t, o, _, t', o', hrun, houts, hresult, hrun', houts', herr, hresult'⟩

end Sys2Proof.Machine
end

section
/-! The framed operations (43_frame.md): the header bytes and the end beats one by one, the grid and the ratio of the
host, and the framed round trip (R199). -/

namespace Sys2Proof.Machine

/-! ## The framed round trip (R199) -/

/-- The source's decompressor undoes its compressor on the samples of a grid: an empty code list stands for no sample,
so it is no missing payload. -/
theorem decompress_encode {r c : Word} {samples : List Sym} (hfull : samples.length = r.toNat * c.toNat) :
    Source.decompress r c (Source.encode samples) = .ok (.grid samples r c) := by
  have hdecode := Source.decode_encode samples
  have hpayload : ¬ (Source.encode samples = [] ∧ 0 < r.toNat * c.toNat) := by
    rintro ⟨hnil, hpos⟩
    rw [hnil] at hdecode
    cases hdecode
    exact hpos.ne hfull
  rw [Source.decompress, hdecode]
  exact (if_neg hpayload).trans (if_neg (not_not_intro hfull))

/-- A `CMP` whose samples fill the grid latches no error. -/
theorem err_of_runOperation_cmp {s t : State} {samples : List Sym} (hi : s.Inv) (hidle : s.mode = .idle)
    (hfull : samples.length = gridSize s) (h : runOperation .cmp samples s = .next t) : t.err = .none := by
  obtain ⟨u, codes, hfed, hrun⟩ := runOperation_fedAll hi hidle (.inr rfl) samples
  have hcount : u.icnt = gridSize u := by rw [hfed.icnt, hfull, gridSize, gridSize, hfed.rows, hfed.cols]
  rw [hrun _ ((decodeEndMark_row hfed.err).2.2.1 hfed.mode), exec_cmpEnd hfed.mode hfed.err,
    if_neg (not_not_intro hcount), flush_eq] at h
  cases h
  exact hfed.err

/-- A `DCMP` over a frame that the source decompresses latches no error. -/
theorem err_of_runOperation_dcmp {s t : State} {r c : Word} {ks : List Code} {v : OperationValue} (hi : s.Inv)
    (hidle : s.mode = .idle) (hok : Source.decompress r c ks = .ok v)
    (h : runOperation .dcmp (frameBytes r c ks) s = .next t) : t.err = .none := by
  obtain ⟨u, o, hdec, -, hend⟩ := runOperation_decoded (ks := ks) hi hidle (.inr rfl)
    (stepN_openFrame r c ks s) rfl ⟨rfl, .inr ⟨rfl, rfl⟩⟩ rfl rfl
  obtain ⟨i, e, info, hrow, hexec, hsource⟩ := exec_dcmp_endBeat hdec rfl rfl rfl rfl
  cases h.symm.trans ((hend i hrow).trans hexec)
  by_contra hne
  cases hok.symm.trans (hsource.trans (if_neg hne))

/-- Settles O55: both operations are the source's, and its decompressor undoes its compressor. -/
theorem framedRoundTrip : Obligations.FramedRoundTrip := by
  intro s s' samples hi hidle hi' hidle' hfull
  obtain ⟨t, o, hrun, -, houts, -, -, hframe, -⟩ := runOperation_cmp hi hidle samples
  obtain ⟨t', o', hrun', -, houts', hrows, hcols, hresult⟩ :=
    runOperation_dcmp hi' hidle' s.rows s.cols (Source.encode samples)
  have hsource := decompress_encode hfull
  rw [hsource] at hresult
  exact ⟨t, o, _, t', o', hrun, houts, err_of_runOperation_cmp hi hidle hfull hrun, hframe hfull, hrun', houts',
    err_of_runOperation_dcmp hi' hidle' hsource hrun', hrows, hcols, hresult⟩

/-! ## The grid (R190, R200) -/

theorem flattenGrid_succ (rows cols : Nat) (g : Nat → Nat → Sym) :
    flattenGrid (rows + 1) cols g = flattenGrid rows cols g ++ (List.range cols).map (g rows) := by
  simp [flattenGrid, List.range_succ]

theorem flattenGrid_length (rows cols : Nat) (g : Nat → Nat → Sym) :
    (flattenGrid rows cols g).length = rows * cols := by
  simp [flattenGrid]

/-- A sample stands behind the whole rows above it (R190). -/
theorem flattenGrid_getElem? {rows cols r c : Nat} (g : Nat → Nat → Sym) (hr : r < rows) (hc : c < cols) :
    (flattenGrid rows cols g)[sampleIndex cols r c]? = some (g r c) := by
  induction rows with
  | zero => exact absurd hr (Nat.not_lt_zero r)
  | succ rows ih =>
    rw [flattenGrid_succ]
    rcases Nat.lt_succ_iff_lt_or_eq.mp hr with hlt | rfl
    · have hindex : sampleIndex cols r c < rows * cols :=
        calc r * cols + c < (r + 1) * cols := by rw [Nat.succ_mul]; omega
          _ ≤ rows * cols := Nat.mul_le_mul_right cols hlt
      rw [List.getElem?_append_left (by rwa [flattenGrid_length]), ih hlt]
    · rw [List.getElem?_append_right (by rw [flattenGrid_length]; exact Nat.le_add_right _ _), flattenGrid_length,
        sampleIndex, Nat.add_sub_cancel_left]
      simp [hc]

/-- Settles O60: the flat sequence row by row, and division with remainder by the row's length. -/
theorem rowMajorOrder : Obligations.RowMajorOrder := by
  intro rows cols g
  refine ⟨flattenGrid_length rows cols g, fun r c hr hc => ⟨flattenGrid_getElem? g hr hc, ?_, ?_⟩, fun i hi => ?_⟩
  · rw [sampleRow, sampleIndex, Nat.mul_comm, Nat.mul_add_div (Nat.zero_lt_of_lt hc), Nat.div_eq_of_lt hc, Nat.add_zero]
  · rw [sampleCol, sampleIndex, Nat.mul_add_mod_of_lt hc]
  · have hpos : 0 < cols := Nat.pos_of_mul_pos_left (Nat.zero_lt_of_lt hi)
    exact ⟨Nat.div_lt_of_lt_mul (Nat.mul_comm rows cols ▸ hi), Nat.mod_lt i hpos, Nat.div_add_mod' i cols⟩

/-- Settles O40: each register is below `2 ^ 32`, so the product is below `2 ^ 64`. -/
theorem gridProductIsExact : Obligations.GridProductIsExact := by
  intro s
  have hbound : gridSize s ≤ 0xFFFFFFFF * 0xFFFFFFFF :=
    Nat.mul_le_mul (Nat.le_of_lt_succ s.rows.isLt) (Nat.le_of_lt_succ s.cols.isLt)
  refine ⟨?_, hbound, rfl⟩
  rw [BitVec.toNat_mul, BitVec.toNat_setWidth_of_le (by decide), BitVec.toNat_setWidth_of_le (by decide)]
  exact Nat.mod_eq_of_lt (show gridSize s < 2 ^ 64 by omega)

/-! ## The end beats (R192, R196) -/

/-- An end beat with a flush of a working sequence: its code leaves before the end beat, so `Z` is clear. -/
theorem endOp_flush_of_working {s : State} (he : s.err = .none) (hv : s.wv = true) : endOp (flush s) = { s with
    ocnt := s.ocnt + 2, wv := false, z := false, done := true, mode := .idle
    outs := s.outs ++ [.out (s.w.extractLsb' 8 8), .out (s.w.extractLsb' 0 8), .outEnd .none] } := by
  rw [flush_of_working hv]
  simp [endOp, emitEnd, zFlag, emitCode, emitBytes, codeBytes, codeHigh, codeLow, he]

/-- Settles O27: the count decides between the error and the flush, which is `ENC.END`'s. -/
theorem compressEnd : Obligations.CompressEnd := by
  intro s hm he
  refine ⟨fun (hcount : s.icnt ≠ gridSize s) => ?_, fun (hcount : s.icnt = gridSize s) hv => ?_,
    fun (hcount : s.icnt = gridSize s) hv => ?_⟩
  · rw [exec_cmpEnd hm he, if_pos hcount]
    rfl
  · rw [exec_cmpEnd hm he, if_neg (not_not_intro hcount), endOp_flush_of_working he hv]
  · rw [exec_cmpEnd hm he, if_neg (not_not_intro hcount), flush_of_empty hv, ← he]
    rfl

theorem frameCheck_truncated {s : State} (h : s.hcnt.toNat < 8) : frameCheck s = .malformedStream := if_pos h

theorem frameCheck_halfCode {s : State} (h : 8 ≤ s.hcnt.toNat) (hb : s.hbv = true) :
    frameCheck s = .malformedStream :=
  (if_neg (Nat.not_lt.mpr h)).trans (if_pos hb)

/-- A frame with a whole header and whole codes is judged by its counters. -/
theorem frameCheck_counts {s : State} (h : 8 ≤ s.hcnt.toNat) (hb : s.hbv = false) :
    frameCheck s = if s.icnt = 0 ∧ 0 < gridSize s then .malformedStream
      else if s.ocnt ≠ gridSize s then .sizeMismatch else .none :=
  (if_neg (Nat.not_lt.mpr h)).trans (if_neg (by simp [hb]))

theorem frameCheck_payload {s : State} (h : 8 ≤ s.hcnt.toNat) (hb : s.hbv = false)
    (hp : s.icnt ≠ 0 ∨ gridSize s = 0) :
    frameCheck s = if s.ocnt ≠ gridSize s then .sizeMismatch else .none :=
  (frameCheck_counts h hb).trans (if_neg (by omega))

/-- A `DCMP` whose checks name an error ends with it. -/
theorem exec_dcmpEnd_error {s : State} {e : ErrCode} (hm : s.mode = .dcmp) (he : s.err = .none)
    (hcheck : frameCheck s = e) (hne : e ≠ .none) : exec .dcmpEnd s = .next { s with
      err := e, errinfo := 0, z := decide (s.ocnt = 0), done := true, mode := .idle
      outs := s.outs ++ [.outEnd e] } := by
  rw [exec_dcmpEnd hm he, hcheck, if_neg hne]
  rfl

/-- Settles O39: each clause is the case of the checks that it names. -/
theorem decompressEnd : Obligations.DecompressEnd := by
  intro s hm he
  refine ⟨fun hh => ?_, fun hh hb => ?_, fun hh hb hzero hpos => ?_, fun hh hb hp hsize => ?_,
    fun hh hb hp hsize => ?_⟩
  · exact exec_dcmpEnd_error hm he (frameCheck_truncated hh) nofun
  · exact exec_dcmpEnd_error hm he (frameCheck_halfCode hh hb) nofun
  · exact exec_dcmpEnd_error hm he ((frameCheck_counts hh hb).trans (if_pos ⟨hzero, hpos⟩)) nofun
  · exact exec_dcmpEnd_error hm he ((frameCheck_payload hh hb hp).trans (if_pos hsize)) nofun
  · have hcheck := (frameCheck_payload hh hb hp).trans (if_neg (not_not_intro hsize))
    rw [exec_dcmpEnd hm he, if_pos hcheck, ← he]
    rfl

/-! ## The header bytes (R193, R194) -/

/-- A byte after the first pushes the register eight places to the left. -/
theorem hdrShift_later {n : BitVec 4} (hn : n ≠ 0) (h : BitVec 64) (b : Sym) :
    hdrShift n h b = (h <<< 8) ||| b.setWidth 64 := by
  apply BitVec.eq_of_toNat_eq
  have hleft : h.toNat <<< 8 % 2 ^ 64 = 2 ^ 8 * (h.toNat % 2 ^ 56) := by
    rw [Nat.shiftLeft_eq, Nat.mul_comm]
    exact Nat.mul_mod_mul_left (2 ^ 8) h.toNat (2 ^ 56)
  rw [hdrShift_toNat, if_neg hn, BitVec.toNat_or, BitVec.toNat_shiftLeft, BitVec.toNat_setWidth_of_le (by decide),
    hleft, ← Nat.two_pow_add_eq_or_of_lt b.isLt, Nat.mul_comm]

/-- Settles O37: the byte is shifted in, and the eighth is a header row's. -/
theorem headerBytes : Obligations.HeaderBytes := by
  intro s b hm he
  refine ⟨fun hzero => ?_, fun hpos hlt => ?_, fun hlast => ?_⟩
  · have hn : s.hcnt = 0 := BitVec.eq_of_toNat_eq hzero
    rw [exec_dcmpIn_header hm he (by omega), headerStep_more (by omega), hdrShift, if_pos hn, hn]
    rfl
  · have hn : s.hcnt ≠ 0 := fun h => by rw [h] at hpos; exact absurd hpos (by decide)
    rw [exec_dcmpIn_header hm he (by omega), headerStep_more hlt, hdrShift_later hn]
    rfl
  · have hn : s.hcnt ≠ 0 := fun h => by rw [h] at hlast; exact absurd hlast (by decide)
    rw [exec_dcmpIn_header hm he (by omega), headerStep_next hm he (by omega), if_pos hlast, hdrShift_later hn]
    rfl

/-! ## The compression ratio (R198, R224) -/

/-- Settles O59: a `CMP` that ended without an error has a ratio or none by `Z` alone. -/
theorem compressionRatio_eq : Obligations.CompressionRatio := by
  intro s ho hd he
  rw [compressionRatio, if_pos ⟨ho, hd, he⟩]
  exact ⟨fun hz => if_neg (by simp [hz]), fun hz => if_pos hz⟩

end Sys2Proof.Machine
end

section
/-! Faults of the core (60_exceptions.md): what a latched fault still lets happen (R226, R228), and which errors each
operation can latch (the table after R225). -/

namespace Sys2Proof.Machine

/-! ## With a fault latched (R226, R228) -/

/-- Every row that reads, emits or raises needs `ERR = 0` (40_commands.md R135), so with a fault latched the host's
accesses, the end of the operation and the next START are all that is left. -/
theorem exec_of_latched {i : Instr} {s t : State} (hf : s.err ≠ .none) (h : exec i s = .next t) :
    (∃ r, t = { s with reads := r }) ∨
    (s.mode = .idle ∧ ∃ r c, t = { s with rows := r, cols := c }) ∨
    (s.mode ≠ .idle ∧ t = endOp s) ∨
    (s.mode = .idle ∧ startsOperation i = true ∧ t.err = .none) := by
  cases effect_of_next h with
  | unchanged | read => exact .inl ⟨_, rfl⟩
  | setRows _ hm | setCols _ hm => exact .inr (.inl ⟨hm, _, _, rfl⟩)
  | drainEnd hm => exact .inr (.inr (.inl ⟨hm, rfl⟩))
  | startEnc hm | startDec hm | startDcmp hm | startCmp hm => exact .inr (.inr (.inr ⟨hm, rfl, rfl⟩))
  | encSymbol _ he | cmpSymbol _ he | decByte _ he | dcmpByte _ he | headerByte _ he | header _ he => exact absurd he hf
  | encEnd _ he | decEnd _ he | cmpEnd _ he | dcmpEnd _ he => exact absurd he hf
  | code hp => exact absurd hp.1 hf

/-- Settles O42: while busy only register reads and the end beat are left; in any state `ERR` and `ERRINFO` are kept
but by a START. -/
theorem latchedFaultStays : Obligations.LatchedFaultStays := by
  refine ⟨fun i s t hm hf h => ?_, fun i s t h hf => ?_⟩
  · rcases exec_of_latched hf h with ⟨r, rfl⟩ | ⟨hidle, -⟩ | ⟨-, rfl⟩ | ⟨hidle, -⟩
    · simp
    · exact absurd hidle hm
    · simp
    · exact absurd hidle hm
  · rcases exec_of_latched hf h with ⟨r, rfl⟩ | ⟨-, r, c, rfl⟩ | ⟨-, rfl⟩ | ⟨hidle, hi, he⟩
    · exact .inl ⟨rfl, rfl⟩
    · exact .inl ⟨rfl, rfl⟩
    · exact .inl ⟨rfl, rfl⟩
    · exact .inr ⟨hi, hidle, he⟩

/-! ## What each operation can latch (R221 to R225) -/

/-- The matcher raises nothing. -/
theorem matcherStep_err {c : Sym} {s t : State} (h : matcherStep c s = .next t) : t.err = s.err := by
  rcases matcherStep_cases c s with ⟨-, e⟩ | ⟨-, k, -, e⟩ | ⟨-, -, -, e⟩ | ⟨-, -, -, e⟩
  all_goals
    rw [e] at h
    cases h
    rfl

theorem flush_err (s : State) : (flush s).err = s.err := by rw [flush_eq]

theorem headerStep_err {b : Sym} {s t : State} (hm : s.mode = .dcmp) (he : s.err = .none)
    (hc : s.hcnt.toNat < 8) (h : headerStep b s = .next t) : t.err = s.err := by
  rw [headerStep_next hm he hc] at h
  cases h
  split <;> rfl

/-- A code raises `DictionaryUnderflow` or nothing (R222). -/
theorem runCode_err {k : Code} {s t : State} (h : runCode k s = .next t) :
    t.err = s.err ∨ t.err = .dictionaryUnderflow := by
  rcases runCode_effect h with rfl | ⟨l, n, d, m, rfl, -⟩
  · exact .inr rfl
  · exact .inl rfl

theorem parserStep_err {b : Sym} {s t : State} (h : parserStep b s = .next t) :
    t.err = s.err ∨ t.err = .dictionaryUnderflow := by
  rcases parserStep_effect h with ⟨-, rfl⟩ | ⟨-, h⟩
  · exact .inl rfl
  · exact runCode_err (s := { countIn s with hbv := false }) h

/-- The checks at the end of a frame name errors of a `DCMP` (R221, R223). -/
theorem errorOf_frameCheck (s : State) : errorOf .dcmp (frameCheck s) = true := by
  unfold frameCheck
  repeat' split
  all_goals rfl

theorem State.Inv.op_of_payload {s : State} (hi : s.Inv) (hp : InPayload s) : s.op = .dec ∨ s.op = .dcmp := by
  rw [hi.opMode hp.not_idle]
  exact hp.2.imp_right And.left

/-- Where codes are parsed, `ERR` kept or `DictionaryUnderflow` latched is an error of the operation. -/
theorem errorOf_parsed {s t : State} (hs : errorOf s.op s.err = true) (hop : s.op = .dec ∨ s.op = .dcmp)
    (ho : t.op = s.op) (he : t.err = s.err ∨ t.err = .dictionaryUnderflow) : errorOf t.op t.err = true := by
  rw [ho]
  rcases he with he | he <;> rw [he]
  · exact hs
  · rcases hop with hop | hop <;> rw [hop] <;> rfl

/-- Every row leaves `ERR` at an error its operation can end with. -/
theorem errorOf_exec {i : Instr} {s t : State} (hi : s.Inv) (hs : errorOf s.op s.err = true)
    (h : exec i s = .next t) : errorOf t.op t.err = true := by
  have hop {m : Mode} (hm : s.mode = m) (hne : m ≠ .idle) : s.op = m := (hi.opMode (mode_ne_idle hm hne)).trans hm
  cases effect_of_next h with
  | unchanged | read | setRows | setCols | header | drainEnd => exact hs
  | startEnc | startDec | startDcmp | startCmp => rfl
  | encSymbol _ _ h | cmpSymbol _ _ h => rwa [(matcherStep_keepsStatus h).op, matcherStep_err h]
  | headerByte hm he hc h => rwa [(headerStep_keepsStatus hm he hc h).op, headerStep_err hm he hc h]
  | decByte hm _ h =>
    exact errorOf_parsed hs (.inl (hop hm nofun)) (parserStep_keepsStatus h).op (parserStep_err h)
  | dcmpByte hm _ _ h =>
    exact errorOf_parsed hs (.inr (hop hm nofun)) (parserStep_keepsStatus h).op (parserStep_err h)
  | code hp _ h => exact errorOf_parsed hs (hi.op_of_payload hp) (runCode_keepsStatus h).op (runCode_err h)
  | encEnd => rwa [endOp_op, endOp_err, (flush_keepsStatus s).op, flush_err]
  | decEnd hm =>
    split
    · rw [endOp_op, endOp_err, raiseError_op, raiseError_err, hop hm nofun]
      rfl
    · exact hs
  | cmpEnd hm =>
    split
    · rw [endOp_op, endOp_err, raiseError_op, raiseError_err, hop hm nofun]
      rfl
    · rwa [endOp_op, endOp_err, (flush_keepsStatus s).op, flush_err]
  | dcmpEnd hm =>
    split
    · exact hs
    · rw [endOp_op, endOp_err, raiseError_op, raiseError_err, hop hm nofun]
      exact errorOf_frameCheck s

/-- Settles O43: every row keeps it, and a `Reset` event leaves no error. -/
theorem errorsPerOperation : Obligations.ErrorsPerOperation := by
  refine ⟨rfl, fun s t hi hs h => ?_⟩
  rcases step_effect h with ⟨rfl, -⟩ | ⟨e, rest, -, ⟨-, rfl⟩ | ⟨x, i, -, -, hex⟩⟩
  · exact hs
  · rfl
  · exact errorOf_exec (s := { s with pending := rest }) (hi.withPending rest) hs hex

end Sys2Proof.Machine
end
